-- ==== Sys2Proof/Word.lean ====
section
/-! DEFINITION. The word and level types of the OnePin engine (spec/00_scope.md R9, R13). -/

namespace Sys2Proof

/-- Every host register, packet, accumulator and measured duration is 32 bits (R9). -/
abbrev Word := BitVec 32

/-- One byte lane of the host bus (R64). -/
abbrev Byte := BitVec 8

/-- A level of the line or of a pad's output latch (R13). -/
inductive Level where
  | low
  | high
  deriving DecidableEq, Repr

/-- The classifier state `S.isrState` (R45). -/
inductive IsrState where
  | idle
  | timing
  deriving DecidableEq, Repr

end Sys2Proof
end

