-- ==== Sys2Proof/Config.lean ====
section
/-! DEFINITION. What an implementation of the engine fixes (spec/00_scope.md R8 and the OPEN table of
spec/92_eei_decisions.md) and the free values the spec leaves to the environment (R11 `Draw`). -/

namespace Sys2Proof

/-- `GUARD_MODE` (R8, R166): how the classifier is kept from running while an event is undelivered. -/
inductive GuardMode where
  | entryGuard
  | sourceDisable
  deriving DecidableEq, Repr, Inhabited

/-- The model parameters of R8 and R60: constant for a run, none of them a register. They stand in `State`
as plain data, so that a statement about every state is a statement about every choice of them. -/
structure Params where
  /-- `SEC_PRESENT`: a SEC unit is attached (R3). -/
  secPresent : Bool
  /-- `PRI_LAT_SWITCH`: µs of one PRI `SetDirection`. -/
  priLatSwitch : Nat
  /-- `PRI_LAT_WRITE`: µs of one PRI `WriteLevel`. -/
  priLatWrite : Nat
  /-- `PRI_LAT_READ`: µs of one PRI `ReadLevel`. -/
  priLatRead : Nat
  /-- `SEC_LAT_SWITCH`: µs of one SEC `SetDirection`. -/
  secLatSwitch : Nat
  /-- `SEC_LAT_WRITE`: µs of one SEC `WriteLevel`. -/
  secLatWrite : Nat
  /-- `ISR_LAT_MIN`: lower bound of the SEC handler entry latency. -/
  isrLatMin : Nat
  /-- `ISR_LAT_MAX`: upper bound of the SEC handler entry latency. -/
  isrLatMax : Nat
  /-- `POLL_LAT_MIN`: lower bound of the SEC main-loop poll latency. -/
  pollLatMin : Nat
  /-- `POLL_LAT_MAX`: upper bound of the SEC main-loop poll latency. -/
  pollLatMax : Nat
  /-- `CAL_N_SWITCH`: iterations of the direction-switch calibration loop. -/
  calNSwitch : Nat
  /-- `CAL_N_WRITE`: iterations of the level-write calibration loop. -/
  calNWrite : Nat
  /-- `CAL_LOOP_OVH`: µs of overhead per calibration iteration. -/
  calLoopOvh : Nat
  guardMode : GuardMode
  /-- `RX_FIFO_DEPTH`: capacity of the SEC receive FIFO. -/
  rxFifoDepth : Nat
  /-- `P_BASE`: the host address of bank P (R60). -/
  pBase : Nat
  /-- `S_BASE`: the host address of bank S (R60). -/
  sBase : Nat
  deriving DecidableEq, Repr, Inhabited

/-- The ranges R8 and the OPEN table of 92 give the parameters. That the two banks lie apart is DEDUCED
from R60, which makes them two address spaces (log entry 4). -/
abbrev Params.Legal (p : Params) : Prop :=
  1 ≤ p.priLatSwitch ∧ 1 ≤ p.priLatWrite ∧ 1 ≤ p.secLatSwitch ∧ 1 ≤ p.secLatWrite ∧
  p.isrLatMin ≤ p.isrLatMax ∧ p.pollLatMin ≤ p.pollLatMax ∧
  64 ≤ p.calNSwitch ∧ p.calNSwitch % 2 = 0 ∧ 64 ≤ p.calNWrite ∧ p.calNWrite ≠ p.calNSwitch ∧
  1 ≤ p.rxFifoDepth ∧ p.rxFifoDepth ≤ 63 ∧
  p.pBase % 64 = 0 ∧ p.sBase % 64 = 0 ∧ p.pBase ≠ p.sBase

/-- The "default" column of 92's OPEN table: the values of the spec's own vectors, used by the tests only.
The bases have no default there; the two here are the tests' own. -/
def Params.defaults : Params where
  secPresent := true
  priLatSwitch := 2
  priLatWrite := 2
  priLatRead := 0
  secLatSwitch := 1
  secLatWrite := 1
  isrLatMin := 2
  isrLatMax := 2
  pollLatMin := 3
  pollLatMax := 3
  calNSwitch := 64
  calNWrite := 128
  calLoopOvh := 0
  guardMode := .entryGuard
  rxFifoDepth := 4
  pBase := 0
  sBase := 64

/-- The nearest legal parameters to `r`: every legal choice is its own nearest one. -/
def Params.legalise (r : Params) : Params :=
  let nSwitch := 2 * max 32 (r.calNSwitch / 2)
  let nWrite := max 64 r.calNWrite
  let pBase := 64 * (r.pBase / 64)
  let sBase := 64 * (r.sBase / 64)
  { r with
    priLatSwitch := max 1 r.priLatSwitch
    priLatWrite := max 1 r.priLatWrite
    secLatSwitch := max 1 r.secLatSwitch
    secLatWrite := max 1 r.secLatWrite
    isrLatMax := max r.isrLatMin r.isrLatMax
    pollLatMax := max r.pollLatMin r.pollLatMax
    calNSwitch := nSwitch
    calNWrite := if nWrite = nSwitch then nWrite + 1 else nWrite
    rxFifoDepth := max 1 (min 63 r.rxFifoDepth)
    pBase := pBase
    sBase := if sBase = pBase then pBase + 64 else sBase }

/-- The implementation's parameters before they are brought into range: a free value. -/
opaque Config.raw : Params

/-- The parameters of the machine `State.reset` stands for: any legal choice whatever (R8 "OPEN"). -/
def Config.params : Params := Config.raw.legalise

/-- The environment's integer choices (R11): the n-th draw of a run, before it is brought into its range. -/
opaque Config.drawNat : Nat → Nat

/-- The environment's level choices (R11, R211): the n-th draw of a run, `true` for HIGH. -/
opaque Config.drawHigh : Nat → Bool

/-- `Draw(lo..hi)` (R11), the n-th draw of the run. -/
def Config.drawIn (lo hi n : Nat) : Nat :=
  if hi ≤ lo then lo else lo + Config.drawNat n % (hi - lo + 1)

/-- `Draw({LOW, HIGH})` (R11), the n-th draw of the run. -/
def Config.drawLevel (n : Nat) : Level :=
  if Config.drawHigh n then .high else .low

end Sys2Proof
end

