-- ==== Sys2Proof/Syntax.lean ====
section
/-! DEFINITION. The instructions of spec/opcode_table.json: the six PRI commands and two SEC commands a host
writes, the four handler cases and the four event classes the SEC unit selects itself (spec/30_encoding.md). -/

namespace Sys2Proof

/-- One constructor per row of the opcode table. The handler cases carry the bits of the SEC_EDGE vector
that their row leaves free ("any"), so that no bit of a decoded vector is lost (R88). -/
inductive Instr where
  /-- INIT: `initialize()` (R121). -/
  | init
  /-- RESET: `resetAndDetectPresence()` (R124). -/
  | reset
  /-- WRITE: `write(packet, skipReset = false)` (R127). -/
  | write
  /-- WRITE.skip: `write(packet, skipReset = true)` (R127). -/
  | writeSkip
  /-- READ: `read(skipReset = false)` (R128). -/
  | read
  /-- READ.skip: `read(skipReset = true)` (R128). -/
  | readSkip
  /-- BEGIN: attach the level-change handler (R195). -/
  | secBegin
  /-- POP: remove the oldest received packet (R196). -/
  | pop
  /-- EDGE_DROP, vector `1xx` (R162). -/
  | edgeDrop (isr : IsrState) (lv : Level)
  /-- EDGE_START, vector `000` (R163). -/
  | edgeStart
  /-- EDGE_SPURIOUS, vector `001` (R164). -/
  | edgeSpurious
  /-- EDGE_END, vector `01x` (R165). -/
  | edgeEnd (lv : Level)
  /-- EVT_BIT1, class 0 (R181). -/
  | evtBit1
  /-- EVT_BIT0, class 1 (R181). -/
  | evtBit0
  /-- EVT_READ, class 2 (R183). -/
  | evtRead
  /-- EVT_RESET, class 3 (R186). -/
  | evtReset
  deriving DecidableEq, Repr

end Sys2Proof
end

