-- ==== Sys2Proof/WellFormed.lean ====
section
/-! DEFINITION. Which instructions the machine can meet. The encodings admit every term of `Instr`; R88 and
R56 say that the vectors 110 and 111 cannot occur, so a drop of a vector in TIMING is ill-formed. -/

namespace Sys2Proof

/-- The SEC_EDGE vectors 110 and 111 decode as EDGE_DROP but never occur (R88, R56); everything else may. -/
def Instr.wellFormed : Instr → Bool
  | .edgeDrop .timing _ => false
  | .edgeDrop .idle _ => true
  | .init | .reset | .write | .writeSkip | .read | .readSkip => true
  | .secBegin | .pop => true
  | .edgeStart | .edgeSpurious | .edgeEnd _ => true
  | .evtBit1 | .evtBit0 | .evtRead | .evtReset => true

end Sys2Proof
end

