-- ==== Sys2Proof/Decode.lean ====
section
/-! DEFINITION. The four formats (spec/30_encoding.md R80), their decoders, total on every word and rejecting
by name (R90, R93), and the encoder. A code word is a word together with its format: the bank a command word
is written to, or the internal decode point that forms the vector, says which format applies. -/

namespace Sys2Proof

/-- The four formats of R80. -/
inductive Format where
  | priCmd
  | secCmd
  | secEdge
  | secEvt
  deriving DecidableEq, Repr

/-- A word and the format it is read in. -/
structure Code where
  fmt : Format
  bits : Word
  deriving DecidableEq, Repr

/-- Why a word is no instruction of its format (R90). -/
inductive Reject where
  /-- A reserved bit above the format's fields is set. -/
  | reservedBit
  /-- The OP field holds a reserved value. -/
  | reservedOp
  /-- SKIPRST is set with INIT or RESET. -/
  | skipNotAllowed
  deriving DecidableEq, Repr

/-- The number of bits of a format (R80). -/
def Format.width : Format → Nat
  | .priCmd => 32
  | .secCmd => 32
  | .secEdge => 3
  | .secEvt => 2

/-- A level as a stored bit: HIGH = 1, LOW = 0 (R13). -/
def Level.toBool : Level → Bool
  | .low => false
  | .high => true

/-- The level a stored bit stands for (R13). -/
def Level.ofBool (b : Bool) : Level := if b then .high else .low

/-- `isrState` as the bit of the SEC_EDGE vector: 0 IDLE, 1 TIMING (R88). -/
def IsrState.toBool : IsrState → Bool
  | .idle => false
  | .timing => true

/-- The classifier state a bit of the SEC_EDGE vector stands for (R88). -/
def IsrState.ofBool (b : Bool) : IsrState := if b then .timing else .idle

/-- The field OP, bits 3:0 of a command word (R81, R82). -/
def opField (w : Word) : BitVec 4 := w.extractLsb' 0 4

/-- `decodePRI` of R93. -/
def decodePri (w : Word) : Except Reject Instr :=
  if w.extractLsb' 5 27 ≠ 0#27 then .error .reservedBit
  else
    match (opField w).toNat with
    | 1 => if w.getLsbD 4 then .error .skipNotAllowed else .ok .init
    | 2 => if w.getLsbD 4 then .error .skipNotAllowed else .ok .reset
    | 3 => if w.getLsbD 4 then .ok .writeSkip else .ok .write
    | 4 => if w.getLsbD 4 then .ok .readSkip else .ok .read
    | _ => .error .reservedOp

/-- `decodeSEC` of R93. -/
def decodeSec (w : Word) : Except Reject Instr :=
  if w.extractLsb' 4 28 ≠ 0#28 then .error .reservedBit
  else
    match (opField w).toNat with
    | 1 => .ok .secBegin
    | 2 => .ok .pop
    | _ => .error .reservedOp

/-- The case split of R161 on the SEC_EDGE vector of R88, from its three bits: pending, isrState, level. -/
def edgeCase (pending : Bool) (isr : IsrState) (lv : Level) : Instr :=
  match pending, isr, lv with
  | true, isr, lv => .edgeDrop isr lv
  | false, .idle, .low => .edgeStart
  | false, .idle, .high => .edgeSpurious
  | false, .timing, lv => .edgeEnd lv

/-- The handler case a SEC_EDGE vector selects (R88, R161): bit 2 pending, bit 1 isrState, bit 0 level. -/
def decodeEdge (v : BitVec 3) : Instr :=
  edgeCase (v.getLsbD 2) (.ofBool (v.getLsbD 1)) (.ofBool (v.getLsbD 0))

/-- The response branch an event class selects (R89). -/
def decodeEvt (v : BitVec 2) : Instr :=
  match v.toNat with
  | 0 => .evtBit1
  | 1 => .evtBit0
  | 2 => .evtRead
  | _ => .evtReset

/-- Decode a word in its format; the bits above an internal vector's width must be 0. -/
def decode (c : Code) : Except Reject Instr :=
  match c.fmt with
  | .priCmd => decodePri c.bits
  | .secCmd => decodeSec c.bits
  | .secEdge =>
    if c.bits.extractLsb' 3 29 ≠ 0#29 then .error .reservedBit
    else .ok (decodeEdge (c.bits.extractLsb' 0 3))
  | .secEvt =>
    if c.bits.extractLsb' 2 30 ≠ 0#30 then .error .reservedBit
    else .ok (decodeEvt (c.bits.extractLsb' 0 2))

/-- The SEC_EDGE vector `{pending, isrState, level}` of R88. -/
def edgeVector (pending : Bool) (isr : IsrState) (lv : Level) : BitVec 3 :=
  BitVec.ofBool pending ++ BitVec.ofBool isr.toBool ++ BitVec.ofBool lv.toBool

/-- The code word of an instruction (R84, R85, R88, R89). -/
def encode : Instr → Code
  | .init => ⟨.priCmd, 0x00000001#32⟩
  | .reset => ⟨.priCmd, 0x00000002#32⟩
  | .write => ⟨.priCmd, 0x00000003#32⟩
  | .writeSkip => ⟨.priCmd, 0x00000013#32⟩
  | .read => ⟨.priCmd, 0x00000004#32⟩
  | .readSkip => ⟨.priCmd, 0x00000014#32⟩
  | .secBegin => ⟨.secCmd, 0x00000001#32⟩
  | .pop => ⟨.secCmd, 0x00000002#32⟩
  | .edgeDrop isr lv => ⟨.secEdge, (edgeVector true isr lv).setWidth 32⟩
  | .edgeStart => ⟨.secEdge, (edgeVector false .idle .low).setWidth 32⟩
  | .edgeSpurious => ⟨.secEdge, (edgeVector false .idle .high).setWidth 32⟩
  | .edgeEnd lv => ⟨.secEdge, (edgeVector false .timing lv).setWidth 32⟩
  | .evtBit1 => ⟨.secEvt, 0#32⟩
  | .evtBit0 => ⟨.secEvt, 1#32⟩
  | .evtRead => ⟨.secEvt, 2#32⟩
  | .evtReset => ⟨.secEvt, 3#32⟩

/-- The byte lane `k` of a register on a host bus that has byte lanes: bits 7:0 on lane 0 (R64). -/
def busLane (w : Word) (k : Nat) : Byte := w.extractLsb' (8 * k) 8

/-- The word whose four byte lanes are given, lane 0 first (R64). -/
def ofBusLanes (b0 b1 b2 b3 : Byte) : Word := b3 ++ b2 ++ b1 ++ b0

/-- The code word a row of the opcode table stands for, when the table gives it `nbits` bits. The table's bits
do not say which format a row has: a 32-bit word is read as a PRI_CMD word, a vector of one byte as SEC_EVT
below 4 and as SEC_EDGE from 4 up; the widths 3 and 2 name SEC_EDGE and SEC_EVT themselves (log entry 3). -/
def tableCode (nbits w : Nat) : Option Code :=
  let bits : Word := BitVec.ofNat 32 w
  match nbits with
  | 32 => some ⟨.priCmd, ofBusLanes (busLane bits 0) (busLane bits 1) (busLane bits 2) (busLane bits 3)⟩
  | 8 => some ⟨if w < 4 then .secEvt else .secEdge, bits⟩
  | 3 => some ⟨.secEdge, bits⟩
  | 2 => some ⟨.secEvt, bits⟩
  | _ => none

/-- The instruction the decoder reads from a row's bits. -/
def decodeTableWord (nbits w : Nat) : Option Instr :=
  match tableCode nbits w with
  | some c =>
    match decode c with
    | .ok i => some i
    | .error _ => none
  | none => none

end Sys2Proof
end

