-- ==== Sys2Proof/Machine/Profile.lean ====
section
/-! DEFINITION. The timing parameter table (spec/40_timing_profile.md). -/

namespace Sys2Proof.Machine

/-- The fifteen derived durations of a unit, in µs (R100). -/
structure Profile where
  resetSignal : Nat
  resetPresence : Nat
  resetPresenceSampleDelay : Nat
  resetSettle : Nat
  write1Active : Nat
  write1Pause : Nat
  write0Active : Nat
  write0Pause : Nat
  write1DetectCeiling : Nat
  write0DetectCeiling : Nat
  readDetectCeiling : Nat
  readInitActive : Nat
  readReplyHold : Nat
  readSampleDelay : Nat
  readPause : Nat
  deriving DecidableEq, Repr

/-- `prof(T)` of R100; the half-integer multiples are rounded down (D6). -/
def profile (T : Nat) : Profile where
  resetSignal := 5 * T
  resetPresence := 3 * T / 2
  resetPresenceSampleDelay := T
  resetSettle := 3 * T / 2
  write1Active := T / 2
  write1Pause := T - T / 2
  write0Active := 3 * T / 2
  write0Pause := 2 * T - 3 * T / 2
  write1DetectCeiling := T
  write0DetectCeiling := 2 * T
  readDetectCeiling := 3 * T
  readInitActive := 5 * T / 2
  readReplyHold := T
  readSampleDelay := T / 2
  readPause := T

end Sys2Proof.Machine
end

