-- ==== Sys2Proof/Machine/State.lean ====
section
/-! DEFINITION. The state of the link (spec/10_state.md), its value after reset (spec/70_reset_and_hazards.md
R271), and the reasons a step can stop. -/

namespace Sys2Proof.Machine

/-- Why the machine stops with a fault. -/
inductive Fault where
  /-- Raised by a host access whose address lies in neither 64-byte bank, or whose offset lies above its bank
  (R60, X16): the spec gives the engine no register there. Safe: the machine stops. -/
  | outsideBanks
  deriving DecidableEq, Repr

/-- Why a step has no meaning. -/
inductive Refusal where
  /-- Raised by an arm of `exec` whose instruction has no meaning yet; none is left. Safe: the machine stops. -/
  | notModelled (mnemonic : String)
  /-- Raised by a host access to bank S when `SEC_PRESENT = false`: bank S does not exist and "a model refuses
  host accesses to bank S" (R198, X8). Safe: the machine stops. -/
  | secAbsent
  deriving DecidableEq, Repr

/-- A pad's direction (R30); `input` is input with pull-up. -/
inductive Dir where
  | input
  | output
  deriving DecidableEq, Repr

/-- A unit's pad (R30, R50). -/
structure Pad where
  dir : Dir
  latch : Level
  deriving DecidableEq, Repr

/-- What a timed primitive does to its unit's pad when it completes (R212, R213). -/
inductive PadEffect where
  | setDirection (d : Dir)
  | writeLevel (v : Level)
  deriving DecidableEq, Repr

/-- A pad effect that is scheduled, and the instant it takes place (R12, R58). -/
structure PadDue where
  effect : PadEffect
  due : Nat
  deriving DecidableEq, Repr

/-- The error codes of R87. Codes 6 to 15 are never produced. -/
inductive ErrCode where
  | none
  | illegal
  | busy
  | notReady
  | cfg
  | cal
  deriving DecidableEq, Repr

/-- The fields of `P.CFG` and `S.CFG` (R83). -/
structure CfgReg where
  T : BitVec 16
  p2sBits : BitVec 6
  s2pBits : BitVec 6
  deriving DecidableEq, Repr

/-- The command a PRI sequencer runs (R31). -/
inductive PriCmd where
  | init
  | reset
  | write
  | read
  deriving DecidableEq, Repr

/-- The statement of INIT's pseudocode that is taken next (R121); `k` counts a loop's finished iterations. -/
inductive CalPoint where
  | firstRead
  | switch (k : Nat)
  | switchWait (k : Nat)
  | write (k : Nat)
  | writeWait (k : Nat)
  deriving DecidableEq, Repr

/-- The statement of `resetPhase()` that is taken next (R125). -/
inductive ResetPoint where
  | low
  | hold
  | release
  | wait
  | sample
  | drive
  | settle
  | finish
  deriving DecidableEq, Repr

/-- The statement of `writeBit(b)` that is taken next (R126); `head` is the head of WRITE's loop (R127). -/
inductive WritePoint where
  | head
  | hold
  | high
  | pause
  deriving DecidableEq, Repr

/-- The statement of `readBit(i)` that is taken next (R129); `head` is the head of READ's loop (R128) and
`store v` the assignment of the level read. -/
inductive ReadPoint where
  | head
  | hold
  | release
  | wait
  | sample
  | store (v : Level)
  | settle
  deriving DecidableEq, Repr

/-- The program point of the PRI sequencer (R31, R55); `i` is the loop's bit slot. -/
inductive PriPoint where
  | start
  | cal (p : CalPoint)
  | rst (p : ResetPoint)
  | wr (i : Nat) (p : WritePoint)
  | rd (i : Nat) (p : ReadPoint)
  deriving DecidableEq, Repr

/-- `P.seq` (R31). -/
inductive PriSeq where
  | idle
  | running (cmd : PriCmd) (skip : Bool) (point : PriPoint) (nextAt : Nat)
  deriving DecidableEq, Repr

/-- The PRI unit: its host registers (R21 to R29) and its hidden state (R30 to R33). `P.CMD` holds nothing
(R21), `P.CAL` shows `swLat` and `wrLat` (R27) and `P.NOW` the timer (R29), so none of them is a field. -/
structure PriUnit where
  /-- `P.STATUS.BUSY` (R22). -/
  busy : Bool
  /-- `P.STATUS.READY` (R22). -/
  ready : Bool
  /-- `P.STATUS.PRESENCE` (R22). -/
  presence : Bool
  /-- `P.STATUS.DONE` (R22). -/
  done : Bool
  /-- `P.STATUS.ERR` (R22). -/
  err : Bool
  /-- `P.STATUS.LASTERR` (R22). -/
  lastErr : ErrCode
  /-- `P.CFG` (R24). -/
  cfg : CfgReg
  /-- `P.TXDATA` (R25). -/
  txData : Word
  /-- `P.RXDATA` (R26). -/
  rxData : Word
  /-- `P.IE.DONE_IE` (R28). -/
  doneIe : Bool
  /-- `P.IE.ERR_IE` (R28). -/
  errIe : Bool
  /-- `P.pad` (R30). -/
  pad : Pad
  /-- The pad effect of the unit's outstanding primitive, if it has one (R12, R58). -/
  padDue : Option PadDue
  /-- `P.seq` (R31). -/
  seq : PriSeq
  /-- `P.txSnap` (R31). -/
  txSnap : Word
  /-- `P.rxAcc` (R31). -/
  rxAcc : Word
  /-- `P.slot` (R31). -/
  slot : Nat
  /-- `P.calT0` (R31). -/
  calT0 : Word
  /-- `P.calT1` (R31). -/
  calT1 : Word
  /-- `P.calT2` (R31). -/
  calT2 : Word
  /-- `P.prof` (R32). -/
  prof : Profile
  /-- `P.swLat` (R33). -/
  swLat : Nat
  /-- `P.wrLat` (R33). -/
  wrLat : Nat
  deriving DecidableEq, Repr

/-- The event classes of R89, the branches of the response logic (R49). -/
inductive EvtClass where
  | bit1
  | bit0
  | read
  | reset
  deriving DecidableEq, Repr

/-- The statement of a response branch that is taken next (R183, R186); `drive v` is `WriteLevel(S, v)`. -/
inductive SecPoint where
  | start
  | drive (v : Level)
  | hold
  | release
  | finish
  deriving DecidableEq, Repr

/-- `S.resp` (R49). -/
inductive SecResp where
  | idle
  | responding (branch : EvtClass) (point : SecPoint) (nextAt : Nat)
  deriving DecidableEq, Repr

/-- The SEC unit: its host registers (R34 to R43) and its hidden state (R45 to R50). `S.CMD` holds nothing,
`S.RXDATA` shows the head of the FIFO, `S.DURATION`, `S.ACC`, `S.SENDBUF` and `S.START` show hidden state and
`S.NOW` the timer, so none of them is a field; PENDING, TIMING, RXVALID, BITINDEX and RXCOUNT are views too. -/
structure SecUnit where
  /-- `S.STATUS.ACTIVE` (R35). -/
  active : Bool
  /-- `S.STATUS.RXOVF` (R35). -/
  rxOvf : Bool
  /-- `S.STATUS.ERR` (R35). -/
  err : Bool
  /-- `S.STATUS.LASTERR` (R35). -/
  lastErr : ErrCode
  /-- `S.CFG` (R36). -/
  cfg : CfgReg
  /-- `S.TXNEXT` (R38). -/
  txNext : Word
  /-- `S.IE.RX_IE` (R41). -/
  rxIe : Bool
  /-- `S.IE.OVF_IE` (R41). -/
  ovfIe : Bool
  /-- `S.IE.ERR_IE` (R41). -/
  errIe : Bool
  /-- `S.isrState` (R45). -/
  isrState : IsrState
  /-- `S.start` (R45). -/
  start : Word
  /-- `S.irqLatch` (R45). -/
  irqLatch : Bool
  /-- `S.isrDueAt` (R45). -/
  isrDueAt : Option Nat
  /-- `S.pending` (R46). -/
  pending : Bool
  /-- `S.duration` (R46). -/
  duration : Word
  /-- `S.pendSetAt` (R46). -/
  pendSetAt : Nat
  /-- `S.pollAt` (R46). -/
  pollAt : Nat
  /-- `S.bitIndex` (R47). -/
  bitIndex : Nat
  /-- `S.acc` (R47). -/
  acc : Word
  /-- `S.sendBuf` (R47). -/
  sendBuf : Word
  /-- `S.rxFifo`, oldest packet first (R48). -/
  rxFifo : List Word
  /-- `S.resp` (R49). -/
  resp : SecResp
  /-- `S.pad` (R50). -/
  pad : Pad
  /-- The pad effect of the unit's outstanding primitive, if it has one (R12, R58). -/
  padDue : Option PadDue
  /-- `S.prof` (R50). -/
  prof : Profile
  deriving DecidableEq, Repr

/-- The five phases of an instant (R210), the fourth in its two parts: SEC main loop, then PRI sequencer. -/
inductive Phase where
  | pads
  | line
  | handler
  | sec
  | pri
  | host
  deriving DecidableEq, Repr

/-- The two register banks (R60). -/
inductive Bank where
  | P
  | S
  deriving DecidableEq, Repr

/-- What a host access addresses: a register by bank and offset (R11), or a host address (R60). -/
inductive Target where
  | reg (bank : Bank) (off : Nat)
  | addr (a : Nat)
  deriving DecidableEq, Repr

/-- The width of a host access (R62). -/
inductive Width where
  | w8
  | w16
  | w32
  deriving DecidableEq, Repr

/-- One access of the host (R62, R94): a read, a write, or a read that a `poll` line repeats. -/
inductive Access where
  | rd (tgt : Target) (width : Width)
  | wr (tgt : Target) (width : Width) (v : Word)
  | poll (tgt : Target) (mask value : Word)
  deriving DecidableEq, Repr

/-- One line of a host program (R94). -/
inductive HostLine where
  | accesses (as : List Access)
  | poll (tgt : Target) (mask value : Word)
  | idle (n : Nat)
  deriving DecidableEq, Repr

/-- What the host bus answers an access with (R62): the data of a read, 0 otherwise, and the bus error. -/
structure BusReply where
  data : Word
  error : Bool
  deriving DecidableEq, Repr

/-- The state of the link (R20). -/
structure State where
  /-- The model parameters (R8); no step changes them. -/
  par : Params
  /-- The timer: whole µs since reset (R52). -/
  t : Nat
  /-- `line(t)` (R51). -/
  line : Level
  /-- `linePrev` (R51). -/
  linePrev : Level
  /-- `L.contended`, model only (R51). -/
  contended : Bool
  /-- The PRI unit. -/
  pri : PriUnit
  /-- The SEC unit; it has no effect when `SEC_PRESENT = false` (R198). -/
  sec : SecUnit
  /-- The MODEL's own: how many `Draw`s the run has made (R11; log entry 2). -/
  draws : Nat
  /-- The MODEL's own: the phase of the instant that the next step runs (R210; log entry 1). -/
  phase : Phase
  /-- The MODEL's own: the lines of the host program not begun yet (X13; log entry 5). -/
  prog : List HostLine
  /-- The MODEL's own: the accesses of this instant not performed yet (R67; log entry 5). -/
  bus : List Access
  /-- The MODEL's own: the bus's answer to the latest access (R62; log entry 5). -/
  reply : BusReply
  deriving DecidableEq, Repr

/-- `P.CFG` and `S.CFG` at reset: 0x00000050 (R24, R36). -/
def CfgReg.reset : CfgReg := { T := 80#16, p2sBits := 0#6, s2pBits := 0#6 }

/-- A pad at reset: input with pull-up, latch HIGH (R30). -/
def Pad.reset : Pad := { dir := .input, latch := .high }

/-- The PRI unit at reset (R271). -/
def PriUnit.reset : PriUnit where
  busy := false
  ready := false
  presence := false
  done := false
  err := false
  lastErr := .none
  cfg := .reset
  txData := 0#32
  rxData := 0#32
  doneIe := false
  errIe := false
  pad := .reset
  padDue := none
  seq := .idle
  txSnap := 0#32
  rxAcc := 0#32
  slot := 0
  calT0 := 0#32
  calT1 := 0#32
  calT2 := 0#32
  prof := profile 80
  swLat := 0
  wrLat := 0

/-- The SEC unit at reset (R271). -/
def SecUnit.reset : SecUnit where
  active := false
  rxOvf := false
  err := false
  lastErr := .none
  cfg := .reset
  txNext := 0#32
  rxIe := false
  ovfIe := false
  errIe := false
  isrState := .idle
  start := 0#32
  irqLatch := false
  isrDueAt := none
  pending := false
  duration := 0#32
  pendSetAt := 0
  pollAt := 0
  bitIndex := 0
  acc := 0#32
  sendBuf := 0#32
  rxFifo := []
  resp := .idle
  pad := .reset
  padDue := none
  prof := profile 80

/-- The link right after hardware reset (R270, R271), for any choice of the model parameters: instant 0 begins,
no host program is placed. -/
def State.resetWith (p : Params) : State where
  par := p
  t := 0
  line := .high
  linePrev := .high
  contended := false
  pri := .reset
  sec := .reset
  draws := 0
  phase := .pads
  prog := []
  bus := []
  reply := { data := 0#32, error := false }

/-- The link right after hardware reset (R271). -/
def State.reset : State := State.resetWith Config.params

end Sys2Proof.Machine
end

