-- ==== Sys2Proof/Machine/Ops.lean ====
section
/-! DEFINITION. The shared operations: the updates of the parts of a state, the timer and the draws, recording a
command error (spec/60_exceptions.md R241), entry to and return from the level-change handler (R250, R251), the
timed primitives (spec/44_gpio_line.md R212 to R216), and the completion of a command or of a response. -/

namespace Sys2Proof.Machine

/-! Updates of one part of the state. -/

def State.withPri (p : PriUnit) (s : State) : State := { s with pri := p }
def State.withSec (u : SecUnit) (s : State) : State := { s with sec := u }
def State.withPhase (ph : Phase) (s : State) : State := { s with phase := ph }
def State.withBus (b : List Access) (s : State) : State := { s with bus := b }
def State.withProg (p : List HostLine) (s : State) : State := { s with prog := p }
def State.withReply (r : BusReply) (s : State) : State := { s with reply := r }

/-! The timer and the draws. -/

/-- `Now()` (R215): the timer modulo 2^32. -/
def State.now (s : State) : Word := BitVec.ofNat 32 s.t

/-- The value of `Draw(lo..hi)` made now (R11). -/
def State.drawn (lo hi : Nat) (s : State) : Nat := Config.drawIn lo hi s.draws

/-- The state once a draw has been made: the next draw is a fresh one. -/
def State.afterDraw (s : State) : State := { s with draws := s.draws + 1 }

/-! Hardware reset. -/

/-- The reset input (R270): every piece of state takes its reset value, whatever was under way. No host access
and no engine event causes it, so no step does; the parameters are the machine's and stay. -/
def hardwareReset (s : State) : State := State.resetWith s.par

/-! Command errors. -/

/-- `raise CmdError(code)` on the PRI unit (R241). -/
def raisePri (code : ErrCode) (s : State) : State :=
  s.withPri { s.pri with err := true, lastErr := code }

/-- `raise CmdError(code)` on the SEC unit (R241). -/
def raiseSec (code : ErrCode) (s : State) : State :=
  s.withSec { s.sec with err := true, lastErr := code }

/-! The level-change interrupt: the engine's only trap. -/

/-- Trap entry (R250, the first line of R161): the request is taken, nothing is saved. -/
def handlerEntry (s : State) : State :=
  s.withSec { s.sec with irqLatch := false, isrDueAt := none }

/-- Trap return (R251): nothing to restore; the main loop goes on in phase 4 of the same instant. -/
def handlerReturn (s : State) : State := s.withPhase .sec

/-- `S.isrDueAt <- base + Draw(ISR_LAT_MIN..ISR_LAT_MAX)` (R160, R188). -/
def scheduleHandler (base : Nat) (s : State) : State :=
  (s.withSec { s.sec with
    isrDueAt := some (base + s.drawn s.par.isrLatMin s.par.isrLatMax) }).afterDraw

/-! The timed primitives of the PRI unit. Each is issued at the current instant and moves the sequencer to
`next` at the instant it completes (R12). -/

/-- The sequencer goes on at `next`, `d` µs from now. -/
def priThen (d : Nat) (c : PriCmd) (skip : Bool) (next : PriPoint) (s : State) : State :=
  s.withPri { s.pri with seq := .running c skip next (s.t + d) }

/-- `SetDirection(P, dir)` (R212). -/
def priSetDirection (dir : Dir) (c : PriCmd) (skip : Bool) (next : PriPoint) (s : State) : State :=
  priThen s.par.priLatSwitch c skip next
    (s.withPri { s.pri with padDue := some ⟨.setDirection dir, s.t + s.par.priLatSwitch⟩ })

/-- `WriteLevel(P, v)` (R213). -/
def priWriteLevel (v : Level) (c : PriCmd) (skip : Bool) (next : PriPoint) (s : State) : State :=
  priThen s.par.priLatWrite c skip next
    (s.withPri { s.pri with padDue := some ⟨.writeLevel v, s.t + s.par.priLatWrite⟩ })

/-- The passing of `ReadLevel(P)` (R214); the level it returns is `s.line`. -/
def priReadLevel (c : PriCmd) (skip : Bool) (next : PriPoint) (s : State) : State :=
  priThen s.par.priLatRead c skip next s

/-- `BusyWait(P, n)` (R216). -/
def priBusyWait (n : Nat) (c : PriCmd) (skip : Bool) (next : PriPoint) (s : State) : State :=
  priThen n c skip next s

/-- An untimed passage to another statement, taken in the same instant. -/
def priGoto (c : PriCmd) (skip : Bool) (next : PriPoint) (s : State) : State :=
  priThen 0 c skip next s

/-- Command completion (R130). -/
def priComplete (s : State) : State :=
  s.withPri { s.pri with seq := .idle, busy := false, done := true }

/-! The timed primitives of the SEC unit. -/

/-- The response goes on at `next`, `d` µs from now. -/
def secThen (d : Nat) (b : EvtClass) (next : SecPoint) (s : State) : State :=
  s.withSec { s.sec with resp := .responding b next (s.t + d) }

/-- `SetDirection(S, dir)` (R212). -/
def secSetDirection (dir : Dir) (b : EvtClass) (next : SecPoint) (s : State) : State :=
  secThen s.par.secLatSwitch b next
    (s.withSec { s.sec with padDue := some ⟨.setDirection dir, s.t + s.par.secLatSwitch⟩ })

/-- `WriteLevel(S, v)` (R213). -/
def secWriteLevel (v : Level) (b : EvtClass) (next : SecPoint) (s : State) : State :=
  secThen s.par.secLatWrite b next
    (s.withSec { s.sec with padDue := some ⟨.writeLevel v, s.t + s.par.secLatWrite⟩ })

/-- `BusyWait(S, n)` (R216). -/
def secBusyWait (n : Nat) (b : EvtClass) (next : SecPoint) (s : State) : State :=
  secThen n b next s

/-- `clearPending()` (R188), the last act of every branch, with the re-enabling of R167. -/
def clearPending (s : State) : State :=
  let s' := s.withSec { s.sec with pending := false, resp := .idle }
  if s.par.guardMode = .sourceDisable ∧ s.sec.irqLatch = true then scheduleHandler (s.t + 1) s' else s'

/-- `deliver()` (R182): the packet is queued, or dropped and flagged when the FIFO is full. -/
def deliver (s : State) : State :=
  if s.sec.rxFifo.length < s.par.rxFifoDepth then
    s.withSec { s.sec with rxFifo := s.sec.rxFifo ++ [s.sec.acc] }
  else s.withSec { s.sec with rxOvf := true }

end Sys2Proof.Machine
end

