-- ==== Sys2Proof/Machine/Operands.lean ====
section
/-! DEFINITION. The operands of the commands and events (spec/30_encoding.md R83, R86), the address map of the
banks (spec/20_memory.md R61) and the word each readable register shows. -/

namespace Sys2Proof.Machine

/-- Place the field `v` at bit `k` of a word. -/
def fieldAt {n : Nat} (k : Nat) (v : BitVec n) : Word := v.setWidth 32 <<< k

/-- Place a one-bit field at bit `k` of a word. -/
def flagAt (k : Nat) (b : Bool) : Word := fieldAt k (BitVec.ofBool b)

/-- Set bit `i` of `w` to `b`, for `i < 32` (R19). -/
def setBit (w : Word) (i : Nat) (b : Bool) : Word :=
  if b then w ||| ((1#32) <<< i) else w &&& ~~~((1#32) <<< i)

/-! Operands. -/

/-- The base time slot T of a unit, in µs (R86). -/
def CfgReg.slot (c : CfgReg) : Nat := c.T.toNat

/-- The width of PRI-to-SEC packets (R86). -/
def CfgReg.p2s (c : CfgReg) : Nat := c.p2sBits.toNat

/-- The width of SEC-to-PRI packets (R86). -/
def CfgReg.s2p (c : CfgReg) : Nat := c.s2pBits.toNat

/-- The CFG word a register shows; bits 23:22 and 31:30 read 0 (R83). -/
def CfgReg.toWord (c : CfgReg) : Word :=
  fieldAt 0 c.T ||| fieldAt 16 c.p2sBits ||| fieldAt 24 c.s2pBits

/-- The fields a write of a CFG word stores; bits 23:22 and 31:30 are ignored (R83). -/
def CfgReg.ofWord (w : Word) : CfgReg where
  T := w.extractLsb' 0 16
  p2sBits := w.extractLsb' 16 6
  s2pBits := w.extractLsb' 24 6

/-- Bit `i` of a packet as a level, HIGH = 1 (R13, R65). -/
def packetLevel (w : Word) (i : Nat) : Level := .ofBool (w.getLsbD i)

/-- The active and pause durations of a write slot for bit `b` (R126). -/
def Profile.writeActive (p : Profile) (b : Bool) : Nat := if b then p.write1Active else p.write0Active

/-- The pause of a write slot for bit `b` (R126). -/
def Profile.writePause (p : Profile) (b : Bool) : Nat := if b then p.write1Pause else p.write0Pause

/-- The hold of a driving response branch (R183, R186); the write-bit branch drives nothing. -/
def Profile.secHold (p : Profile) : EvtClass → Nat
  | .read => p.readReplyHold
  | .reset => p.resetPresence
  | .bit1 | .bit0 => 0

/-- The SEC_EVT code of an event class (R89). -/
def EvtClass.code : EvtClass → BitVec 2
  | .bit1 => 0#2
  | .bit0 => 1#2
  | .read => 2#2
  | .reset => 3#2

/-- The event class of a SEC_EVT code (R89). -/
def EvtClass.ofCode (v : BitVec 2) : EvtClass :=
  match v.toNat with
  | 0 => .bit1
  | 1 => .bit0
  | 2 => .read
  | _ => .reset

/-- The 4-bit code of an error (R87). -/
def ErrCode.code : ErrCode → BitVec 4
  | .none => 0#4
  | .illegal => 1#4
  | .busy => 2#4
  | .notReady => 3#4
  | .cfg => 4#4
  | .cal => 5#4

/-! The banks. -/

/-- The registers of bank P; `reserved` stands for every offset R61 gives none. -/
inductive PriReg where
  | cmd
  | status
  | cfg
  | txData
  | rxData
  | cal
  | ie
  | now
  | reserved
  deriving DecidableEq, Repr

/-- The registers of bank S; `reserved` stands for every offset R61 gives none. -/
inductive SecReg where
  | cmd
  | status
  | cfg
  | txNext
  | rxData
  | duration
  | ie
  | acc
  | sendBuf
  | start
  | now
  | reserved
  deriving DecidableEq, Repr

/-- The register of bank P at an offset (R61). -/
def priRegAt : Nat → PriReg
  | 0x00 => .cmd
  | 0x04 => .status
  | 0x08 => .cfg
  | 0x0C => .txData
  | 0x10 => .rxData
  | 0x14 => .cal
  | 0x18 => .ie
  | 0x1C => .now
  | _ => .reserved

/-- The register of bank S at an offset (R61). -/
def secRegAt : Nat → SecReg
  | 0x00 => .cmd
  | 0x04 => .status
  | 0x08 => .cfg
  | 0x0C => .txNext
  | 0x10 => .rxData
  | 0x14 => .duration
  | 0x18 => .ie
  | 0x1C => .acc
  | 0x20 => .sendBuf
  | 0x24 => .start
  | 0x28 => .now
  | _ => .reserved

/-- `P.STATUS` (R22). -/
def PriUnit.statusWord (p : PriUnit) : Word :=
  flagAt 0 p.busy ||| flagAt 1 p.ready ||| flagAt 2 p.presence ||| flagAt 3 p.done ||| flagAt 4 p.err |||
    fieldAt 8 p.lastErr.code

/-- `P.CAL` (R27): each half saturates at 0xFFFF. -/
def PriUnit.calWord (p : PriUnit) : Word :=
  fieldAt 0 (BitVec.ofNat 16 (min p.swLat 0xFFFF)) ||| fieldAt 16 (BitVec.ofNat 16 (min p.wrLat 0xFFFF))

/-- `P.IE` (R28). -/
def PriUnit.ieWord (p : PriUnit) : Word := flagAt 0 p.doneIe ||| flagAt 1 p.errIe

/-- `S.STATUS` (R35, R197). -/
def SecUnit.statusWord (u : SecUnit) : Word :=
  flagAt 0 u.active ||| flagAt 1 u.pending ||| flagAt 2 u.isrState.toBool ||| flagAt 3 (!u.rxFifo.isEmpty) |||
    flagAt 4 u.rxOvf ||| flagAt 5 u.err ||| fieldAt 8 u.lastErr.code |||
    fieldAt 16 (BitVec.ofNat 6 u.bitIndex) ||| fieldAt 24 (BitVec.ofNat 6 u.rxFifo.length)

/-- `S.IE` (R41). -/
def SecUnit.ieWord (u : SecUnit) : Word := flagAt 0 u.rxIe ||| flagAt 1 u.ovfIe ||| flagAt 2 u.errIe

/-- `S.RXDATA` (R39): the oldest packet, or 0. -/
def SecUnit.rxHead (u : SecUnit) : Word := u.rxFifo.headD 0#32

/-- The word a read of a register of bank P returns (R63). -/
def readPri (r : PriReg) (s : State) : Word :=
  match r with
  | .cmd => 0#32
  | .status => s.pri.statusWord
  | .cfg => s.pri.cfg.toWord
  | .txData => s.pri.txData
  | .rxData => s.pri.rxData
  | .cal => s.pri.calWord
  | .ie => s.pri.ieWord
  | .now => s.now
  | .reserved => 0#32

/-- The word a read of a register of bank S returns (R63). -/
def readSec (r : SecReg) (s : State) : Word :=
  match r with
  | .cmd => 0#32
  | .status => s.sec.statusWord
  | .cfg => s.sec.cfg.toWord
  | .txNext => s.sec.txNext
  | .rxData => s.sec.rxHead
  | .duration => s.sec.duration
  | .ie => s.sec.ieWord
  | .acc => s.sec.acc
  | .sendBuf => s.sec.sendBuf
  | .start => s.sec.start
  | .now => s.now
  | .reserved => 0#32

/-- `RegRead(u, off)` of an aligned 32-bit access (R11, R63). -/
def regRead (bank : Bank) (off : Nat) (s : State) : Word :=
  match bank with
  | .P => readPri (priRegAt off) s
  | .S => readSec (secRegAt off) s

/-- Where an access goes: its bank and offset, or nothing when it lies in neither bank (R60, X16). -/
def locate (p : Params) : Target → Option (Bank × Nat)
  | .reg bank off => if off < 64 then some (bank, off) else none
  | .addr a =>
    if p.pBase ≤ a ∧ a < p.pBase + 64 then some (.P, a - p.pBase)
    else if p.sBase ≤ a ∧ a < p.sBase + 64 then some (.S, a - p.sBase)
    else none

/-- An access the bus carries: 32 bits wide, at a multiple of 4 (R62). -/
def busOk (w : Width) (off : Nat) : Bool := w == .w32 && off % 4 == 0

end Sys2Proof.Machine
end

