-- ==== Sys2Proof/Machine/Flags.lean ====
section
/-! DEFINITION. The conditions the engine computes: the classification of a duration (R180), the legality of a
configuration (R120, R195), the calibration check (R123) and the interrupt outputs (R244, R245). -/

namespace Sys2Proof.Machine

/-- Classification of a measured duration against the ceilings, inclusive, in increasing order (R180). -/
def classify (p : Profile) (d : Word) : EvtClass :=
  if d.toNat ≤ p.write1DetectCeiling then .bit1
  else if d.toNat ≤ p.write0DetectCeiling then .bit0
  else if d.toNat ≤ p.readDetectCeiling then .read
  else .reset

/-- The legality INIT and BEGIN check (R120, R195): T ≥ 1 and both widths in 1..32. -/
def CfgReg.legal (c : CfgReg) : Bool :=
  decide (1 ≤ c.slot) && decide (1 ≤ c.p2s) && decide (c.p2s ≤ 32) && decide (1 ≤ c.s2p) && decide (c.s2p ≤ 32)

/-- `calOk(prof, sw, wr)` of R123. -/
def calOk (p : Profile) (sw wr : Nat) : Bool :=
  decide (wr ≤ p.write1Active) && decide (wr ≤ p.write1Pause) && decide (wr ≤ p.write0Active) &&
  decide (wr ≤ p.write0Pause) && decide (sw ≤ p.resetPresenceSampleDelay) && decide (sw ≤ p.resetSettle) &&
  decide (sw ≤ p.readSampleDelay) && decide (sw ≤ p.readPause)

/-- The PRI interrupt output (R244). -/
def priIrq (s : State) : Bool := (s.pri.done && s.pri.doneIe) || (s.pri.err && s.pri.errIe)

/-- The SEC interrupt output (R245); a SEC that is not there raises none (R198). -/
def secIrq (s : State) : Bool :=
  s.par.secPresent &&
    ((!s.sec.rxFifo.isEmpty && s.sec.rxIe) || (s.sec.rxOvf && s.sec.ovfIe) || (s.sec.err && s.sec.errIe))

end Sys2Proof.Machine
end

