-- ==== Sys2Proof/Machine/PriCmd.lean ====
section
/-! DEFINITION. The PRI commands (spec/41_pri_controller.md): what a command word written to `P.CMD` does at the
instant of the write, which is to be accepted or turned away (R120). The pseudocode an accepted command then runs
is the sequencer's, in PriSequencer.lean. -/

namespace Sys2Proof.Machine

/-- Acceptance of a command that has passed every check (R120): the first action comes one instant later (R68). -/
def acceptPri (c : PriCmd) (skip : Bool) (s : State) : State :=
  s.withPri { s.pri with
    busy := true
    done := false
    ready := if c = .init then false else s.pri.ready
    txSnap := if c = .write then s.pri.txData else s.pri.txSnap
    seq := .running c skip .start (s.t + 1) }

/-- The checks of R120 in their order, ILLEGAL being the decoder's. -/
def priCommand (c : PriCmd) (skip : Bool) (s : State) : State :=
  if s.pri.busy then raisePri .busy s
  else if c ≠ .init ∧ s.pri.ready = false then raisePri .notReady s
  else if c = .init ∧ s.pri.cfg.legal = false then raisePri .cfg s
  else acceptPri c skip s

/-- INIT (R120, R121). -/
def execInit (s : State) : Host.Outcome State Fault Refusal := .next (priCommand .init false s)

/-- RESET (R120, R124). -/
def execReset (s : State) : Host.Outcome State Fault Refusal := .next (priCommand .reset false s)

/-- WRITE with the reset phase (R120, R127). -/
def execWrite (s : State) : Host.Outcome State Fault Refusal := .next (priCommand .write false s)

/-- WRITE without the reset phase (R120, R127). -/
def execWriteSkip (s : State) : Host.Outcome State Fault Refusal := .next (priCommand .write true s)

/-- READ with the reset phase (R120, R128). -/
def execRead (s : State) : Host.Outcome State Fault Refusal := .next (priCommand .read false s)

/-- READ without the reset phase (R120, R128). -/
def execReadSkip (s : State) : Host.Outcome State Fault Refusal := .next (priCommand .read true s)

end Sys2Proof.Machine
end

