-- ==== Sys2Proof/Machine/SecCmd.lean ====
section
/-! DEFINITION. The SEC commands (spec/43_sec_response.md section 6). -/

namespace Sys2Proof.Machine

/-- The state an accepted BEGIN leaves (R195). -/
def acceptBegin (s : State) : State :=
  s.withSec { s.sec with
    isrState := .idle
    irqLatch := false
    isrDueAt := none
    bitIndex := 0
    acc := 0#32
    sendBuf := 0#32
    rxFifo := []
    rxOvf := false
    active := true }

/-- BEGIN (R195). -/
def execBegin (s : State) : Host.Outcome State Fault Refusal :=
  .next
    (if s.sec.pending then raiseSec .busy s
    else if s.sec.cfg.legal = false then raiseSec .cfg s
    else acceptBegin s)

/-- POP (R196): nothing happens on an empty FIFO. -/
def execPop (s : State) : Host.Outcome State Fault Refusal :=
  .next (s.withSec { s.sec with rxFifo := s.sec.rxFifo.tail })

end Sys2Proof.Machine
end

