-- ==== Sys2Proof/Machine/SecEdge.lean ====
section
/-! DEFINITION. The SEC signal classifier (spec/42_sec_classifier.md): the edge latch and the four handler cases.
A case runs after the trap entry (R161) and ends with the trap return (R251). -/

namespace Sys2Proof.Machine

/-- The edge latch (R160), evaluated when the line has changed. -/
def edgeLatch (s : State) : State :=
  if s.sec.active ∧ s.sec.irqLatch = false then
    let s' := s.withSec { s.sec with irqLatch := true }
    if s.par.guardMode = .entryGuard ∨ s.sec.pending = false then scheduleHandler s.t s'
    else s'.withSec { s'.sec with isrDueAt := none }
  else s

/-- EDGE_DROP (R162): the handler returns at once. The vector's free bits have no effect. -/
def execEdgeDrop (_isr : IsrState) (_lv : Level) (s : State) : Host.Outcome State Fault Refusal :=
  .next (handlerReturn s)

/-- EDGE_START (R163): the entry instant is recorded. -/
def execEdgeStart (s : State) : Host.Outcome State Fault Refusal :=
  .next (handlerReturn (s.withSec { s.sec with start := s.now, isrState := .timing }))

/-- EDGE_SPURIOUS (R164): ignored. -/
def execEdgeSpurious (s : State) : Host.Outcome State Fault Refusal := .next (handlerReturn s)

/-- EDGE_END (R165): the duration is published and the flag set; the level read is not tested. -/
def execEdgeEnd (_lv : Level) (s : State) : Host.Outcome State Fault Refusal :=
  .next (handlerReturn
    (s.withSec { s.sec with
      duration := s.now - s.sec.start
      pending := true
      pendSetAt := s.t
      isrState := .idle
      pollAt := s.t + s.drawn s.par.pollLatMin s.par.pollLatMax }).afterDraw)

end Sys2Proof.Machine
end

