-- ==== Sys2Proof/Machine/SecEvent.lean ====
section
/-! DEFINITION. The SEC response and accumulation logic (spec/43_sec_response.md): the start of the four branches,
which the event classes select, and the statements of the driving branches after it. -/

namespace Sys2Proof.Machine

/-- One bit taken into the accumulator at the bit position (R181). -/
def takeBit (b : Bool) (s : State) : State :=
  s.withSec { s.sec with
    acc := s.sec.acc ||| (if b then (1#32) <<< s.sec.bitIndex else 0#32)
    bitIndex := s.sec.bitIndex + 1 }

/-- The delivery of a packet whose last bit has been taken (R181, R182). -/
def deliverIfComplete (s : State) : State :=
  if s.sec.bitIndex = s.sec.cfg.p2s then deliver s else s

/-- The write-bit branch (R181): a bit beyond the packet's width is dropped. -/
def receiveBit (b : Bool) (s : State) : State :=
  clearPending (if s.sec.bitIndex < s.sec.cfg.p2s then deliverIfComplete (takeBit b s) else s)

/-- EVT_BIT1 (R181). -/
def execEvtBit1 (s : State) : Host.Outcome State Fault Refusal := .next (receiveBit true s)

/-- EVT_BIT0 (R181). -/
def execEvtBit0 (s : State) : Host.Outcome State Fault Refusal := .next (receiveBit false s)

/-- The send-buffer snapshot (R184): taken by a read request at bit position 0. -/
def snapshotSendBuf (s : State) : State :=
  if s.sec.bitIndex = 0 then s.withSec { s.sec with sendBuf := s.sec.txNext } else s

/-- The start of the read branch (R183): snapshot, then drive the bit, or nothing beyond the SEC's width. -/
def startReply (s : State) : State :=
  let s := snapshotSendBuf s
  if s.sec.bitIndex < s.sec.cfg.s2p then
    secSetDirection .output .read (.drive (packetLevel s.sec.sendBuf s.sec.bitIndex)) s
  else clearPending s

/-- EVT_READ (R183). -/
def execEvtRead (s : State) : Host.Outcome State Fault Refusal := .next (startReply s)

/-- EVT_RESET (R186): the presence pulse begins with the switch to output. -/
def execEvtReset (s : State) : Host.Outcome State Fault Refusal :=
  .next (secSetDirection .output .reset (.drive .low) s)

/-- The last act of a driving branch, after the release (R183, R186). -/
def finishBranch (b : EvtClass) (s : State) : State :=
  match b with
  | .read => clearPending (s.withSec { s.sec with bitIndex := s.sec.bitIndex + 1 })
  | .reset => clearPending (s.withSec { s.sec with bitIndex := 0, acc := 0#32 })
  | .bit1 | .bit0 => clearPending s

/-- The statements of a driving branch in the order of R187; its first is the event's own. -/
def secAct (b : EvtClass) (p : SecPoint) (s : State) : State :=
  match p with
  | .start => s
  | .drive v => secWriteLevel v b .hold s
  | .hold => secBusyWait (s.sec.prof.secHold b) b .release s
  | .release => secSetDirection .input b .finish s
  | .finish => finishBranch b s

/-- Poll and classification (R180): the branch of the event's class starts in the same instant. -/
def pollEvent (s : State) : State :=
  s.withSec { s.sec with resp := .responding (classify s.sec.prof s.sec.duration) .start s.t }

end Sys2Proof.Machine
end

