-- ==== Sys2Proof/Machine/Dispatch.lean ====
section
/-! DEFINITION. The meaning of every instruction, one arm each. -/

namespace Sys2Proof.Machine

def exec (i : Instr) (s : State) : Host.Outcome State Fault Refusal :=
  match i with
  | .init => Sys2Proof.Machine.execInit s
  | .reset => Sys2Proof.Machine.execReset s
  | .write => Sys2Proof.Machine.execWrite s
  | .writeSkip => Sys2Proof.Machine.execWriteSkip s
  | .read => Sys2Proof.Machine.execRead s
  | .readSkip => Sys2Proof.Machine.execReadSkip s
  | .secBegin => Sys2Proof.Machine.execBegin s
  | .pop => Sys2Proof.Machine.execPop s
  | .edgeDrop isr lv => Sys2Proof.Machine.execEdgeDrop isr lv s
  | .edgeStart => Sys2Proof.Machine.execEdgeStart s
  | .edgeSpurious => Sys2Proof.Machine.execEdgeSpurious s
  | .edgeEnd lv => Sys2Proof.Machine.execEdgeEnd lv s
  | .evtBit1 => Sys2Proof.Machine.execEvtBit1 s
  | .evtBit0 => Sys2Proof.Machine.execEvtBit0 s
  | .evtRead => Sys2Proof.Machine.execEvtRead s
  | .evtReset => Sys2Proof.Machine.execEvtReset s

end Sys2Proof.Machine
end

