-- ==== Sys2Proof/Machine/Bus.lean ====
section
/-! DEFINITION. The host bus (spec/20_memory.md) and the writes of the host registers (spec/10_state.md). -/

namespace Sys2Proof.Machine

/-- A write of `P.STATUS` (R23): 1 clears DONE, 1 clears ERR with LASTERR. -/
def writePriStatus (v : Word) (s : State) : State :=
  s.withPri { s.pri with
    done := s.pri.done && !v.getLsbD 3
    err := s.pri.err && !v.getLsbD 4
    lastErr := if v.getLsbD 4 then .none else s.pri.lastErr }

/-- A write of `P.CFG` (R24): refused while BUSY; else READY is cleared and the profile recomputed. -/
def writePriCfg (v : Word) (s : State) : State :=
  if s.pri.busy then raisePri .busy s
  else
    s.withPri { s.pri with
      cfg := .ofWord v
      ready := false
      prof := profile (CfgReg.ofWord v).slot }

/-- A write of `P.IE` (R28). -/
def writePriIe (v : Word) (s : State) : State :=
  s.withPri { s.pri with doneIe := v.getLsbD 0, errIe := v.getLsbD 1 }

/-- A write of `S.STATUS` (R37): 1 clears RXOVF, 1 clears ERR with LASTERR. -/
def writeSecStatus (v : Word) (s : State) : State :=
  s.withSec { s.sec with
    rxOvf := s.sec.rxOvf && !v.getLsbD 4
    err := s.sec.err && !v.getLsbD 5
    lastErr := if v.getLsbD 5 then .none else s.sec.lastErr }

/-- A write of `S.CFG` (R36): refused while an event is pending; else the handler is detached and the profile
recomputed. -/
def writeSecCfg (v : Word) (s : State) : State :=
  if s.sec.pending then raiseSec .busy s
  else
    s.withSec { s.sec with
      cfg := .ofWord v
      active := false
      irqLatch := false
      isrDueAt := none
      isrState := .idle
      prof := profile (CfgReg.ofWord v).slot }

/-- A write of `S.IE` (R41). -/
def writeSecIe (v : Word) (s : State) : State :=
  s.withSec { s.sec with rxIe := v.getLsbD 0, ovfIe := v.getLsbD 1, errIe := v.getLsbD 2 }

/-- A write of a register of bank P other than `P.CMD`; read-only and reserved ones ignore it (R44, R63). -/
def writePri (r : PriReg) (v : Word) (s : State) : State :=
  match r with
  | .status => writePriStatus v s
  | .cfg => writePriCfg v s
  | .txData => s.withPri { s.pri with txData := v }
  | .ie => writePriIe v s
  | .cmd | .rxData | .cal | .now | .reserved => s

/-- A write of a register of bank S other than `S.CMD`; read-only and reserved ones ignore it (R44, R63). -/
def writeSec (r : SecReg) (v : Word) (s : State) : State :=
  match r with
  | .status => writeSecStatus v s
  | .cfg => writeSecCfg v s
  | .txNext => s.withSec { s.sec with txNext := v }
  | .ie => writeSecIe v s
  | .cmd | .rxData | .duration | .acc | .sendBuf | .start | .now | .reserved => s

/-- A command word written to `P.CMD` (R21, R120): the decoded command runs, an illegal word raises ILLEGAL. -/
def commandPri (v : Word) (s : State) : Host.Outcome State Fault Refusal :=
  match decodePri v with
  | .ok i => exec i s
  | .error _ => .next (raisePri .illegal s)

/-- A command word written to `S.CMD` (R34, R195): the decoded command runs, an illegal word raises ILLEGAL. -/
def commandSec (v : Word) (s : State) : Host.Outcome State Fault Refusal :=
  match decodeSec v with
  | .ok i => exec i s
  | .error _ => .next (raiseSec .illegal s)

/-- `RegWrite(u, off, v)` of an aligned 32-bit access (R11, R63). -/
def regWrite (bank : Bank) (off : Nat) (v : Word) (s : State) : Host.Outcome State Fault Refusal :=
  match bank with
  | .P =>
    match priRegAt off with
    | .cmd => commandPri v s
    | r => .next (writePri r v s)
  | .S =>
    match secRegAt off with
    | .cmd => commandSec v s
    | r => .next (writeSec r v s)

/-- The bus answers with data and no error. -/
def replyData (d : Word) (s : State) : State := s.withReply { data := d, error := false }

/-- The bus error of R62: a read returns 0, a write changes nothing, no status bit is set. -/
def replyError (s : State) : State := s.withReply { data := 0#32, error := true }

/-- The target of an access. -/
def Access.target : Access → Target
  | .rd tgt _ => tgt
  | .wr tgt _ _ => tgt
  | .poll tgt _ _ => tgt

/-- The width of an access; `poll` reads whole words (R94). -/
def Access.width : Access → Width
  | .rd _ w => w
  | .wr _ w _ => w
  | .poll _ _ _ => .w32

/-- After the read of a `poll` line: unless the value read satisfies it, the line stays for the next instant
(R94). DESIGN CHOICE: where a poll shares a line with other accesses, of which R94 does not speak, the accesses after
it are performed in the same instant all the same, and the poll alone is repeated (log entry 21). -/
def afterPoll (tgt : Target) (mask value : Word) (s : State) : State :=
  if s.reply.data &&& mask = value then s else s.withProg (.poll tgt mask value :: s.prog)

/-- An access the bus carries to a register (R62, R63). -/
def carryAccess (a : Access) (bank : Bank) (off : Nat) (s : State) : Host.Outcome State Fault Refusal :=
  match a with
  | .rd _ _ => .next (replyData (regRead bank off s) s)
  | .wr _ _ v => regWrite bank off v (replyData 0#32 s)
  | .poll tgt mask value => .next (afterPoll tgt mask value (replyData (regRead bank off s) s))

/-- An access the bus answers with an error (R62). -/
def refuseAccess (a : Access) (s : State) : State :=
  match a with
  | .rd _ _ => replyError s
  | .wr _ _ _ => replyError s
  | .poll tgt mask value => afterPoll tgt mask value (replyError s)

/-- One host access (R60 to R63): it must lie in a bank, and the bank must be there (R198). -/
def performAccess (a : Access) (s : State) : Host.Outcome State Fault Refusal :=
  match locate s.par a.target with
  | none => .fault .outsideBanks
  | some (bank, off) =>
    if bank = .S ∧ s.par.secPresent = false then .refused .secAbsent
    else if busOk a.width off then carryAccess a bank off s
    else .next (refuseAccess a s)

end Sys2Proof.Machine
end

