-- ==== Sys2Proof/Machine/HostProgram.lean ====
section
/-! DEFINITION. Host programs (spec/30_encoding.md R94) and the pseudo-instructions (R95). -/

namespace Sys2Proof.Machine

/-- The accesses of this instant and the lines left for later ones (R94): a line takes one instant, `poll` every
instant up to the one that satisfies it (the access puts the line back), `idle n` takes n instants. -/
def fetchLine : List HostLine → List Access × List HostLine
  | [] => ([], [])
  | .accesses as :: rest => (as, rest)
  | .poll tgt mask value :: rest => ([.poll tgt mask value], rest)
  | .idle 0 :: rest => fetchLine rest
  | .idle (n + 1) :: rest => ([], .idle n :: rest)

/-- `wr <bank>.<REG>, v` of R94, the register by its offset. -/
def wrReg (bank : Bank) (off : Nat) (v : Word) : Access := .wr (.reg bank off) .w32 v

/-- `rd <bank>.<REG>` of R94, the register by its offset. -/
def rdReg (bank : Bank) (off : Nat) : Access := .rd (.reg bank off) .w32

/-- The value `cfg` writes for T and the two widths (R83, R95). -/
def cfgValue (T p2s s2p : Nat) : Word := BitVec.ofNat 32 (s2p * 2 ^ 24 + p2s * 2 ^ 16 + T)

/-- `cfg <bank>, T, p2s, s2p` (R95). -/
def pseudoCfg (bank : Bank) (T p2s s2p : Nat) : List Access := [wrReg bank 0x08 (cfgValue T p2s s2p)]

/-- `pri.init` (R95). -/
def pseudoPriInit : List Access := [wrReg .P 0x00 0x1#32]

/-- `pri.reset` (R95). -/
def pseudoPriReset : List Access := [wrReg .P 0x00 0x2#32]

/-- `pri.write v[, skip]` (R95): both accesses in one instant. -/
def pseudoPriWrite (v : Word) (skip : Bool) : List Access :=
  [wrReg .P 0x0C v, wrReg .P 0x00 (if skip then 0x13#32 else 0x3#32)]

/-- `pri.read [skip]` (R95). -/
def pseudoPriRead (skip : Bool) : List Access := [wrReg .P 0x00 (if skip then 0x14#32 else 0x4#32)]

/-- `pri.wait` (R95). -/
def pseudoPriWait : HostLine := .poll (.reg .P 0x04) 0x1#32 0x0#32

/-- `pri.lastpresence` (R95, R132): the read; its bit 2 is the answer. -/
def pseudoPriLastPresence : List Access := [rdReg .P 0x04]

/-- `sec.begin` (R95). -/
def pseudoSecBegin : List Access := [wrReg .S 0x00 0x1#32]

/-- `sec.pop` (R95). -/
def pseudoSecPop : List Access := [wrReg .S 0x00 0x2#32]

/-- `sec.send v` (R95). -/
def pseudoSecSend (v : Word) : List Access := [wrReg .S 0x0C v]

/-- `sec.waitrx` (R95). -/
def pseudoSecWaitRx : HostLine := .poll (.reg .S 0x04) 0x8#32 0x8#32

end Sys2Proof.Machine
end

