-- ==== Sys2Proof/Machine/Line.lean ====
section
/-! DEFINITION. The pads, the level arbiter and the first two phases of an instant (spec/44_gpio_line.md). -/

namespace Sys2Proof.Machine

/-- A pad effect taking place (R212, R213); `SetDirection(IN)` also sets the latch HIGH. -/
def applyEffect (e : PadEffect) (p : Pad) : Pad :=
  match e with
  | .setDirection .input => { dir := .input, latch := .high }
  | .setDirection .output => { p with dir := .output }
  | .writeLevel v => { p with latch := v }

/-- The pad after the effect that is due at instant `t`, if one is. -/
def padAfter (t : Nat) (p : Pad) : Option PadDue → Pad
  | some d => if d.due = t then applyEffect d.effect p else p
  | none => p

/-- The effect still scheduled after instant `t`'s pad effects. -/
def dueAfter (t : Nat) : Option PadDue → Option PadDue
  | some d => if d.due = t then none else some d
  | none => none

/-- Phase 1 for the PRI pad. -/
def priPads (s : State) : State :=
  s.withPri { s.pri with pad := padAfter s.t s.pri.pad s.pri.padDue, padDue := dueAfter s.t s.pri.padDue }

/-- Phase 1 for the SEC pad; without a SEC unit there is none (R198). -/
def secPads (s : State) : State :=
  if s.par.secPresent then
    s.withSec { s.sec with pad := padAfter s.t s.sec.pad s.sec.padDue, padDue := dueAfter s.t s.sec.padDue }
  else s

/-- Phase 1 of an instant: pad effects (R210). -/
def padsPhase (s : State) : State := (secPads (priPads s)).withPhase .line

/-- `drv(u)` of R211. -/
def Pad.drive (p : Pad) : Option Level :=
  match p.dir with
  | .output => some p.latch
  | .input => none

/-- `drv(S)`: the pad of a SEC that is not there is IN at every instant (R50). -/
def secDrive (s : State) : Option Level := if s.par.secPresent then s.sec.pad.drive else none

/-- Line resolution (R211). Opposite levels are contention: the level is drawn afresh and `L.contended` set. -/
def resolveLine (s : State) : State :=
  match s.pri.pad.drive, secDrive s with
  | none, none => { s with line := .high }
  | some a, none => { s with line := a }
  | none, some a => { s with line := a }
  | some a, some b =>
    if a = b then { s with line := a }
    else { s with line := Config.drawLevel s.draws, contended := true }.afterDraw

/-- Phase 2 of an instant: line and edges (R210). -/
def linePhase (s : State) : State :=
  let s := resolveLine s
  let s := if s.par.secPresent ∧ s.line ≠ s.linePrev then edgeLatch s else s
  { s with linePrev := s.line }.withPhase .handler

end Sys2Proof.Machine
end

