-- ==== Sys2Proof/Machine/PriSequencer.lean ====
section
/-! DEFINITION. The PRI sequencer (spec/41_pri_controller.md): the pseudocode of INIT, of the reset phase, of the
write slot and of the read slot, one statement group at a time. Each group runs at the instant the sequencer
reached it and ends with a timed primitive, a passage to another statement, or the completion of the command. -/

namespace Sys2Proof.Machine

/-- The end of INIT (R121, R123): the two quotients are written, then READY or the CAL error, then completion. -/
def finishInit (s : State) : State :=
  let sw := (s.pri.calT1 - s.pri.calT0).toNat / s.par.calNSwitch
  let wr := (s.pri.calT2 - s.pri.calT1).toNat / s.par.calNWrite
  let s := s.withPri { s.pri with swLat := sw, wrLat := wr }
  priComplete
    (if calOk s.pri.prof sw wr then s.withPri { s.pri with ready := true } else raisePri .cal s)

/-- The statements of INIT after its first `SetDirection(P, OUT)` (R121). -/
def calAct (c : PriCmd) (skip : Bool) (p : CalPoint) (s : State) : State :=
  match p with
  | .firstRead => priGoto c skip (.cal (.switch 0)) (s.withPri { s.pri with calT0 := s.now })
  | .switch k =>
    if k < s.par.calNSwitch then
      priSetDirection (if k % 2 = 0 then .input else .output) c skip (.cal (.switchWait k)) s
    else priGoto c skip (.cal (.write 0)) (s.withPri { s.pri with calT1 := s.now })
  | .switchWait k => priBusyWait s.par.calLoopOvh c skip (.cal (.switch (k + 1))) s
  | .write k =>
    if k < s.par.calNWrite then priWriteLevel .high c skip (.cal (.writeWait k)) s
    else finishInit (s.withPri { s.pri with calT2 := s.now })
  | .writeWait k => priBusyWait s.par.calLoopOvh c skip (.cal (.write (k + 1))) s

/-- What follows the reset phase (R124, R127, R128): RESET is over; WRITE and READ go on only with presence, and
READ without it returns the sentinel (R133). INIT has no reset phase. -/
def afterReset (c : PriCmd) (skip : Bool) (s : State) : State :=
  match c with
  | .init => priComplete s
  | .reset => priComplete s
  | .write => if s.pri.presence then priGoto c skip (.wr 0 .head) s else priComplete s
  | .read =>
    if s.pri.presence then priGoto c skip (.rd 0 .head) s
    else priComplete (s.withPri { s.pri with rxData := 0xFFFFFFFF#32 })

/-- The statements of `resetPhase()` (R125). -/
def resetAct (c : PriCmd) (skip : Bool) (p : ResetPoint) (s : State) : State :=
  match p with
  | .low => priWriteLevel .low c skip (.rst .hold) s
  | .hold => priBusyWait s.pri.prof.resetSignal c skip (.rst .release) s
  | .release => priSetDirection .input c skip (.rst .wait) s
  | .wait => priBusyWait (s.pri.prof.resetPresenceSampleDelay - s.pri.swLat) c skip (.rst .sample) s
  | .sample =>
    priReadLevel c skip (.rst .drive) (s.withPri { s.pri with presence := decide (s.line = .low) })
  | .drive => priSetDirection .output c skip (.rst .settle) s
  | .settle => priBusyWait (s.pri.prof.resetSettle - s.pri.swLat) c skip (.rst .finish) s
  | .finish => afterReset c skip s

/-- The loop of WRITE and the statements of `writeBit(P.txSnap[i])` (R126, R127). -/
def writeAct (c : PriCmd) (skip : Bool) (i : Nat) (p : WritePoint) (s : State) : State :=
  let b := s.pri.txSnap.getLsbD i
  match p with
  | .head =>
    if i < s.pri.cfg.p2s then
      priWriteLevel .low c skip (.wr i .hold) (s.withPri { s.pri with slot := i })
    else priComplete s
  | .hold => priBusyWait (s.pri.prof.writeActive b - s.pri.wrLat) c skip (.wr i .high) s
  | .high => priWriteLevel .high c skip (.wr i .pause) s
  | .pause => priBusyWait (s.pri.prof.writePause b - s.pri.wrLat) c skip (.wr (i + 1) .head) s

/-- The loop of READ and the statements of `readBit(i)` (R128, R129). -/
def readAct (c : PriCmd) (skip : Bool) (i : Nat) (p : ReadPoint) (s : State) : State :=
  match p with
  | .head =>
    if i < s.pri.cfg.s2p then
      priWriteLevel .low c skip (.rd i .hold) (s.withPri { s.pri with slot := i })
    else priComplete (s.withPri { s.pri with rxData := s.pri.rxAcc })
  | .hold => priBusyWait s.pri.prof.readInitActive c skip (.rd i .release) s
  | .release => priSetDirection .input c skip (.rd i .wait) s
  | .wait => priBusyWait (s.pri.prof.readSampleDelay - s.pri.swLat) c skip (.rd i .sample) s
  | .sample => priReadLevel c skip (.rd i (.store s.line)) s
  | .store v =>
    priSetDirection .output c skip (.rd i .settle)
      (s.withPri { s.pri with rxAcc := setBit s.pri.rxAcc i v.toBool })
  | .settle => priBusyWait (s.pri.prof.readPause - s.pri.swLat) c skip (.rd (i + 1) .head) s

/-- The first action of a command (R121, R124, R127, R128). -/
def startAct (c : PriCmd) (skip : Bool) (s : State) : State :=
  match c with
  | .init => priSetDirection .output c skip (.cal .firstRead) s
  | .reset => priGoto c skip (.rst .low) s
  | .write => priGoto c skip (if skip then .wr 0 .head else .rst .low) s
  | .read =>
    priGoto c skip (if skip then .rd 0 .head else .rst .low) (s.withPri { s.pri with rxAcc := 0#32 })

/-- The sequencer's action at a program point (R55). -/
def priAct (c : PriCmd) (skip : Bool) (p : PriPoint) (s : State) : State :=
  match p with
  | .start => startAct c skip s
  | .cal q => calAct c skip q s
  | .rst q => resetAct c skip q s
  | .wr i q => writeAct c skip i q s
  | .rd i q => readAct c skip i q s

end Sys2Proof.Machine
end

