-- ==== Sys2Proof/Machine/Schedule.lean ====
section
/-! DEFINITION. The instant schedule (spec/44_gpio_line.md R210): what the next step of each phase does, and where
an instruction is fetched: from a word on the host bus, from the SEC_EDGE vector at handler entry, from the event
class at the start of a response branch. -/

namespace Sys2Proof.Machine

/-- The SEC_EDGE vector at handler entry (R88, R161). -/
def vectorAtEntry (s : State) : BitVec 3 := edgeVector s.sec.pending s.sec.isrState s.line

/-- Phase 3 (R161): a handler entry that is due runs the case of its vector. -/
def handlerPhase (s : State) : Host.Outcome State Fault Refusal :=
  if s.par.secPresent ∧ s.sec.isrDueAt = some s.t then exec (decodeEdge (vectorAtEntry s)) (handlerEntry s)
  else .next (s.withPhase .sec)

/-- Phase 4, the SEC main loop (R210): every action due at this instant, one a step; then the PRI sequencer's
turn. -/
def secPhase (s : State) : Host.Outcome State Fault Refusal :=
  if s.par.secPresent = false then .next (s.withPhase .pri)
  else
    match s.sec.resp with
    | .idle =>
      if s.sec.pending ∧ s.sec.pollAt = s.t then .next (pollEvent s) else .next (s.withPhase .pri)
    | .responding b p due =>
      if due = s.t then
        match p with
        | .start => exec (decodeEvt b.code) s
        | p => .next (secAct b p s)
      else .next (s.withPhase .pri)

/-- The host's turn begins (R94): the accesses of this instant are fetched from its program. -/
def enterHost (s : State) : State :=
  ((s.withBus (fetchLine s.prog).1).withProg (fetchLine s.prog).2).withPhase .host

/-- Phase 4, the PRI sequencer (R210): every action due at this instant, one a step; then the host's turn. -/
def priPhase (s : State) : State :=
  match s.pri.seq with
  | .idle => enterHost s
  | .running c skip p due => if due = s.t then priAct c skip p s else enterHost s

/-- The end of an instant (R210, R220): time advances by exactly 1. -/
def nextInstant (s : State) : State := { s with t := s.t + 1 }.withPhase .pads

/-- Phase 5 (R67, R210): the accesses of this instant in their order, one a step; then the instant is over. -/
def hostPhase (s : State) : Host.Outcome State Fault Refusal :=
  match s.bus with
  | [] => .next (nextInstant s)
  | a :: rest => performAccess a (s.withBus rest)

/-- What the next step of the current phase does. -/
def phaseStep (s : State) : Host.Outcome State Fault Refusal :=
  match s.phase with
  | .pads => .next (padsPhase s)
  | .line => .next (linePhase s)
  | .handler => handlerPhase s
  | .sec => secPhase s
  | .pri => .next (priPhase s)
  | .host => hostPhase s

/-- `s` with a code word standing where its format is fetched next, so that the next step runs it. -/
def placeCode (c : Code) (s : State) : State :=
  match c.fmt with
  | .priCmd => (s.withBus (wrReg .P 0x00 c.bits :: s.bus)).withPhase .host
  | .secCmd =>
    { ((s.withBus (wrReg .S 0x00 c.bits :: s.bus)).withPhase .host) with
      par := { s.par with secPresent := true } }
  | .secEdge =>
    { ((s.withSec { s.sec with
        pending := c.bits.getLsbD 2
        isrState := .ofBool (c.bits.getLsbD 1)
        isrDueAt := some s.t }).withPhase .handler) with
      line := .ofBool (c.bits.getLsbD 0)
      par := { s.par with secPresent := true } }
  | .secEvt =>
    { ((s.withSec { s.sec with
        resp := .responding (.ofCode (c.bits.extractLsb' 0 2)) .start s.t }).withPhase .sec) with
      par := { s.par with secPresent := true } }

end Sys2Proof.Machine
end

