-- ==== Sys2Proof/Machine/Step.lean ====
section
/-! DEFINITION. One step of the link: one action of the current phase of the current instant (log entry 1). -/

namespace Sys2Proof.Machine

/-- One step. -/
def step (s : State) : Host.Outcome State Fault Refusal := phaseStep s

/-- `s` with the instruction of a row of the opcode table standing where the next step fetches it. A command
word is the host's next write of `P.CMD`; a vector is the one the SEC unit forms next (log entry 3). -/
def State.withFetchWord (s : State) (nbits w : Nat) : State :=
  match tableCode nbits w with
  | some c => placeCode c s
  | none => s

end Sys2Proof.Machine
end

