-- ==== Sys2Proof/Safety.lean ====
section
/-! DEFINITION. The terms claims use: the invariants of the link (spec/10_state.md R56 to R58 and the prose of the
other files), quiescence (R296), the timing conditions (R280 to R284) and runs. -/

namespace Sys2Proof.Machine

/-! ## Invariants of the SEC unit -/

/-- What holds of the SEC unit in every state of a run (its pad apart: PadInv). -/
structure SecInv (s : State) : Prop where
  /-- R56: `S.pending = 1` implies `S.isrState = IDLE`. -/
  pending_idle : s.sec.pending = true → s.sec.isrState = .idle
  /-- R36, R195: a unit that is not ACTIVE has no request, no entry due and no pulse in progress. -/
  inactive_quiet : s.sec.active = false →
    s.sec.isrState = .idle ∧ s.sec.irqLatch = false ∧ s.sec.isrDueAt = none
  /-- R36, R189: an event is pending only in an ACTIVE unit. -/
  pending_active : s.sec.pending = true → s.sec.active = true
  /-- R195: an ACTIVE unit has a legal configuration. -/
  active_legal : s.sec.active = true → s.sec.cfg.legal = true
  /-- R189: while a branch runs the flag stays set. -/
  responding_pending : s.sec.resp ≠ .idle → s.sec.pending = true
  /-- R250: an entry that is due has its request latched. -/
  due_latched : s.sec.isrDueAt ≠ none → s.sec.irqLatch = true
  /-- R166: with the source disabled while the flag is set, no entry is due then. -/
  source_disabled : s.par.guardMode = .sourceDisable → s.sec.pending = true → s.sec.isrDueAt = none
  /-- R160, R167: a latched request is due, or deferred until the flag is cleared. -/
  latched_due : s.sec.irqLatch = true → s.sec.isrDueAt = none →
    s.par.guardMode = .sourceDisable ∧ s.sec.pending = true
  /-- R183: a reply under way is for a bit below the SEC's width. -/
  reply_in_width : ∀ p due, s.sec.resp = .responding .read p due → p ≠ .start → s.sec.bitIndex < s.sec.cfg.s2p
  /-- R187: only the read and reset branches drive. -/
  branch_drives : ∀ b p due, s.sec.resp = .responding b p due → p ≠ .start → b = .read ∨ b = .reset
  /-- R57: `S.bitIndex ≤ 32`. -/
  bitIndex_le : s.sec.bitIndex ≤ 32
  /-- R57: every bit of `S.acc` at a position ≥ `S.bitIndex` is 0. -/
  acc_above : ∀ k, s.sec.bitIndex ≤ k → s.sec.acc.getLsbD k = false
  /-- R48: the FIFO holds at most `RX_FIFO_DEPTH` packets. -/
  fifo_le : s.sec.rxFifo.length ≤ s.par.rxFifoDepth
  /-- R50, R103: the profile is the one of the configured T. -/
  prof_eq : s.sec.prof = profile s.sec.cfg.slot

/-! ## Invariants of the PRI unit -/

/-- The calibration loops run no further than their counts (R121). -/
def CalPoint.bounded (p : Params) : CalPoint → Prop
  | .firstRead => True
  | .switch k => k ≤ p.calNSwitch
  | .switchWait k => k < p.calNSwitch
  | .write k => k ≤ p.calNWrite
  | .writeWait k => k < p.calNWrite

/-- Which program points a command can be at (R121, R124, R127, R128), with its loops' bounds; a bit slot follows a
reset phase only with presence (R133). -/
def PriPoint.okFor (c : PriCmd) (skip : Bool) (s : State) : PriPoint → Prop
  | .start => skip = true → c = .write ∨ c = .read
  | .cal q => c = .init ∧ q.bounded s.par
  | .rst _ => c ≠ .init ∧ skip = false
  | .wr i q =>
    c = .write ∧ i ≤ s.pri.cfg.p2s ∧ (q ≠ .head → i < s.pri.cfg.p2s) ∧ (skip = true ∨ s.pri.presence = true)
  | .rd i q =>
    c = .read ∧ i ≤ s.pri.cfg.s2p ∧ (q ≠ .head → i < s.pri.cfg.s2p) ∧ (skip = true ∨ s.pri.presence = true)

/-- How many bits of the packet READ has stored at a program point (R128, R129). -/
def PriPoint.filled : PriPoint → Nat
  | .rd i .settle => i + 1
  | .rd i _ => i
  | .start | .cal _ | .rst _ | .wr _ _ => 0

/-- What holds of the PRI unit in every state of a run (its pad apart: PadInv). -/
structure PriInv (s : State) : Prop where
  /-- R22: BUSY is 1 from the acceptance of a command until its completion. -/
  busy_iff : s.pri.busy = true ↔ s.pri.seq ≠ .idle
  /-- R32, R103: the profile is the one of the configured T. -/
  prof_eq : s.pri.prof = profile s.pri.cfg.slot
  /-- R123, R106: in a READY unit no compensated delay is negative. -/
  ready_ok : s.pri.ready = true → s.pri.cfg.legal = true ∧ calOk s.pri.prof s.pri.swLat s.pri.wrLat = true
  /-- R120: a command runs under a legal configuration, and only INIT runs in a unit that is not READY. -/
  running_ok : ∀ c skip p due, s.pri.seq = .running c skip p due →
    s.pri.cfg.legal = true ∧ (s.pri.ready = true ↔ c ≠ .init)
  /-- R121, R124, R127, R128, R133: the program point is one of the command's. -/
  point_ok : ∀ c skip p due, s.pri.seq = .running c skip p due → p.okFor c skip s
  /-- R31: the bit slot in progress. -/
  slot_le : s.pri.slot ≤ 32
  /-- R66, R128: bits of the packet being read that no slot has filled are 0. -/
  rxAcc_above : ∀ skip p due, s.pri.seq = .running .read skip p due → p ≠ .start →
    ∀ k, p.filled ≤ k → s.pri.rxAcc.getLsbD k = false

/-! ## No action is passed by -/

/-- The order of the phases in an instant (R210). -/
def Phase.index : Phase → Nat
  | .pads => 0
  | .line => 1
  | .handler => 2
  | .sec => 3
  | .pri => 4
  | .host => 5

/-- An action that phase `ph` of instant `due` takes still lies ahead. -/
def State.ahead (s : State) (ph : Phase) (due : Nat) : Prop :=
  s.t < due ∨ (s.t = due ∧ s.phase.index ≤ ph.index)

/-- R258: every next action of a unit is at a fixed instant that has not passed. -/
structure TimeInv (s : State) : Prop where
  sequencer : ∀ c skip p due, s.pri.seq = .running c skip p due → s.ahead .pri due
  priPad : ∀ d, s.pri.padDue = some d → s.ahead .pads d.due
  response : s.par.secPresent = true → ∀ b p due, s.sec.resp = .responding b p due → s.ahead .sec due
  secPad : s.par.secPresent = true → ∀ d, s.sec.padDue = some d → s.ahead .pads d.due
  handler : s.par.secPresent = true → ∀ due, s.sec.isrDueAt = some due → s.ahead .handler due
  poll : s.par.secPresent = true → s.sec.pending = true → s.sec.resp = .idle → s.ahead .sec s.sec.pollAt

/-! ## The pads -/

/-- The pad once the scheduled effect, if there is one, has taken place. -/
def padSoon (p : Pad) : Option PadDue → Pad
  | some d => applyEffect d.effect p
  | none => p

/-- A pad that drives HIGH. -/
def Pad.drivesHigh : Pad := { dir := .output, latch := .high }

/-- A pad that drives LOW. -/
def Pad.drivesLow : Pad := { dir := .output, latch := .low }

/-- A released pad: input with pull-up. -/
def Pad.released : Pad := { dir := .input, latch := .high }

/-- The PRI pad at each program point, as the pseudocode leaves it (R121, R125, R126, R129). -/
def PriPoint.pad (p : PriPoint) : Pad :=
  match p with
  | .start => .drivesHigh
  | .cal .firstRead => .drivesHigh
  | .cal (.switch k) => if k % 2 = 0 then .drivesHigh else .released
  | .cal (.switchWait k) => if k % 2 = 0 then .released else .drivesHigh
  | .cal (.write _) => .drivesHigh
  | .cal (.writeWait _) => .drivesHigh
  | .rst .low => .drivesHigh
  | .rst .hold => .drivesLow
  | .rst .release => .drivesLow
  | .rst .wait => .released
  | .rst .sample => .released
  | .rst .drive => .released
  | .rst .settle => .drivesHigh
  | .rst .finish => .drivesHigh
  | .wr _ .head => .drivesHigh
  | .wr _ .hold => .drivesLow
  | .wr _ .high => .drivesLow
  | .wr _ .pause => .drivesHigh
  | .rd _ .head => .drivesHigh
  | .rd _ .hold => .drivesLow
  | .rd _ .release => .drivesLow
  | .rd _ .wait => .released
  | .rd _ .sample => .released
  | .rd _ (.store _) => .released
  | .rd _ .settle => .drivesHigh

/-- The SEC pad at each point of a driving branch (R183, R186, R187); `hold` and `release` have it OUT. -/
def SecPoint.padOk (q : SecPoint) (p : Pad) : Prop :=
  match q with
  | .start => p = .released
  | .drive _ => p = .drivesHigh
  | .hold => p.dir = .output
  | .release => p.dir = .output
  | .finish => p = .released

/-- What holds of the two pads in every state of a run. -/
structure PadInv (s : State) : Prop where
  /-- R58: the PRI's scheduled pad effect belongs to its one outstanding primitive. -/
  pri_outstanding : ∀ d, s.pri.padDue = some d → ∃ c skip p, s.pri.seq = .running c skip p d.due
  /-- R58: the SEC's scheduled pad effect belongs to its one outstanding primitive. -/
  sec_outstanding : ∀ d, s.sec.padDue = some d → ∃ b p, s.sec.resp = .responding b p d.due
  /-- D38, R274: between commands the PRI pad drives HIGH; before the first INIT it is released. -/
  pri_idle : s.pri.seq = .idle →
    s.pri.pad = .drivesHigh ∨ (s.pri.ready = false ∧ s.pri.pad = .released)
  /-- R121, R274: an INIT may start from the released pad of reset. -/
  pri_start : ∀ c skip due, s.pri.seq = .running c skip .start due →
    s.pri.padDue = none ∧ (s.pri.pad = .drivesHigh ∨ (c = .init ∧ s.pri.pad = .released))
  /-- R134: at every other point the pad is where the pseudocode has put it. -/
  pri_running : ∀ c skip p due, s.pri.seq = .running c skip p due → p ≠ .start →
    padSoon s.pri.pad s.pri.padDue = p.pad
  /-- R195: outside a branch the SEC pad is IN. -/
  sec_idle : s.sec.resp = .idle → s.sec.pad = .released ∧ s.sec.padDue = none
  /-- R187: at each point of a branch the SEC pad is where the pseudocode has put it. -/
  sec_running : ∀ b p due, s.sec.resp = .responding b p due → p.padOk (padSoon s.sec.pad s.sec.padDue)

/-! ## The line -/

/-- The level the two pads give the line, if they do not contend (R211). -/
def settledLevel (s : State) : Option Level :=
  match s.pri.pad.drive, secDrive s with
  | none, none => some .high
  | some a, none => some a
  | none, some a => some a
  | some a, some b => if a = b then some a else none

/-- R51, R210: from phase 3 of an instant on, the line is what the pads give it; `linePrev` is its latest
settled level. -/
structure LineInv (s : State) : Prop where
  prev_eq : s.linePrev = s.line
  settled : 2 ≤ s.phase.index → ∀ lv, settledLevel s = some lv → s.line = lv
  bus_only_in_host : s.phase ≠ .host → s.bus = []

/-! ## Calibration -/

/-- One iteration of the switch loop lasts this long (R122). -/
def switchCost (p : Params) : Nat := p.priLatSwitch + p.calLoopOvh

/-- One iteration of the write loop lasts this long (R122). -/
def writeCost (p : Params) : Nat := p.priLatWrite + p.calLoopOvh

/-- Both loops end before the timer has gone round once (R221). -/
def calFits (p : Params) : Prop :=
  p.calNSwitch * switchCost p < 2 ^ 32 ∧ p.calNWrite * writeCost p < 2 ^ 32

/-- Where the calibration loops stand, in timer readings (R121), and what INIT measures (R122). -/
structure CalInv (s : State) : Prop where
  in_switch : ∀ c skip k due, s.pri.seq = .running c skip (.cal (.switch k)) due →
    k ≤ s.par.calNSwitch ∧ BitVec.ofNat 32 due = s.pri.calT0 + BitVec.ofNat 32 (k * switchCost s.par)
  in_switchWait : ∀ c skip k due, s.pri.seq = .running c skip (.cal (.switchWait k)) due →
    k < s.par.calNSwitch ∧
    BitVec.ofNat 32 due = s.pri.calT0 + BitVec.ofNat 32 (k * switchCost s.par + s.par.priLatSwitch)
  in_write : ∀ c skip k due, s.pri.seq = .running c skip (.cal (.write k)) due →
    k ≤ s.par.calNWrite ∧
    s.pri.calT1 = s.pri.calT0 + BitVec.ofNat 32 (s.par.calNSwitch * switchCost s.par) ∧
    BitVec.ofNat 32 due = s.pri.calT1 + BitVec.ofNat 32 (k * writeCost s.par)
  in_writeWait : ∀ c skip k due, s.pri.seq = .running c skip (.cal (.writeWait k)) due →
    k < s.par.calNWrite ∧
    s.pri.calT1 = s.pri.calT0 + BitVec.ofNat 32 (s.par.calNSwitch * switchCost s.par) ∧
    BitVec.ofNat 32 due = s.pri.calT1 + BitVec.ofNat 32 (k * writeCost s.par + s.par.priLatWrite)
  measured : s.pri.ready = true → s.pri.swLat = switchCost s.par ∧ s.pri.wrLat = writeCost s.par

/-! ## Durations of commands and responses -/

/-- The sum of the first `n` values of `f`. -/
def sumTo (f : Nat → Nat) : Nat → Nat
  | 0 => 0
  | n + 1 => sumTo f n + f n

/-- The duration of INIT's loops and of the switch before them (R135). -/
def calTime (p : Params) : Nat :=
  p.priLatSwitch + p.calNSwitch * switchCost p + p.calNWrite * writeCost p

/-- The duration of a reset phase (R125). -/
def resetPhaseTime (p : Params) (u : PriUnit) : Nat :=
  p.priLatWrite + u.prof.resetSignal + p.priLatSwitch + (u.prof.resetPresenceSampleDelay - u.swLat) +
    p.priLatRead + p.priLatSwitch + (u.prof.resetSettle - u.swLat)

/-- The duration of the write slot of bit `i` of the packet being sent (R126). -/
def writeSlotTime (p : Params) (u : PriUnit) (i : Nat) : Nat :=
  p.priLatWrite + (u.prof.writeActive (u.txSnap.getLsbD i) - u.wrLat) + p.priLatWrite +
    (u.prof.writePause (u.txSnap.getLsbD i) - u.wrLat)

/-- The duration of a read slot (R129). -/
def readSlotTime (p : Params) (u : PriUnit) : Nat :=
  p.priLatWrite + u.prof.readInitActive + p.priLatSwitch + (u.prof.readSampleDelay - u.swLat) +
    p.priLatRead + p.priLatSwitch + (u.prof.readPause - u.swLat)

/-- The time from a command's first action to a point of INIT (R121). -/
def CalPoint.elapsed (p : Params) : CalPoint → Nat
  | .firstRead => p.priLatSwitch
  | .switch k => p.priLatSwitch + k * switchCost p
  | .switchWait k => p.priLatSwitch + k * switchCost p + p.priLatSwitch
  | .write k => p.priLatSwitch + p.calNSwitch * switchCost p + k * writeCost p
  | .writeWait k => p.priLatSwitch + p.calNSwitch * switchCost p + k * writeCost p + p.priLatWrite

/-- The time from the start of a reset phase to a point of it (R125). -/
def ResetPoint.elapsed (p : Params) (u : PriUnit) : ResetPoint → Nat
  | .low => 0
  | .hold => p.priLatWrite
  | .release => p.priLatWrite + u.prof.resetSignal
  | .wait => p.priLatWrite + u.prof.resetSignal + p.priLatSwitch
  | .sample =>
    p.priLatWrite + u.prof.resetSignal + p.priLatSwitch + (u.prof.resetPresenceSampleDelay - u.swLat)
  | .drive =>
    p.priLatWrite + u.prof.resetSignal + p.priLatSwitch + (u.prof.resetPresenceSampleDelay - u.swLat) +
      p.priLatRead
  | .settle =>
    p.priLatWrite + u.prof.resetSignal + p.priLatSwitch + (u.prof.resetPresenceSampleDelay - u.swLat) +
      p.priLatRead + p.priLatSwitch
  | .finish => resetPhaseTime p u

/-- The time from the start of write slot `i` to a point of it (R126). -/
def WritePoint.elapsed (p : Params) (u : PriUnit) (i : Nat) : WritePoint → Nat
  | .head => 0
  | .hold => p.priLatWrite
  | .high => p.priLatWrite + (u.prof.writeActive (u.txSnap.getLsbD i) - u.wrLat)
  | .pause => p.priLatWrite + (u.prof.writeActive (u.txSnap.getLsbD i) - u.wrLat) + p.priLatWrite

/-- The time from the start of a read slot to a point of it (R129). -/
def ReadPoint.elapsed (p : Params) (u : PriUnit) : ReadPoint → Nat
  | .head => 0
  | .hold => p.priLatWrite
  | .release => p.priLatWrite + u.prof.readInitActive
  | .wait => p.priLatWrite + u.prof.readInitActive + p.priLatSwitch
  | .sample => p.priLatWrite + u.prof.readInitActive + p.priLatSwitch + (u.prof.readSampleDelay - u.swLat)
  | .store _ =>
    p.priLatWrite + u.prof.readInitActive + p.priLatSwitch + (u.prof.readSampleDelay - u.swLat) + p.priLatRead
  | .settle =>
    p.priLatWrite + u.prof.readInitActive + p.priLatSwitch + (u.prof.readSampleDelay - u.swLat) +
      p.priLatRead + p.priLatSwitch

/-- The time a command that skips the reset phase does not spend in it (R127, R128). -/
def leadTime (p : Params) (u : PriUnit) (skip : Bool) : Nat := if skip then 0 else resetPhaseTime p u

/-- The time from a command's first action to a program point. -/
def PriPoint.elapsed (p : Params) (u : PriUnit) (skip : Bool) : PriPoint → Nat
  | .start => 0
  | .cal q => q.elapsed p
  | .rst q => q.elapsed p u
  | .wr i q => leadTime p u skip + sumTo (writeSlotTime p u) i + q.elapsed p u i
  | .rd i q => leadTime p u skip + i * readSlotTime p u + q.elapsed p u

/-- The command that was accepted at instant `a` is where its statements' durations have brought it. -/
def ClockInv (a : Nat) (s : State) : Prop :=
  ∀ c skip p due, s.pri.seq = .running c skip p due → due = a + 1 + p.elapsed s.par s.pri skip

/-- The time from a command's first action to its completion (R135); a WRITE or READ that has sampled no presence
has no slots. -/
def commandTime (p : Params) (u : PriUnit) (c : PriCmd) (skip : Bool) : Nat :=
  match c with
  | .init => calTime p
  | .reset => resetPhaseTime p u
  | .write =>
    leadTime p u skip + (if skip || u.presence then sumTo (writeSlotTime p u) u.cfg.p2s else 0)
  | .read => leadTime p u skip + (if skip || u.presence then u.cfg.s2p * readSlotTime p u else 0)

/-- The time from classification to a point of a response branch (R187). -/
def SecPoint.elapsed (p : Params) (u : SecUnit) (b : EvtClass) : SecPoint → Nat
  | .start => 0
  | .drive _ => p.secLatSwitch
  | .hold => p.secLatSwitch + p.secLatWrite
  | .release => p.secLatSwitch + p.secLatWrite + u.prof.secHold b
  | .finish => 2 * p.secLatSwitch + p.secLatWrite + u.prof.secHold b

/-- The response to the event classified at instant `c` is where its statements' durations have brought it. -/
def RespClock (c : Nat) (s : State) : Prop :=
  ∀ b p due, s.sec.resp = .responding b p due → due = c + p.elapsed s.par s.sec b

/-- The time from classification to the clear (R190). -/
def responseTime (p : Params) (u : SecUnit) : EvtClass → Nat
  | .bit1 | .bit0 => 0
  | .read => if u.bitIndex < u.cfg.s2p then 2 * p.secLatSwitch + p.secLatWrite + u.prof.readReplyHold else 0
  | .reset => 2 * p.secLatSwitch + p.secLatWrite + u.prof.resetPresence

/-! ## Turns: what a step is about to do -/

/-- The host performs `a`, which addresses the register at `off` of a bank that is there; `rest` comes after it. -/
structure HostTurn (s : State) (a : Access) (rest : List Access) (bank : Bank) (off : Nat) : Prop where
  phase : s.phase = .host
  bus : s.bus = a :: rest
  located : locate s.par a.target = some (bank, off)
  present : bank = .S → s.par.secPresent = true

/-- The PRI sequencer takes the statement at point `p`. -/
def PriTurn (s : State) (c : PriCmd) (skip : Bool) (p : PriPoint) : Prop :=
  s.phase = .pri ∧ s.pri.seq = .running c skip p s.t

/-- The SEC main loop takes the statement at point `p`. -/
def SecTurn (s : State) (b : EvtClass) (p : SecPoint) : Prop :=
  s.phase = .sec ∧ s.par.secPresent = true ∧ s.sec.resp = .responding b p s.t

/-- The SEC main loop has no action due: no poll, and no statement of a branch (R210). -/
def SecWaits (s : State) : Prop :=
  s.phase = .sec ∧ (s.par.secPresent = true →
    (s.sec.resp = .idle → s.sec.pending = true → s.sec.pollAt ≠ s.t) ∧
    ∀ b p due, s.sec.resp = .responding b p due → due ≠ s.t)

/-- The PRI sequencer has no action due: it is IDLE, or its next action comes at another instant (R210). -/
def PriWaits (s : State) : Prop :=
  s.phase = .pri ∧ ∀ c skip p due, s.pri.seq = .running c skip p due → due ≠ s.t

/-- The configuration fields INIT and BEGIN accept (R120, R195). -/
abbrev CfgLegal (c : CfgReg) : Prop := 1 ≤ c.slot ∧ 1 ≤ c.p2s ∧ c.p2s ≤ 32 ∧ 1 ≤ c.s2p ∧ c.s2p ≤ 32

/-! ## Illegal command words (R90) -/

/-- The illegal PRI command words. -/
def IllegalPri (w : Word) : Prop :=
  (opField w).toNat = 0 ∨ 5 ≤ (opField w).toNat ∨ w.extractLsb' 5 27 ≠ 0#27 ∨
  (w.getLsbD 4 = true ∧ ((opField w).toNat = 1 ∨ (opField w).toNat = 2))

/-- The illegal SEC command words. -/
def IllegalSec (w : Word) : Prop :=
  (opField w).toNat = 0 ∨ 3 ≤ (opField w).toNat ∨ w.extractLsb' 4 28 ≠ 0#28

/-! ## Write-bit events one after another (R191) -/

/-- The event of a write bit. -/
def bitEvent (b : Bool) : Instr := if b then .evtBit1 else .evtBit0

/-- `s'` is what the write-bit events `bs`, in this order, make of `s`. -/
def Feeds : List Bool → State → State → Prop
  | [], s, s' => s' = s
  | b :: bs, s, s' => ∃ m, exec (bitEvent b) s = .next m ∧ Feeds bs m s'

/-- The packet whose bits are given, least significant first. -/
def packetValue : List Bool → Nat
  | [] => 0
  | b :: bs => b.toNat + 2 * packetValue bs

/-! ## Quiescence -/

/-- R296: nothing is under way in either unit. -/
structure Quiescent (s : State) : Prop where
  sequencer : s.pri.seq = .idle
  response : s.sec.resp = .idle
  mailbox : s.sec.pending = false
  request : s.sec.irqLatch = false ∧ s.sec.isrDueAt = none
  classifier : s.sec.isrState = .idle
  pads : s.pri.padDue = none ∧ s.sec.padDue = none

/-- The line has settled at the level the pads give it, and no edge is under way (R51). -/
def LineAtRest (s : State) : Prop := settledLevel s = some s.line ∧ s.linePrev = s.line

/-! ## Timing conditions of section 3 of spec/70_reset_and_hazards.md -/

/-- Pulse and gap lengths of R280 for base slot `T`. -/
structure Pulses where
  resetPulse : Nat
  write1Pulse : Nat
  write0Pulse : Nat
  readPulse : Nat
  writeGap : Nat
  readGap : Nat
  resetGap : Nat
  replyTime : Nat
  presenceTime : Nat
  deriving DecidableEq, Repr

/-- The symbols of R280. -/
def pulses (p : Params) (T : Nat) : Pulses where
  resetPulse := 5 * T + p.priLatSwitch
  write1Pulse := T / 2 - p.calLoopOvh
  write0Pulse := 3 * T / 2 - p.calLoopOvh
  readPulse := 5 * T / 2 + p.priLatSwitch
  writeGap := (T - T / 2) - p.calLoopOvh
  readGap := T / 2 + T + p.priLatRead + p.priLatWrite - p.priLatSwitch - 2 * p.calLoopOvh
  resetGap := T + 3 * T / 2 + p.priLatRead + p.priLatWrite - p.priLatSwitch - 2 * p.calLoopOvh
  replyTime := 2 * p.secLatSwitch + p.secLatWrite + T
  presenceTime := 2 * p.secLatSwitch + p.secLatWrite + 3 * T / 2

/-- R281: every PRI pulse falls in its intended class for every draw. -/
abbrev classifiesWell (p : Params) (T : Nat) : Prop :=
  let q := pulses p T
  let jitter := p.isrLatMax - p.isrLatMin
  q.write1Pulse + jitter ≤ T ∧
  T + jitter < q.write0Pulse ∧ q.write0Pulse + jitter ≤ 2 * T ∧
  2 * T + jitter < q.readPulse ∧ q.readPulse + jitter ≤ 3 * T ∧
  3 * T + jitter < q.resetPulse ∧
  p.isrLatMax + 1 ≤ q.write1Pulse

/-- R282: the mailbox is free, and the SEC's own edges are dealt with, before the next pulse. -/
abbrev mailboxFree (p : Params) (T : Nat) : Prop :=
  let q := pulses p T
  match p.guardMode with
  | .entryGuard =>
    p.isrLatMax + p.pollLatMax < q.writeGap + p.isrLatMin ∧
    2 * p.isrLatMax + p.pollLatMax + q.replyTime < q.readGap ∧
    2 * p.isrLatMax + p.pollLatMax + q.presenceTime < q.resetGap
  | .sourceDisable =>
    p.isrLatMax + p.pollLatMax < q.writeGap ∧
    2 * p.isrLatMax + p.pollLatMax + q.replyTime + 1 < q.readGap ∧
    2 * p.isrLatMax + p.pollLatMax + q.presenceTime + 1 < q.resetGap

/-- R284: the SEC's LOW is on the line when the PRI samples. -/
abbrev sampleWindowsOpen (p : Params) (T : Nat) : Prop :=
  p.isrLatMax + p.pollLatMax + p.secLatSwitch + p.secLatWrite + (p.priLatSwitch + p.calLoopOvh) ≤ T ∧
  p.isrLatMax + p.pollLatMax + p.secLatSwitch + p.secLatWrite + (p.priLatSwitch + p.calLoopOvh) ≤ T / 2

/-- R287: base slot `T` works when R281, R282 and R284 hold. -/
abbrev timingOk (p : Params) (T : Nat) : Prop :=
  classifiesWell p T ∧ mailboxFree p T ∧ sampleWindowsOpen p T

/-! ## Runs -/

/-- `s'` is reached from `s` by some number of steps. -/
def Reaches (s s' : State) : Prop := ∃ n, Host.Core.run Sys2Proof.core n s = .next s'

end Sys2Proof.Machine
end

