-- ==== Sys2Proof/Certificates/Slice0/Obligations.lean ====
section
/-! DEFINITION. The statements about the model. Each docstring says which rules of spec/ it formalises. The
statements give next states as explicit updates of the state, so that what an instruction leaves unchanged is
said by the same equation. -/

section

open Sys2Proof Sys2Proof.Machine

/-! ## Encoding -/

/-- R84, R85, R88, R89: the command words and the internal vectors decode to the instructions they stand for. -/
def Obligations.CommandWordsDecode : Prop :=
  (decodePri 0x00000001#32 = .ok .init ∧ decodePri 0x00000002#32 = .ok .reset ∧
    decodePri 0x00000003#32 = .ok .write ∧ decodePri 0x00000013#32 = .ok .writeSkip ∧
    decodePri 0x00000004#32 = .ok .read ∧ decodePri 0x00000014#32 = .ok .readSkip) ∧
  (decodeSec 0x00000001#32 = .ok .secBegin ∧ decodeSec 0x00000002#32 = .ok .pop) ∧
  (decodeEdge 0b000#3 = .edgeStart ∧ decodeEdge 0b001#3 = .edgeSpurious ∧
    decodeEdge 0b010#3 = .edgeEnd .low ∧ decodeEdge 0b011#3 = .edgeEnd .high ∧
    decodeEdge 0b100#3 = .edgeDrop .idle .low ∧ decodeEdge 0b101#3 = .edgeDrop .idle .high ∧
    decodeEdge 0b110#3 = .edgeDrop .timing .low ∧ decodeEdge 0b111#3 = .edgeDrop .timing .high) ∧
  (decodeEvt 0#2 = .evtBit1 ∧ decodeEvt 1#2 = .evtBit0 ∧ decodeEvt 2#2 = .evtRead ∧ decodeEvt 3#2 = .evtReset)

/-- R80 to R93: in each of the four formats a word decodes to an instruction exactly when it is the word the
encoder writes for it, so no bit of an encoding is dropped and no other word is accepted. -/
def Obligations.DecodeEncodeAgree : Prop :=
  ∀ (c : Code) (i : Instr), decode c = .ok i ↔ encode i = c

/-- R90, R93: exactly the words R90 lists are illegal; writing one to `P.CMD` or `S.CMD` raises ILLEGAL and
changes nothing else. -/
def Obligations.IllegalWordsRaiseIllegal : Prop :=
  (∀ w, IllegalPri w ↔ ∀ i, decodePri w ≠ .ok i) ∧
  (∀ w, IllegalSec w ↔ ∀ i, decodeSec w ≠ .ok i) ∧
  (∀ s tgt w rest, HostTurn s (.wr tgt .w32 w) rest .P 0x00 → IllegalPri w →
    step s = .next { s with
      bus := rest
      reply := { data := 0#32, error := false }
      pri := { s.pri with err := true, lastErr := .illegal } }) ∧
  (∀ s tgt w rest, HostTurn s (.wr tgt .w32 w) rest .S 0x00 → IllegalSec w →
    step s = .next { s with
      bus := rest
      reply := { data := 0#32, error := false }
      sec := { s.sec with err := true, lastErr := .illegal } })

/-! ## A step runs the decoded instruction -/

/-- R21, R34, R161, R180: the host's write of a command word, the handler entry that is due, and the branch that
starts each run `exec` of the decoded instruction. How an instant is cut into steps is the model's (log entry 1). With
each: the access leaves the bus and is answered; the trap
entry clears the request; nothing is added at the start of a branch. The poll that selects a branch is a step of
its own (R180). -/
def Obligations.StepRunsDecodedInstruction : Prop :=
  (∀ s tgt w rest i, HostTurn s (.wr tgt .w32 w) rest .P 0x00 → decodePri w = .ok i →
    step s = exec i { s with bus := rest, reply := { data := 0#32, error := false } }) ∧
  (∀ s tgt w rest i, HostTurn s (.wr tgt .w32 w) rest .S 0x00 → decodeSec w = .ok i →
    step s = exec i { s with bus := rest, reply := { data := 0#32, error := false } }) ∧
  (∀ s, s.phase = .handler → s.par.secPresent = true → s.sec.isrDueAt = some s.t →
    step s = exec (decodeEdge (edgeVector s.sec.pending s.sec.isrState s.line))
      { s with sec := { s.sec with irqLatch := false, isrDueAt := none } }) ∧
  (∀ s b, SecTurn s b .start → step s = exec (decodeEvt b.code) s) ∧
  (∀ s, s.phase = .sec → s.par.secPresent = true → s.sec.resp = .idle → s.sec.pending = true →
    s.sec.pollAt = s.t →
    step s = .next { s with
      sec := { s.sec with resp := .responding (classify s.sec.prof s.sec.duration) .start s.t } })

/-! ## PRI commands: acceptance -/

/-- R120, R68: what the acceptance of each PRI command leaves, for every state that passes its checks; the first
action comes one instant later. -/
def Obligations.PriCommandsAccepted : Prop :=
  (∀ s, s.pri.busy = false → CfgLegal s.pri.cfg →
    exec .init s = .next { s with
      pri := { s.pri with
        busy := true, done := false, ready := false, seq := .running .init false .start (s.t + 1) } }) ∧
  (∀ s, s.pri.busy = false → s.pri.ready = true →
    exec .reset s = .next { s with
      pri := { s.pri with busy := true, done := false, seq := .running .reset false .start (s.t + 1) } } ∧
    exec .write s = .next { s with
      pri := { s.pri with
        busy := true, done := false, txSnap := s.pri.txData
        seq := .running .write false .start (s.t + 1) } } ∧
    exec .writeSkip s = .next { s with
      pri := { s.pri with
        busy := true, done := false, txSnap := s.pri.txData
        seq := .running .write true .start (s.t + 1) } } ∧
    exec .read s = .next { s with
      pri := { s.pri with busy := true, done := false, seq := .running .read false .start (s.t + 1) } } ∧
    exec .readSkip s = .next { s with
      pri := { s.pri with busy := true, done := false, seq := .running .read true .start (s.t + 1) } })

/-- R120, R241 to R243: the checks in their order (the decoder's ILLEGAL comes before them). A refused command
records its code and changes nothing else. -/
def Obligations.PriCommandsRefused : Prop :=
  (∀ s i, i = .init ∨ i = .reset ∨ i = .write ∨ i = .writeSkip ∨ i = .read ∨ i = .readSkip →
    s.pri.busy = true →
    exec i s = .next { s with pri := { s.pri with err := true, lastErr := .busy } }) ∧
  (∀ s i, i = .reset ∨ i = .write ∨ i = .writeSkip ∨ i = .read ∨ i = .readSkip →
    s.pri.busy = false → s.pri.ready = false →
    exec i s = .next { s with pri := { s.pri with err := true, lastErr := .notReady } }) ∧
  (∀ s, s.pri.busy = false → ¬CfgLegal s.pri.cfg →
    exec .init s = .next { s with pri := { s.pri with err := true, lastErr := .cfg } })

/-! ## PRI commands: the sequencer's statements -/

/-- R121: the statements of INIT up to the end of its loops. -/
def Obligations.InitStatements : Prop :=
  (∀ s, PriTurn s .init false .start →
    step s = .next { s with
      pri := { s.pri with
        padDue := some ⟨.setDirection .output, s.t + s.par.priLatSwitch⟩
        seq := .running .init false (.cal .firstRead) (s.t + s.par.priLatSwitch) } }) ∧
  (∀ s, PriTurn s .init false (.cal .firstRead) →
    step s = .next { s with
      pri := { s.pri with calT0 := s.now, seq := .running .init false (.cal (.switch 0)) s.t } }) ∧
  (∀ s k, PriTurn s .init false (.cal (.switch k)) → k < s.par.calNSwitch →
    step s = .next { s with
      pri := { s.pri with
        padDue := some
          ⟨.setDirection (if k % 2 = 0 then .input else .output), s.t + s.par.priLatSwitch⟩
        seq := .running .init false (.cal (.switchWait k)) (s.t + s.par.priLatSwitch) } }) ∧
  (∀ s k, PriTurn s .init false (.cal (.switchWait k)) →
    step s = .next { s with
      pri := { s.pri with
        seq := .running .init false (.cal (.switch (k + 1))) (s.t + s.par.calLoopOvh) } }) ∧
  (∀ s k, PriTurn s .init false (.cal (.switch k)) → s.par.calNSwitch ≤ k →
    step s = .next { s with
      pri := { s.pri with calT1 := s.now, seq := .running .init false (.cal (.write 0)) s.t } }) ∧
  (∀ s k, PriTurn s .init false (.cal (.write k)) → k < s.par.calNWrite →
    step s = .next { s with
      pri := { s.pri with
        padDue := some ⟨.writeLevel .high, s.t + s.par.priLatWrite⟩
        seq := .running .init false (.cal (.writeWait k)) (s.t + s.par.priLatWrite) } }) ∧
  (∀ s k, PriTurn s .init false (.cal (.writeWait k)) →
    step s = .next { s with
      pri := { s.pri with
        seq := .running .init false (.cal (.write (k + 1))) (s.t + s.par.calLoopOvh) } })

/-- R121, R123, R130: INIT ends by storing the two quotients of the elapsed timer readings; it then sets READY when
no compensated delay would be negative, and records CAL otherwise; it is complete in both cases. -/
def Obligations.InitEnds : Prop :=
  ∀ s k, PriTurn s .init false (.cal (.write k)) → s.par.calNWrite ≤ k →
    ∀ sw wr, sw = (s.pri.calT1 - s.pri.calT0).toNat / s.par.calNSwitch →
      wr = (BitVec.ofNat 32 s.t - s.pri.calT1).toNat / s.par.calNWrite →
      (calOk s.pri.prof sw wr = true →
        step s = .next { s with
          pri := { s.pri with
            calT2 := BitVec.ofNat 32 s.t, swLat := sw, wrLat := wr, ready := true
            busy := false, done := true, seq := .idle } }) ∧
      (calOk s.pri.prof sw wr = false →
        step s = .next { s with
          pri := { s.pri with
            calT2 := BitVec.ofNat 32 s.t, swLat := sw, wrLat := wr, err := true, lastErr := .cal
            busy := false, done := true, seq := .idle } })

/-- R124, R125, R127, R128: a command that does not skip starts with the reset phase, whose statements are these,
with the two compensated delays; PRESENCE is the level read, LOW meaning present. In states that no run reaches, a
delay that would be negative is taken as 0 (the model's choice, log entry 9). -/
def Obligations.ResetPhaseStatements : Prop :=
  (∀ s c, c ≠ .init → PriTurn s c false .start →
    step s = .next { s with
      pri := { s.pri with
        rxAcc := if c = .read then 0#32 else s.pri.rxAcc
        seq := .running c false (.rst .low) s.t } }) ∧
  (∀ s c, PriTurn s c false (.rst .low) →
    step s = .next { s with
      pri := { s.pri with
        padDue := some ⟨.writeLevel .low, s.t + s.par.priLatWrite⟩
        seq := .running c false (.rst .hold) (s.t + s.par.priLatWrite) } }) ∧
  (∀ s c, PriTurn s c false (.rst .hold) →
    step s = .next { s with
      pri := { s.pri with seq := .running c false (.rst .release) (s.t + s.pri.prof.resetSignal) } }) ∧
  (∀ s c, PriTurn s c false (.rst .release) →
    step s = .next { s with
      pri := { s.pri with
        padDue := some ⟨.setDirection .input, s.t + s.par.priLatSwitch⟩
        seq := .running c false (.rst .wait) (s.t + s.par.priLatSwitch) } }) ∧
  (∀ s c, PriTurn s c false (.rst .wait) →
    step s = .next { s with
      pri := { s.pri with
        seq := .running c false (.rst .sample)
          (s.t + (s.pri.prof.resetPresenceSampleDelay - s.pri.swLat)) } }) ∧
  (∀ s c, PriTurn s c false (.rst .sample) →
    step s = .next { s with
      pri := { s.pri with
        presence := decide (s.line = .low)
        seq := .running c false (.rst .drive) (s.t + s.par.priLatRead) } }) ∧
  (∀ s c, PriTurn s c false (.rst .drive) →
    step s = .next { s with
      pri := { s.pri with
        padDue := some ⟨.setDirection .output, s.t + s.par.priLatSwitch⟩
        seq := .running c false (.rst .settle) (s.t + s.par.priLatSwitch) } }) ∧
  (∀ s c, PriTurn s c false (.rst .settle) →
    step s = .next { s with
      pri := { s.pri with
        seq := .running c false (.rst .finish) (s.t + (s.pri.prof.resetSettle - s.pri.swLat)) } })

/-- R124, R127, R128, R130, R133: after the reset phase RESET is complete; WRITE and READ go on to bit slot 0 with
presence and are complete without it, READ with the sentinel in `P.RXDATA`. -/
def Obligations.PresenceGating : Prop :=
  (∀ s, PriTurn s .reset false (.rst .finish) →
    step s = .next { s with pri := { s.pri with busy := false, done := true, seq := .idle } }) ∧
  (∀ s, PriTurn s .write false (.rst .finish) →
    (s.pri.presence = true →
      step s = .next { s with pri := { s.pri with seq := .running .write false (.wr 0 .head) s.t } }) ∧
    (s.pri.presence = false →
      step s = .next { s with pri := { s.pri with busy := false, done := true, seq := .idle } })) ∧
  (∀ s, PriTurn s .read false (.rst .finish) →
    (s.pri.presence = true →
      step s = .next { s with pri := { s.pri with seq := .running .read false (.rd 0 .head) s.t } }) ∧
    (s.pri.presence = false →
      step s = .next { s with
        pri := { s.pri with rxData := 0xFFFFFFFF#32, busy := false, done := true, seq := .idle } }))

/-- R126, R127, R65: the statements of WRITE's bit slots. Slot `i` sends bit `i` of the packet copied at acceptance,
below the configured width; a skip WRITE starts with slot 0. In states that no run reaches, a delay that would be
negative is taken as 0 (the model's choice, log entry 9). -/
def Obligations.WriteSlotStatements : Prop :=
  (∀ s, PriTurn s .write true .start →
    step s = .next { s with pri := { s.pri with seq := .running .write true (.wr 0 .head) s.t } }) ∧
  (∀ s sk i, PriTurn s .write sk (.wr i .head) → i < s.pri.cfg.p2s →
    step s = .next { s with
      pri := { s.pri with
        slot := i
        padDue := some ⟨.writeLevel .low, s.t + s.par.priLatWrite⟩
        seq := .running .write sk (.wr i .hold) (s.t + s.par.priLatWrite) } }) ∧
  (∀ s sk i, PriTurn s .write sk (.wr i .hold) →
    step s = .next { s with
      pri := { s.pri with
        seq := .running .write sk (.wr i .high)
          (s.t + ((if s.pri.txSnap.getLsbD i then s.pri.prof.write1Active else s.pri.prof.write0Active) -
            s.pri.wrLat)) } }) ∧
  (∀ s sk i, PriTurn s .write sk (.wr i .high) →
    step s = .next { s with
      pri := { s.pri with
        padDue := some ⟨.writeLevel .high, s.t + s.par.priLatWrite⟩
        seq := .running .write sk (.wr i .pause) (s.t + s.par.priLatWrite) } }) ∧
  (∀ s sk i, PriTurn s .write sk (.wr i .pause) →
    step s = .next { s with
      pri := { s.pri with
        seq := .running .write sk (.wr (i + 1) .head)
          (s.t + ((if s.pri.txSnap.getLsbD i then s.pri.prof.write1Pause else s.pri.prof.write0Pause) -
            s.pri.wrLat)) } }) ∧
  (∀ s sk i, PriTurn s .write sk (.wr i .head) → s.pri.cfg.p2s ≤ i →
    step s = .next { s with pri := { s.pri with busy := false, done := true, seq := .idle } })

/-- R128, R129, R65: the statements of READ's bit slots. The level on the line at the sample becomes bit `i` of the
packet, HIGH being 1; the packet reaches `P.RXDATA` at the end; a skip READ starts with slot 0. That the bit is
stored when ReadLevel completes is the model's reading (log entry 10), and so is 0 for a delay that would be
negative, in states that no run reaches (log entry 9). -/
def Obligations.ReadSlotStatements : Prop :=
  (∀ s, PriTurn s .read true .start →
    step s = .next { s with
      pri := { s.pri with rxAcc := 0#32, seq := .running .read true (.rd 0 .head) s.t } }) ∧
  (∀ s sk i, PriTurn s .read sk (.rd i .head) → i < s.pri.cfg.s2p →
    step s = .next { s with
      pri := { s.pri with
        slot := i
        padDue := some ⟨.writeLevel .low, s.t + s.par.priLatWrite⟩
        seq := .running .read sk (.rd i .hold) (s.t + s.par.priLatWrite) } }) ∧
  (∀ s sk i, PriTurn s .read sk (.rd i .hold) →
    step s = .next { s with
      pri := { s.pri with seq := .running .read sk (.rd i .release) (s.t + s.pri.prof.readInitActive) } }) ∧
  (∀ s sk i, PriTurn s .read sk (.rd i .release) →
    step s = .next { s with
      pri := { s.pri with
        padDue := some ⟨.setDirection .input, s.t + s.par.priLatSwitch⟩
        seq := .running .read sk (.rd i .wait) (s.t + s.par.priLatSwitch) } }) ∧
  (∀ s sk i, PriTurn s .read sk (.rd i .wait) →
    step s = .next { s with
      pri := { s.pri with
        seq := .running .read sk (.rd i .sample) (s.t + (s.pri.prof.readSampleDelay - s.pri.swLat)) } }) ∧
  (∀ s sk i, PriTurn s .read sk (.rd i .sample) →
    step s = .next { s with
      pri := { s.pri with seq := .running .read sk (.rd i (.store s.line)) (s.t + s.par.priLatRead) } }) ∧
  (∀ s sk i v, PriTurn s .read sk (.rd i (.store v)) → i < 32 →
    ∃ acc : Word,
      (∀ k, k < 32 → acc.getLsbD k = if k = i then v.toBool else s.pri.rxAcc.getLsbD k) ∧
      step s = .next { s with
        pri := { s.pri with
          rxAcc := acc
          padDue := some ⟨.setDirection .output, s.t + s.par.priLatSwitch⟩
          seq := .running .read sk (.rd i .settle) (s.t + s.par.priLatSwitch) } }) ∧
  (∀ s sk i, PriTurn s .read sk (.rd i .settle) →
    step s = .next { s with
      pri := { s.pri with
        seq := .running .read sk (.rd (i + 1) .head) (s.t + (s.pri.prof.readPause - s.pri.swLat)) } }) ∧
  (∀ s sk i, PriTurn s .read sk (.rd i .head) → s.pri.cfg.s2p ≤ i →
    step s = .next { s with
      pri := { s.pri with rxData := s.pri.rxAcc, busy := false, done := true, seq := .idle } })

/-- R135, R120, R130: a command accepted at instant `a` runs by its statements' durations and completes at instant
`a + 1` plus the sum of them, whatever the SEC unit, the line and the host do meanwhile. In states that no run
reaches, a delay that would be negative counts as 0 (the model's choice, log entry 9). -/
def Obligations.CommandDuration : Prop :=
  (∀ s s', s.pri.seq = .idle → step s = .next s' → s'.pri.seq ≠ .idle → ClockInv s.t s') ∧
  (∀ a s s', PriInv s → ClockInv a s → s.pri.seq ≠ .idle → step s = .next s' →
    ClockInv a s' ∧
    (s'.pri.seq = .idle → ∃ c skip p, s.pri.seq = .running c skip p s.t ∧
      s.t = a + 1 + commandTime s.par s.pri c skip))

/-- R122: every step keeps the invariant that INIT's loops stand where their iterations have brought the timer, and that
a unit that is READY holds the calibration values `PRI_LAT_SWITCH + CAL_LOOP_OVH` and `PRI_LAT_WRITE + CAL_LOOP_OVH`.
Premise: both loops end before the timer has gone round (R221). -/
def Obligations.CalibrationMeasured : Prop :=
  ∀ s s', s.par.Legal → calFits s.par → CalInv s → step s = .next s' → CalInv s'

/-! ## SEC commands -/

/-- R195, R241 to R243: BEGIN attaches the handler and clears the unit when no event is pending and the configuration
is legal; it is refused with BUSY while an event is pending, else with CFG under an illegal configuration, and then
nothing else changes. -/
def Obligations.BeginCommand : Prop :=
  (∀ s, s.sec.pending = false → CfgLegal s.sec.cfg →
    exec .secBegin s = .next { s with
      sec := { s.sec with
        isrState := .idle, irqLatch := false, isrDueAt := none, bitIndex := 0, acc := 0#32
        sendBuf := 0#32, rxFifo := [], rxOvf := false, active := true } }) ∧
  (∀ s, s.sec.pending = true →
    exec .secBegin s = .next { s with sec := { s.sec with err := true, lastErr := .busy } }) ∧
  (∀ s, s.sec.pending = false → ¬CfgLegal s.sec.cfg →
    exec .secBegin s = .next { s with sec := { s.sec with err := true, lastErr := .cfg } })

/-- R196: POP removes the oldest packet, and does nothing on an empty FIFO. -/
def Obligations.PopRemovesOldest : Prop :=
  (∀ s p rest, s.sec.rxFifo = p :: rest →
    exec .pop s = .next { s with sec := { s.sec with rxFifo := rest } }) ∧
  (∀ s, s.sec.rxFifo = [] → exec .pop s = .next s)

/-! ## The SEC handler -/

/-- R162 to R164, R251: EDGE_DROP and EDGE_SPURIOUS leave everything as it is, EDGE_START records the timer and
enters TIMING; the main loop goes on in the same instant, which is the model's form of the return (log entry 11). -/
def Obligations.EdgeStartAndIgnoredEdges : Prop :=
  (∀ s isr lv, exec (.edgeDrop isr lv) s = .next { s with phase := .sec }) ∧
  (∀ s, exec .edgeSpurious s = .next { s with phase := .sec }) ∧
  (∀ s, exec .edgeStart s = .next { s with
    phase := .sec
    sec := { s.sec with start := BitVec.ofNat 32 s.t, isrState := .timing } })

/-- R165: EDGE_END publishes the duration, sets the flag, returns to IDLE and draws the poll instant; the level read
is not tested. The duration is the time since the recorded start also when the timer has wrapped between. -/
def Obligations.EdgeEndPublishes : Prop :=
  ∀ s, s.par.pollLatMin ≤ s.par.pollLatMax →
    ∃ poll, s.par.pollLatMin ≤ poll ∧ poll ≤ s.par.pollLatMax ∧
      (∀ lv, exec (.edgeEnd lv) s = .next { s with
        phase := .sec
        draws := s.draws + 1
        sec := { s.sec with
          duration := BitVec.ofNat 32 s.t - s.sec.start
          pending := true
          pendSetAt := s.t
          isrState := .idle
          pollAt := s.t + poll } }) ∧
      (∀ f, s.sec.start = BitVec.ofNat 32 f → f ≤ s.t → s.t - f < 2 ^ 32 →
        (BitVec.ofNat 32 s.t - s.sec.start).toNat = s.t - f)

/-- R170: a step of the handler's phase writes only the eight SEC fields R170 names (and the model's own draw count
and phase), and what it writes there depends only on them, on the line and the timer, and on the model's
parameters and draws. -/
def Obligations.HandlerTouchesOnlyItsState : Prop :=
  (∀ s s', s.phase = .handler → step s = .next s' →
    s' = { s with
      phase := s'.phase
      draws := s'.draws
      sec := { s.sec with
        irqLatch := s'.sec.irqLatch, isrDueAt := s'.sec.isrDueAt, isrState := s'.sec.isrState
        start := s'.sec.start, duration := s'.sec.duration, pending := s'.sec.pending
        pendSetAt := s'.sec.pendSetAt, pollAt := s'.sec.pollAt } }) ∧
  (∀ s r s' r', s.phase = .handler → r.phase = .handler →
    r.par = s.par → r.t = s.t → r.line = s.line → r.draws = s.draws →
    r.sec.irqLatch = s.sec.irqLatch → r.sec.isrDueAt = s.sec.isrDueAt → r.sec.isrState = s.sec.isrState →
    r.sec.start = s.sec.start → r.sec.duration = s.sec.duration → r.sec.pending = s.sec.pending →
    r.sec.pendSetAt = s.sec.pendSetAt → r.sec.pollAt = s.sec.pollAt →
    step s = .next s' → step r = .next r' →
    r'.sec.irqLatch = s'.sec.irqLatch ∧ r'.sec.isrDueAt = s'.sec.isrDueAt ∧
    r'.sec.isrState = s'.sec.isrState ∧ r'.sec.start = s'.sec.start ∧ r'.sec.duration = s'.sec.duration ∧
    r'.sec.pending = s'.sec.pending ∧ r'.sec.pendSetAt = s'.sec.pendSetAt ∧ r'.sec.pollAt = s'.sec.pollAt)

/-- R160, R166: in the line phase an edge seen by an ACTIVE unit with no request latched latches one, and schedules
its entry within the latency bounds unless the source is disabled; any other edge, and no edge, changes nothing of
the SEC unit. -/
def Obligations.EdgeLatch : Prop :=
  ∀ s s', s.phase = .line → s.par.isrLatMin ≤ s.par.isrLatMax → step s = .next s' →
    ((s.par.secPresent = true ∧ s.sec.active = true ∧ s.sec.irqLatch = false ∧ s'.line ≠ s.linePrev) →
      (s.par.guardMode = .entryGuard ∨ s.sec.pending = false →
        ∃ d, s.par.isrLatMin ≤ d ∧ d ≤ s.par.isrLatMax ∧
          s'.sec = { s.sec with irqLatch := true, isrDueAt := some (s.t + d) }) ∧
      (s.par.guardMode = .sourceDisable → s.sec.pending = true →
        s'.sec = { s.sec with irqLatch := true, isrDueAt := none })) ∧
    (¬(s.par.secPresent = true ∧ s.sec.active = true ∧ s.sec.irqLatch = false ∧ s'.line ≠ s.linePrev) →
      s'.sec = s.sec)

/-- R166, R88: under SOURCE_DISABLE no handler entry finds the flag set, so EDGE_DROP never runs; and in both modes
the vector formed at an entry is a well-formed instruction. -/
def Obligations.HandlerVectors : Prop :=
  ∀ s, SecInv s → s.par.secPresent = true → s.sec.isrDueAt = some s.t →
    (decodeEdge (edgeVector s.sec.pending s.sec.isrState s.line)).wellFormed = true ∧
    (s.par.guardMode = .sourceDisable →
      ∀ isr lv, decodeEdge (edgeVector s.sec.pending s.sec.isrState s.line) ≠ .edgeDrop isr lv)

/-- R69, R70, R171, R53: the duration and the flag are set together, by a handler entry that finds the flag clear in
TIMING; while the flag is set nothing writes the duration; only the main loop clears the flag, and it then has
ended its branch. -/
def Obligations.MailboxOrdering : Prop :=
  ∀ s s', step s = .next s' →
    (s'.sec.duration ≠ s.sec.duration → s.sec.pending = false ∧ s'.sec.pending = true) ∧
    (s.sec.pending = false → s'.sec.pending = true →
      s.phase = .handler ∧ s.sec.isrDueAt = some s.t ∧ s.sec.isrState = .timing ∧
      s'.sec.duration = BitVec.ofNat 32 s.t - s.sec.start) ∧
    (s.sec.pending = true → s'.sec.pending = false → s.phase = .sec ∧ s'.sec.resp = .idle)

/-! ## The SEC response -/

/-- R181, R182: the three cases of a write-bit event, for both bits: a bit within the packet, the bit that completes
it (delivered, or dropped with RXOVF when the FIFO is full), and a bit beyond it. Each ends with the clear of R188. -/
def Obligations.WriteBitEvents : Prop :=
  ∀ s b,
    (s.sec.bitIndex + 1 < s.sec.cfg.p2s →
      exec (bitEvent b) s = .next (clearPending { s with
        sec := { s.sec with
          acc := s.sec.acc ||| (if b then 1#32 <<< s.sec.bitIndex else 0#32)
          bitIndex := s.sec.bitIndex + 1 } })) ∧
    (s.sec.bitIndex + 1 = s.sec.cfg.p2s → s.sec.rxFifo.length < s.par.rxFifoDepth →
      exec (bitEvent b) s = .next (clearPending { s with
        sec := { s.sec with
          acc := s.sec.acc ||| (if b then 1#32 <<< s.sec.bitIndex else 0#32)
          bitIndex := s.sec.bitIndex + 1
          rxFifo := s.sec.rxFifo ++ [s.sec.acc ||| (if b then 1#32 <<< s.sec.bitIndex else 0#32)] } })) ∧
    (s.sec.bitIndex + 1 = s.sec.cfg.p2s → s.par.rxFifoDepth ≤ s.sec.rxFifo.length →
      exec (bitEvent b) s = .next (clearPending { s with
        sec := { s.sec with
          acc := s.sec.acc ||| (if b then 1#32 <<< s.sec.bitIndex else 0#32)
          bitIndex := s.sec.bitIndex + 1
          rxOvf := true } })) ∧
    (s.sec.cfg.p2s ≤ s.sec.bitIndex → exec (bitEvent b) s = .next (clearPending s))

/-- R183, R184: a read request at position 0 takes the snapshot of `S.TXNEXT`; below the SEC's width it switches the
pad to output and will drive the bit at the position; beyond it only the clear of R188 follows. -/
def Obligations.ReadEvent : Prop :=
  ∀ s buf, buf = (if s.sec.bitIndex = 0 then s.sec.txNext else s.sec.sendBuf) →
    (s.sec.bitIndex < s.sec.cfg.s2p →
      exec .evtRead s = .next { s with
        sec := { s.sec with
          sendBuf := buf
          padDue := some ⟨.setDirection .output, s.t + s.par.secLatSwitch⟩
          resp := .responding .read (.drive (if buf.getLsbD s.sec.bitIndex then .high else .low))
            (s.t + s.par.secLatSwitch) } }) ∧
    (s.sec.cfg.s2p ≤ s.sec.bitIndex →
      exec .evtRead s = .next (clearPending { s with sec := { s.sec with sendBuf := buf } }))

/-- R186: a RESET event switches the pad to output, to drive LOW. -/
def Obligations.ResetEvent : Prop :=
  ∀ s, exec .evtReset s = .next { s with
    sec := { s.sec with
      padDue := some ⟨.setDirection .output, s.t + s.par.secLatSwitch⟩
      resp := .responding .reset (.drive .low) (s.t + s.par.secLatSwitch) } }

/-- R183, R186, R187: the statements of a driving branch after its first, in their order; the hold is not
compensated; the position is updated after the release. -/
def Obligations.ResponseStatements : Prop :=
  (∀ s b v, SecTurn s b (.drive v) →
    step s = .next { s with
      sec := { s.sec with
        padDue := some ⟨.writeLevel v, s.t + s.par.secLatWrite⟩
        resp := .responding b .hold (s.t + s.par.secLatWrite) } }) ∧
  (∀ s, SecTurn s .read .hold →
    step s = .next { s with
      sec := { s.sec with resp := .responding .read .release (s.t + s.sec.prof.readReplyHold) } }) ∧
  (∀ s, SecTurn s .reset .hold →
    step s = .next { s with
      sec := { s.sec with resp := .responding .reset .release (s.t + s.sec.prof.resetPresence) } }) ∧
  (∀ s b, SecTurn s b .release →
    step s = .next { s with
      sec := { s.sec with
        padDue := some ⟨.setDirection .input, s.t + s.par.secLatSwitch⟩
        resp := .responding b .finish (s.t + s.par.secLatSwitch) } }) ∧
  (∀ s, SecTurn s .read .finish →
    step s = .next (clearPending { s with sec := { s.sec with bitIndex := s.sec.bitIndex + 1 } })) ∧
  (∀ s, SecTurn s .reset .finish →
    step s = .next (clearPending { s with sec := { s.sec with bitIndex := 0, acc := 0#32 } }))

/-- R188, R167: the clear ends the branch; with the source disabled it also schedules, from the next instant on, an
entry for a request latched meanwhile. -/
def Obligations.ClearLast : Prop :=
  ∀ s,
    (¬(s.par.guardMode = .sourceDisable ∧ s.sec.irqLatch = true) →
      clearPending s = { s with sec := { s.sec with pending := false, resp := .idle } }) ∧
    (s.par.guardMode = .sourceDisable → s.sec.irqLatch = true → s.par.isrLatMin ≤ s.par.isrLatMax →
      ∃ d, s.par.isrLatMin ≤ d ∧ d ≤ s.par.isrLatMax ∧
        clearPending s = { s with
          draws := s.draws + 1
          sec := { s.sec with pending := false, resp := .idle, isrDueAt := some (s.t + 1 + d) } })

/-- R190, R189: a response runs by its statements' durations from its classification at instant `c`, whatever the
PRI unit, the line and the host do meanwhile, and clears the flag at `c` plus R190's duration. -/
def Obligations.ResponseDuration : Prop :=
  (∀ s s', s.sec.resp = .idle → step s = .next s' → s'.sec.resp ≠ .idle → RespClock s.t s') ∧
  (∀ c s s', SecInv s → RespClock c s → s.sec.resp ≠ .idle → step s = .next s' →
    RespClock c s' ∧
    (s'.sec.resp = .idle → s'.sec.pending = false ∧ ∃ b p, s.sec.resp = .responding b p s.t ∧
      s.t = c + responseTime s.par s.sec b))

/-- R191, R182: from bit position 0, as many write-bit events as the packet is wide deliver exactly one packet, whose
bit `i` is the `i`-th event's; further write-bit events deliver nothing and change neither packet nor position. -/
def Obligations.PacketCompleteness : Prop :=
  ∀ s bits, s.sec.bitIndex = 0 → s.sec.acc = 0#32 → bits.length = s.sec.cfg.p2s →
    1 ≤ s.sec.cfg.p2s → s.sec.cfg.p2s ≤ 32 →
    ∃ s', Feeds bits s s' ∧
      s'.sec.bitIndex = s.sec.cfg.p2s ∧ s'.sec.acc = BitVec.ofNat 32 (packetValue bits) ∧
      (s.sec.rxFifo.length < s.par.rxFifoDepth →
        s'.sec.rxFifo = s.sec.rxFifo ++ [BitVec.ofNat 32 (packetValue bits)] ∧ s'.sec.rxOvf = s.sec.rxOvf) ∧
      (s.par.rxFifoDepth ≤ s.sec.rxFifo.length → s'.sec.rxFifo = s.sec.rxFifo ∧ s'.sec.rxOvf = true) ∧
      ∀ more s'', Feeds more s' s'' →
        s''.sec.rxFifo = s'.sec.rxFifo ∧ s''.sec.rxOvf = s'.sec.rxOvf ∧ s''.sec.acc = s'.sec.acc ∧
        s''.sec.bitIndex = s'.sec.bitIndex

/-- R192: the bit position falls only to 0, and only at the end of a RESET branch or by an accepted BEGIN. -/
def Obligations.PositionClearedOnlyByReset : Prop :=
  ∀ s s', step s = .next s' → s'.sec.bitIndex < s.sec.bitIndex →
    s'.sec.bitIndex = 0 ∧
    (SecTurn s .reset .finish ∨
      ∃ tgt w rest, HostTurn s (.wr tgt .w32 w) rest .S 0x00 ∧ decodeSec w = .ok .secBegin)

/-! ## The line -/

/-- R211: an undriven line is HIGH, a line driven by one pad or by two that agree has that level; opposite drives
draw a level, afresh at every instant, and record the contention; nothing else records one. A draw is the value of an
opaque constant at the draw count, which then moves on (log entry 2). -/
def Obligations.LineResolution : Prop :=
  ∀ s s', s.phase = .line → step s = .next s' →
    (s.pri.pad.drive = none → secDrive s = none → s'.line = .high ∧ s'.contended = s.contended) ∧
    (∀ a, s.pri.pad.drive = some a → secDrive s = none → s'.line = a ∧ s'.contended = s.contended) ∧
    (∀ a, s.pri.pad.drive = none → secDrive s = some a → s'.line = a ∧ s'.contended = s.contended) ∧
    (∀ a, s.pri.pad.drive = some a → secDrive s = some a → s'.line = a ∧ s'.contended = s.contended) ∧
    (∀ a b, s.pri.pad.drive = some a → secDrive s = some b → a ≠ b →
      s'.line = Config.drawLevel s.draws ∧ s.draws < s'.draws ∧ s'.contended = true)

/-- R71, R258, R224, R67: the PRI sequencer changes nothing of the SEC unit or the line; the SEC unit's two contexts
change nothing of the PRI unit or the line; a host access changes at most the unit of the bank it addresses, and
never a pad, the line or the timer. R210, R212, R213: phase 1 applies to each unit's pad the effect that is due at the
instant, keeps one that is due at another, and changes nothing else of either unit or of the link. -/
def Obligations.UnitsShareOnlyTheLine : Prop :=
  (∀ s s', s.phase = .pri → step s = .next s' →
    s'.sec = s.sec ∧ s'.line = s.line ∧ s'.linePrev = s.linePrev ∧ s'.contended = s.contended ∧ s'.t = s.t) ∧
  (∀ s s', s.phase = .handler ∨ s.phase = .sec → step s = .next s' →
    s'.pri = s.pri ∧ s'.line = s.line ∧ s'.linePrev = s.linePrev ∧ s'.contended = s.contended ∧ s'.t = s.t) ∧
  (∀ s s' a rest bank off, HostTurn s a rest bank off → step s = .next s' →
    (bank = .P → s'.sec = s.sec) ∧ (bank = .S → s'.pri = s.pri) ∧
    s'.pri.pad = s.pri.pad ∧ s'.pri.padDue = s.pri.padDue ∧
    s'.sec.pad = s.sec.pad ∧ s'.sec.padDue = s.sec.padDue ∧
    s'.line = s.line ∧ s'.linePrev = s.linePrev ∧ s'.contended = s.contended ∧ s'.t = s.t ∧ s'.bus = rest) ∧
  (∀ s, s.phase = .pads → ∃ pri sec,
    step s = .next { s with phase := .line, pri := pri, sec := sec } ∧
    (∀ d, s.pri.padDue = some d → d.due = s.t →
      pri = { s.pri with pad := applyEffect d.effect s.pri.pad, padDue := none }) ∧
    ((∀ d, s.pri.padDue = some d → d.due ≠ s.t) → pri = s.pri) ∧
    (∀ d, s.par.secPresent = true → s.sec.padDue = some d → d.due = s.t →
      sec = { s.sec with pad := applyEffect d.effect s.sec.pad, padDue := none }) ∧
    ((s.par.secPresent = true → ∀ d, s.sec.padDue = some d → d.due ≠ s.t) → sec = s.sec)) ∧
  (∀ p, applyEffect (.setDirection .input) p = { dir := .input, latch := .high } ∧
    applyEffect (.setDirection .output) p = { dir := .output, latch := p.latch } ∧
    ∀ v, applyEffect (.writeLevel v) p = { dir := p.dir, latch := v })

/-- R210: in phase 4 an action of the SEC main loop (the poll, the start of the branch of each event class, a later
statement of a branch) and one of the PRI sequencer give the same state in either order. -/
def Obligations.UnitOrderInPhase4 : Prop :=
  ∀ s c skip p,
    (∀ b q, priAct c skip p (secAct b q s) = secAct b q (priAct c skip p s)) ∧
    priAct c skip p (pollEvent s) = pollEvent (priAct c skip p s) ∧
    (∀ b : EvtClass, ∃ m, exec (decodeEvt b.code) s = .next m ∧
      exec (decodeEvt b.code) (priAct c skip p s) = .next (priAct c skip p m)) ∧
    (∀ b, priAct c skip p (receiveBit b s) = receiveBit b (priAct c skip p s)) ∧
    priAct c skip p (startReply s) = startReply (priAct c skip p s)

/-- R52, R220, R51, R8, R210: the timer steps by exactly 1, at the end of an instant, and by nothing else; the end of
an instant changes nothing but it; a recorded contention stays; the parameters are constant. The phases of an instant
follow one another: a phase with an action due goes on, a phase with none passes to the next one and changes nothing
but that (the host's turn also fetches its line), and the first three pass on after their one step. How an instant is
cut into steps is the model's (log entry 1). -/
def Obligations.TimerAndConstants : Prop :=
  (∀ s s', step s = .next s' →
    s'.par = s.par ∧ (s.contended = true → s'.contended = true) ∧
    (s'.t ≠ s.t → s.phase = .host ∧ s.bus = []) ∧
    (s.phase = .pads → s'.phase = .line) ∧
    (s.phase = .line → s'.phase = .handler) ∧
    (s.phase = .handler → s'.phase = .sec) ∧
    (s.phase = .sec → ¬SecWaits s → s'.phase = .sec) ∧
    (s.phase = .pri → ¬PriWaits s → s'.phase = .pri) ∧
    (s.phase = .host → s.bus ≠ [] → s'.phase = .host)) ∧
  (∀ s, s.phase = .pads ∨ s.phase = .line → ∃ s', step s = .next s') ∧
  (∀ s, s.phase = .handler → s.par.secPresent = false ∨ s.sec.isrDueAt ≠ some s.t →
    step s = .next { s with phase := .sec }) ∧
  (∀ s, SecWaits s → step s = .next { s with phase := .pri }) ∧
  (∀ s, PriWaits s → ∃ bus prog, step s = .next { s with phase := .host, bus := bus, prog := prog }) ∧
  (∀ s, s.phase = .host → s.bus = [] → step s = .next { s with t := s.t + 1, phase := .pads })

/-! ## Arithmetic of the profile -/

/-- R101, R102, R180, R123: the pauses complete the slot; for T ≥ 1 the ceilings rise strictly, for T = 0 they do not;
a duration is classified by the ceilings T, 2T and 3T, a duration equal to a ceiling in the lower class and one above
the last as a Reset pulse; the calibration check is `wr ≤ floor(T/2)` and `sw ≤ floor(T/2)`. -/
def Obligations.ProfileArithmetic : Prop :=
  ∀ T,
    ((profile T).write1Active + (profile T).write1Pause = T ∧
      (profile T).write0Active + (profile T).write0Pause = 2 * T) ∧
    (1 ≤ T ↔ (profile T).write1DetectCeiling < (profile T).write0DetectCeiling ∧
      (profile T).write0DetectCeiling < (profile T).readDetectCeiling) ∧
    (∀ d : Word,
      (classify (profile T) d = .bit1 ↔ d.toNat ≤ T) ∧
      (classify (profile T) d = .bit0 ↔ T < d.toNat ∧ d.toNat ≤ 2 * T) ∧
      (classify (profile T) d = .read ↔ 2 * T < d.toNat ∧ d.toNat ≤ 3 * T) ∧
      (classify (profile T) d = .reset ↔ 3 * T < d.toNat)) ∧
    (∀ sw wr, calOk (profile T) sw wr = true ↔ wr ≤ T / 2 ∧ sw ≤ T / 2)

/-- R281, R168, R180: under R281's conditions every PRI pulse, measured with any two entry latencies in their range,
falls in its own class. -/
def Obligations.PulsesFallInTheirClasses : Prop :=
  ∀ p T, T < 2 ^ 16 → classifiesWell p T →
    ∀ first second (d : Word), p.isrLatMin ≤ first → first ≤ p.isrLatMax →
      p.isrLatMin ≤ second → second ≤ p.isrLatMax →
      (d.toNat + first = (pulses p T).write1Pulse + second → classify (profile T) d = .bit1) ∧
      (d.toNat + first = (pulses p T).write0Pulse + second → classify (profile T) d = .bit0) ∧
      (d.toNat + first = (pulses p T).readPulse + second → classify (profile T) d = .read) ∧
      (d.toNat + first = (pulses p T).resetPulse + second → classify (profile T) d = .reset)

/-- R287: the smallest T that meets every timing condition, for the table's two rows and both guard modes, and every
larger T meets them too. -/
def Obligations.MinimumSlot : Prop :=
  (∀ T, timingOk Params.defaults T ↔ 22 ≤ T) ∧
  (∀ T, timingOk { Params.defaults with guardMode := .sourceDisable } T ↔ 24 ≤ T) ∧
  (∀ T, timingOk
    { Params.defaults with isrLatMin := 0, isrLatMax := 6, pollLatMin := 0, pollLatMax := 10 } T ↔ 52 ≤ T) ∧
  (∀ T, timingOk
    { Params.defaults with
      guardMode := .sourceDisable, isrLatMin := 0, isrLatMax := 6, pollLatMin := 0, pollLatMax := 10 } T ↔
    54 ≤ T)

/-! ## Host registers -/

/-- R23, R37: a write of STATUS clears the flags whose bits are 1 (ERR with LASTERR), sets none, and changes nothing
else. -/
def Obligations.StatusWriteClears : Prop :=
  (∀ s tgt v rest, HostTurn s (.wr tgt .w32 v) rest .P 0x04 →
    step s = .next { s with
      bus := rest
      reply := { data := 0#32, error := false }
      pri := { s.pri with
        done := if v.getLsbD 3 then false else s.pri.done
        err := if v.getLsbD 4 then false else s.pri.err
        lastErr := if v.getLsbD 4 then .none else s.pri.lastErr } }) ∧
  (∀ s tgt v rest, HostTurn s (.wr tgt .w32 v) rest .S 0x04 →
    step s = .next { s with
      bus := rest
      reply := { data := 0#32, error := false }
      sec := { s.sec with
        rxOvf := if v.getLsbD 4 then false else s.sec.rxOvf
        err := if v.getLsbD 5 then false else s.sec.err
        lastErr := if v.getLsbD 5 then .none else s.sec.lastErr } })

/-- R24, R36, R83, R241: a write of CFG is refused with BUSY while a command runs or an event is pending; else it
stores the fields, recomputes the profile and clears READY, or detaches the handler. -/
def Obligations.CfgWrites : Prop :=
  (∀ s tgt v rest, HostTurn s (.wr tgt .w32 v) rest .P 0x08 →
    (s.pri.busy = true →
      step s = .next { s with
        bus := rest
        reply := { data := 0#32, error := false }
        pri := { s.pri with err := true, lastErr := .busy } }) ∧
    (s.pri.busy = false →
      step s = .next { s with
        bus := rest
        reply := { data := 0#32, error := false }
        pri := { s.pri with
          cfg := { T := v.extractLsb' 0 16, p2sBits := v.extractLsb' 16 6, s2pBits := v.extractLsb' 24 6 }
          ready := false
          prof := profile (v.extractLsb' 0 16).toNat } })) ∧
  (∀ s tgt v rest, HostTurn s (.wr tgt .w32 v) rest .S 0x08 →
    (s.sec.pending = true →
      step s = .next { s with
        bus := rest
        reply := { data := 0#32, error := false }
        sec := { s.sec with err := true, lastErr := .busy } }) ∧
    (s.sec.pending = false →
      step s = .next { s with
        bus := rest
        reply := { data := 0#32, error := false }
        sec := { s.sec with
          cfg := { T := v.extractLsb' 0 16, p2sBits := v.extractLsb' 16 6, s2pBits := v.extractLsb' 24 6 }
          active := false, irqLatch := false, isrDueAt := none, isrState := .idle
          prof := profile (v.extractLsb' 0 16).toNat } }))

/-- R25, R28, R38, R41: writes of TXDATA, TXNEXT and the two IE registers are accepted at any time. -/
def Obligations.DataAndEnableWrites : Prop :=
  (∀ s tgt v rest, HostTurn s (.wr tgt .w32 v) rest .P 0x0C →
    step s = .next { s with
      bus := rest, reply := { data := 0#32, error := false }, pri := { s.pri with txData := v } }) ∧
  (∀ s tgt v rest, HostTurn s (.wr tgt .w32 v) rest .P 0x18 →
    step s = .next { s with
      bus := rest
      reply := { data := 0#32, error := false }
      pri := { s.pri with doneIe := v.getLsbD 0, errIe := v.getLsbD 1 } }) ∧
  (∀ s tgt v rest, HostTurn s (.wr tgt .w32 v) rest .S 0x0C →
    step s = .next { s with
      bus := rest, reply := { data := 0#32, error := false }, sec := { s.sec with txNext := v } }) ∧
  (∀ s tgt v rest, HostTurn s (.wr tgt .w32 v) rest .S 0x18 →
    step s = .next { s with
      bus := rest
      reply := { data := 0#32, error := false }
      sec := { s.sec with rxIe := v.getLsbD 0, ovfIe := v.getLsbD 1, errIe := v.getLsbD 2 } })

/-- R44, R63: a write of a read-only register or of a reserved offset changes nothing, and raises no error; a
reserved offset reads 0. -/
def Obligations.ReadOnlyAndReserved : Prop :=
  (∀ s tgt v rest off, HostTurn s (.wr tgt .w32 v) rest .P off → off % 4 = 0 → off < 64 →
    off = 0x10 ∨ off = 0x14 ∨ off = 0x1C ∨ 0x20 ≤ off →
    step s = .next { s with bus := rest, reply := { data := 0#32, error := false } }) ∧
  (∀ s tgt v rest off, HostTurn s (.wr tgt .w32 v) rest .S off → off % 4 = 0 → off < 64 →
    off = 0x10 ∨ off = 0x14 ∨ 0x1C ≤ off →
    step s = .next { s with bus := rest, reply := { data := 0#32, error := false } }) ∧
  (∀ s tgt rest off, HostTurn s (.rd tgt .w32) rest .P off → off % 4 = 0 → 0x20 ≤ off → off < 64 →
    step s = .next { s with bus := rest, reply := { data := 0#32, error := false } }) ∧
  (∀ s tgt rest off, HostTurn s (.rd tgt .w32) rest .S off → off % 4 = 0 → 0x2C ≤ off → off < 64 →
    step s = .next { s with bus := rest, reply := { data := 0#32, error := false } })

/-- R61, R63, R197 and the registers' own rules: a read answers with the register's word and has no side effect.
CMD reads 0; the words of STATUS, CFG and IE are laid out as RegisterLayouts says. -/
def Obligations.ReadsHaveNoSideEffect : Prop :=
  (∀ s tgt rest off, HostTurn s (.rd tgt .w32) rest .P off → off % 4 = 0 →
    ∃ d, step s = .next { s with bus := rest, reply := { data := d, error := false } } ∧
      (off = 0x00 → d = 0#32) ∧ (off = 0x04 → d = s.pri.statusWord) ∧ (off = 0x08 → d = s.pri.cfg.toWord) ∧
      (off = 0x0C → d = s.pri.txData) ∧ (off = 0x10 → d = s.pri.rxData) ∧
      (off = 0x14 → d.toNat = min s.pri.swLat 0xFFFF + min s.pri.wrLat 0xFFFF * 2 ^ 16) ∧
      (off = 0x18 → d = s.pri.ieWord) ∧ (off = 0x1C → d = BitVec.ofNat 32 s.t)) ∧
  (∀ s tgt rest off, HostTurn s (.rd tgt .w32) rest .S off → off % 4 = 0 →
    ∃ d, step s = .next { s with bus := rest, reply := { data := d, error := false } } ∧
      (off = 0x00 → d = 0#32) ∧ (off = 0x04 → d = s.sec.statusWord) ∧ (off = 0x08 → d = s.sec.cfg.toWord) ∧
      (off = 0x0C → d = s.sec.txNext) ∧
      (off = 0x10 → (s.sec.rxFifo = [] → d = 0#32) ∧ ∀ p rest', s.sec.rxFifo = p :: rest' → d = p) ∧
      (off = 0x14 → d = s.sec.duration) ∧ (off = 0x18 → d = s.sec.ieWord) ∧ (off = 0x1C → d = s.sec.acc) ∧
      (off = 0x20 → d = s.sec.sendBuf) ∧ (off = 0x24 → d = s.sec.start) ∧
      (off = 0x28 → d = BitVec.ofNat 32 s.t))

/-- R22, R28, R35, R41, R83: where each field stands in the words of STATUS, IE and CFG; every other bit reads 0.
Six bits hold each count of `S.STATUS` whole in the states R57 and R48 allow (`RX_FIFO_DEPTH` is at most 63). -/
def Obligations.RegisterLayouts : Prop :=
  (∀ p : PriUnit, ∀ k, k < 32 → p.statusWord.getLsbD k =
    (if k = 0 then p.busy else if k = 1 then p.ready else if k = 2 then p.presence else if k = 3 then p.done
      else if k = 4 then p.err else if 8 ≤ k ∧ k < 12 then p.lastErr.code.getLsbD (k - 8) else false)) ∧
  (∀ u : SecUnit, ∀ k, k < 32 → u.statusWord.getLsbD k =
    (if k = 0 then u.active else if k = 1 then u.pending else if k = 2 then decide (u.isrState = .timing)
      else if k = 3 then decide (u.rxFifo ≠ []) else if k = 4 then u.rxOvf else if k = 5 then u.err
      else if 8 ≤ k ∧ k < 12 then u.lastErr.code.getLsbD (k - 8)
      else if 16 ≤ k ∧ k < 22 then u.bitIndex.testBit (k - 16)
      else if 24 ≤ k ∧ k < 30 then u.rxFifo.length.testBit (k - 24) else false)) ∧
  (∀ p : PriUnit, ∀ k, k < 32 →
    p.ieWord.getLsbD k = (if k = 0 then p.doneIe else if k = 1 then p.errIe else false)) ∧
  (∀ u : SecUnit, ∀ k, k < 32 →
    u.ieWord.getLsbD k =
      (if k = 0 then u.rxIe else if k = 1 then u.ovfIe else if k = 2 then u.errIe else false)) ∧
  (∀ w : Word, (CfgReg.ofWord w).toWord = w &&& 0x3F3FFFFF#32) ∧
  (∀ c : CfgReg, c.toWord.toNat = c.s2p * 2 ^ 24 + c.p2s * 2 ^ 16 + c.slot)

/-- R60, R62: where the banks lie in the host's addresses; an access that is not 32 bits wide, or not at a multiple of
4, is answered with the bus error: a read returns 0 and nothing of the engine changes. That the step goes on with the
error as the bus's answer is the model's reading (log entry 6). That an access outside both banks faults is the
model's choice (log entry 8). -/
def Obligations.BusError : Prop :=
  (∀ p off, Params.Legal p → off < 64 →
    locate p (.addr (p.pBase + off)) = some (.P, off) ∧ locate p (.addr (p.sBase + off)) = some (.S, off)) ∧
  (∀ s a rest bank off, HostTurn s a rest bank off → (∀ tgt m v, a ≠ .poll tgt m v) →
    a.width ≠ .w32 ∨ off % 4 ≠ 0 →
    step s = .next { s with bus := rest, reply := { data := 0#32, error := true } }) ∧
  (∀ s a rest, s.phase = .host → s.bus = a :: rest → locate s.par a.target = none →
    step s = .fault .outsideBanks)

/-- R94: a `poll` line is over when the word read satisfies it, and else waits for the next instant; `idle n` takes
`n` instants; the accesses of one line share an instant; a line is fetched in every instant once the sequencer has no
action due, also while a command runs, and a program that is over gives no access. That the lines stand in State is
the model's (log entry 5), and so is what follows a poll on its line (log entry 21). -/
def Obligations.HostLines : Prop :=
  (∀ s bank off m v rest, HostTurn s (.poll (.reg bank off) m v) rest bank off → off % 4 = 0 →
    (regRead bank off s &&& m = v →
      step s = .next { s with bus := rest, reply := { data := regRead bank off s, error := false } }) ∧
    (regRead bank off s &&& m ≠ v →
      step s = .next { s with
        bus := rest
        reply := { data := regRead bank off s, error := false }
        prog := .poll (.reg bank off) m v :: s.prog })) ∧
  (∀ s as rest, PriWaits s → s.prog = .accesses as :: rest →
    step s = .next { s with phase := .host, bus := as, prog := rest }) ∧
  (∀ s tgt m v rest, PriWaits s → s.prog = .poll tgt m v :: rest →
    step s = .next { s with phase := .host, bus := [.poll tgt m v], prog := rest }) ∧
  (∀ s n rest, PriWaits s → s.prog = .idle (n + 1) :: rest →
    step s = .next { s with phase := .host, bus := [], prog := .idle n :: rest }) ∧
  (∀ s rest, PriWaits s → s.prog = .idle 0 :: rest → step s = step { s with prog := rest }) ∧
  (∀ s, PriWaits s → s.prog = [] → step s = .next { s with phase := .host, bus := [] })

/-- R244, R245: the two interrupt outputs, in the bits of the registers the host reads. -/
def Obligations.InterruptOutputs : Prop :=
  ∀ s,
    (priIrq s = true ↔
      ((readPri .status s).getLsbD 3 = true ∧ (readPri .ie s).getLsbD 0 = true) ∨
      ((readPri .status s).getLsbD 4 = true ∧ (readPri .ie s).getLsbD 1 = true)) ∧
    (s.par.secPresent = true → (secIrq s = true ↔
      ((readSec .status s).getLsbD 3 = true ∧ (readSec .ie s).getLsbD 0 = true) ∨
      ((readSec .status s).getLsbD 4 = true ∧ (readSec .ie s).getLsbD 1 = true) ∨
      ((readSec .status s).getLsbD 5 = true ∧ (readSec .ie s).getLsbD 2 = true)))

/-! ## What only certain events change -/

/-- R103: a profile changes only by an accepted write of its unit's CFG, which recomputes all of it from the new T. -/
def Obligations.ProfileOnlyByCfgWrite : Prop :=
  ∀ s s', step s = .next s' →
    (s'.pri.prof ≠ s.pri.prof →
      ∃ tgt v rest, HostTurn s (.wr tgt .w32 v) rest .P 0x08 ∧ s'.pri.prof = profile (v.extractLsb' 0 16).toNat) ∧
    (s'.sec.prof ≠ s.sec.prof →
      ∃ tgt v rest, HostTurn s (.wr tgt .w32 v) rest .S 0x08 ∧ s'.sec.prof = profile (v.extractLsb' 0 16).toNat)

/-- R132, R294: PRESENCE changes only at the sample of a reset phase, to what the line shows then. -/
def Obligations.PresenceOnlyAtSample : Prop :=
  ∀ s s', step s = .next s' → s'.pri.presence ≠ s.pri.presence →
    (∃ c skip, PriTurn s c skip (.rst .sample)) ∧ (s'.pri.presence = true ↔ s.line = .low)

/-- R26, R128, R290: `P.RXDATA` changes only when a READ completes; bits at and above the width are then 0 unless
it is the sentinel of a READ that found no device. -/
def Obligations.RxDataOnlyAtReadEnd : Prop :=
  ∀ s s', PriInv s → step s = .next s' → s'.pri.rxData ≠ s.pri.rxData →
    (∃ skip p, PriTurn s .read skip p) ∧ s'.pri.seq = .idle ∧ s'.pri.done = true ∧
    ((s'.pri.rxData = 0xFFFFFFFF#32 ∧ s.pri.presence = false) ∨
      ∀ k, s.pri.cfg.s2p ≤ k → s'.pri.rxData.getLsbD k = false)

/-- R130, R189, R216: nothing but its own statement moves a command or a response: while its next action lies ahead,
no step changes where it is or when it goes on. -/
def Obligations.NotCancelled : Prop :=
  (∀ s s' c skip p due, PriInv s → s.pri.seq = .running c skip p due → step s = .next s' →
    ¬(s.phase = .pri ∧ due = s.t) → s'.pri.seq = s.pri.seq) ∧
  (∀ s s' b p due, s.sec.resp = .responding b p due → step s = .next s' →
    ¬(s.phase = .sec ∧ due = s.t) → s'.sec.resp = s.sec.resp)

/-! ## No SEC unit -/

/-- R198, R50: without a SEC unit every host access to bank S is refused, no step changes the SEC's state, and it
neither drives the line nor raises its interrupt output. That its fields are kept still is the model's form of a unit
that is not there (log entry 7). -/
def Obligations.AbsentSec : Prop :=
  (∀ s a rest off, s.par.secPresent = false → s.phase = .host → s.bus = a :: rest →
    locate s.par a.target = some (.S, off) → step s = .refused .secAbsent) ∧
  (∀ s s', s.par.secPresent = false → step s = .next s' → s'.sec = s.sec) ∧
  (∀ s, s.par.secPresent = false → secDrive s = none ∧ secIrq s = false)

/-- R279, R133, R211: without a SEC unit every presence sample finds none. -/
def Obligations.AbsentSecNoPresence : Prop :=
  ∀ s s' c skip, s.par.secPresent = false → TimeInv s → PadInv s → LineInv s →
    PriTurn s c skip (.rst .sample) → step s = .next s' → s'.pri.presence = false

/-! ## Invariants and reset -/

/-- R56, R57, R48, R195, R36, R189, R167: the SEC unit's invariant is kept by every step from every state that has
it. -/
def Obligations.SecInvKept : Prop := ∀ s s', SecInv s → step s = .next s' → SecInv s'

/-- R22, R31, R32, R120, R123: the PRI unit's invariant is kept by every step from every state that has it. -/
def Obligations.PriInvKept : Prop := ∀ s s', PriInv s → step s = .next s' → PriInv s'

/-- R258, R210: no action that is due is passed by: every next action of a unit stays at an instant, and in a phase,
that has not passed. -/
def Obligations.NoActionPassedBy : Prop :=
  ∀ s s', s.par.Legal → TimeInv s → step s = .next s' → TimeInv s'

/-- R58, R134, R187, R274: each unit has at most one pad effect outstanding, and the pads stay where the pseudocode
has put them; a SEC pad is IN outside a branch. -/
def Obligations.PadInvKept : Prop :=
  ∀ s s', s.par.Legal → SecInv s → PriInv s → TimeInv s → PadInv s → step s = .next s' → PadInv s'

/-- R51, R210, R211: from phase 3 of an instant on the line is what the pads give it, and `linePrev` is its latest
settled level. -/
def Obligations.LineInvKept : Prop := ∀ s s', LineInv s → step s = .next s' → LineInv s'

/-- R296: in a quiescent link with the line at rest, every step but a host access leaves both units, the line and
the draws as they are and the link quiescent. -/
def Obligations.QuiescentStaysQuiescent : Prop :=
  ∀ s s', Quiescent s → LineAtRest s → s.bus = [] → step s = .next s' →
    s'.pri = s.pri ∧ s'.sec = s.sec ∧ s'.line = s.line ∧ s'.linePrev = s.linePrev ∧
    s'.contended = s.contended ∧ s'.draws = s.draws ∧ Quiescent s' ∧ LineAtRest s'

/-- Every invariant of the model holds right after reset, whatever the parameters, which are legal. The values of
`par`, `phase` and `padDue` at reset are the model's (log entries 4, 1 and 14). -/
def Obligations.InvariantsAtReset : Prop :=
  State.reset.par.Legal ∧ SecInv State.reset ∧ PriInv State.reset ∧ TimeInv State.reset ∧ PadInv State.reset ∧
  LineInv State.reset ∧ CalInv State.reset

/-- R271: the reset value of every piece of state the table lists. -/
def Obligations.ResetValues : Prop :=
  let s := State.reset
  (s.t = 0 ∧ s.line = .high ∧ s.linePrev = .high ∧ s.contended = false ∧ readPri .now s = 0#32 ∧
    readSec .now s = 0#32) ∧
  (readPri .cmd s = 0#32 ∧ readPri .status s = 0#32 ∧ readPri .cfg s = 0x50#32 ∧ readPri .txData s = 0#32 ∧
    readPri .rxData s = 0#32 ∧ readPri .cal s = 0#32 ∧ readPri .ie s = 0#32) ∧
  (s.pri.pad = { dir := .input, latch := .high } ∧ s.pri.seq = .idle ∧
    s.pri.txSnap = 0#32 ∧ s.pri.rxAcc = 0#32 ∧ s.pri.slot = 0 ∧ s.pri.calT0 = 0#32 ∧ s.pri.calT1 = 0#32 ∧
    s.pri.calT2 = 0#32 ∧ s.pri.prof = profile 80 ∧ s.pri.swLat = 0 ∧ s.pri.wrLat = 0) ∧
  (readSec .cmd s = 0#32 ∧ readSec .status s = 0#32 ∧ readSec .cfg s = 0x50#32 ∧ readSec .txNext s = 0#32 ∧
    readSec .rxData s = 0#32 ∧ readSec .duration s = 0#32 ∧ readSec .ie s = 0#32 ∧ readSec .acc s = 0#32 ∧
    readSec .sendBuf s = 0#32 ∧ readSec .start s = 0#32) ∧
  (s.sec.isrState = .idle ∧ s.sec.start = 0#32 ∧ s.sec.irqLatch = false ∧ s.sec.isrDueAt = none ∧
    s.sec.pending = false ∧ s.sec.duration = 0#32 ∧ s.sec.pendSetAt = 0 ∧ s.sec.pollAt = 0 ∧
    s.sec.bitIndex = 0 ∧ s.sec.acc = 0#32 ∧ s.sec.sendBuf = 0#32 ∧ s.sec.rxFifo = [] ∧ s.sec.resp = .idle ∧
    s.sec.pad = { dir := .input, latch := .high } ∧ s.sec.prof = profile 80) ∧
  (priIrq s = false ∧ secIrq s = false)

end
end

