-- ==== Sys2Proof/Laws/Config.lean ====
section
/-! SUPPORT. The model parameters and the draws: every legal choice of parameters is one `legalise` can give, and
every draw lies in its range. -/

namespace Sys2Proof

theorem Params.legalise_legal (r : Params) : r.legalise.Legal := by
  unfold Params.legalise Params.Legal
  simp only
  refine ⟨?_, ?_, ?_, ?_, ?_, ?_, ?_, ?_, ?_, ?_, ?_, ?_, ?_, ?_, ?_⟩ <;>
    (try split) <;> omega

theorem Params.legalise_of_legal (p : Params) (h : p.Legal) : p.legalise = p := by
  obtain ⟨h1, h2, h3, h4, h5, h6, h7, h8, h9, h10, h11, h12, h13, h14, h15⟩ := h
  cases p
  simp only [Params.legalise, Params.mk.injEq] at *
  refine ⟨trivial, ?_, ?_, trivial, ?_, ?_, trivial, ?_, trivial, ?_, ?_, ?_, trivial, trivial, ?_, ?_, ?_⟩ <;>
    (try split) <;> omega

theorem Config.params_legal : Config.params.Legal := Params.legalise_legal _

theorem Config.drawIn_lower (lo hi n : Nat) : lo ≤ Config.drawIn lo hi n := by
  unfold Config.drawIn
  split <;> omega

theorem Config.drawIn_upper (lo hi n : Nat) (h : lo ≤ hi) : Config.drawIn lo hi n ≤ hi := by
  unfold Config.drawIn
  split
  · exact h
  · have := Nat.mod_lt (Config.drawNat n) (show 0 < hi - lo + 1 by omega)
    omega

/-- A range of one value leaves no choice. -/
theorem Config.drawIn_self (lo n : Nat) : Config.drawIn lo lo n = lo := by simp [Config.drawIn]

theorem Config.drawIn_bounds (lo hi n : Nat) (h : lo ≤ hi) :
    lo ≤ Config.drawIn lo hi n ∧ Config.drawIn lo hi n ≤ hi :=
  ⟨Config.drawIn_lower lo hi n, Config.drawIn_upper lo hi n h⟩

end Sys2Proof
end

