-- ==== Sys2Proof/Laws/State.lean ====
section
/-! SUPPORT. What each named update of the state does to each field: all true by rfl, for simp. -/

namespace Sys2Proof.Machine

/-! `State.withPri` -/

@[simp] theorem State.withPri_par (p : PriUnit) (s : State) : (s.withPri p).par = s.par := rfl
@[simp] theorem State.withPri_t (p : PriUnit) (s : State) : (s.withPri p).t = s.t := rfl
@[simp] theorem State.withPri_line (p : PriUnit) (s : State) : (s.withPri p).line = s.line := rfl
@[simp] theorem State.withPri_linePrev (p : PriUnit) (s : State) : (s.withPri p).linePrev = s.linePrev := rfl
@[simp] theorem State.withPri_contended (p : PriUnit) (s : State) : (s.withPri p).contended = s.contended := rfl
@[simp] theorem State.withPri_pri (p : PriUnit) (s : State) : (s.withPri p).pri = p := rfl
@[simp] theorem State.withPri_sec (p : PriUnit) (s : State) : (s.withPri p).sec = s.sec := rfl
@[simp] theorem State.withPri_draws (p : PriUnit) (s : State) : (s.withPri p).draws = s.draws := rfl
@[simp] theorem State.withPri_phase (p : PriUnit) (s : State) : (s.withPri p).phase = s.phase := rfl
@[simp] theorem State.withPri_prog (p : PriUnit) (s : State) : (s.withPri p).prog = s.prog := rfl
@[simp] theorem State.withPri_bus (p : PriUnit) (s : State) : (s.withPri p).bus = s.bus := rfl
@[simp] theorem State.withPri_reply (p : PriUnit) (s : State) : (s.withPri p).reply = s.reply := rfl
@[simp] theorem State.withPri_withPri (p p' : PriUnit) (s : State) : (s.withPri p).withPri p' = s.withPri p' := rfl

/-! `State.withSec` -/

@[simp] theorem State.withSec_par (u : SecUnit) (s : State) : (s.withSec u).par = s.par := rfl
@[simp] theorem State.withSec_t (u : SecUnit) (s : State) : (s.withSec u).t = s.t := rfl
@[simp] theorem State.withSec_line (u : SecUnit) (s : State) : (s.withSec u).line = s.line := rfl
@[simp] theorem State.withSec_linePrev (u : SecUnit) (s : State) : (s.withSec u).linePrev = s.linePrev := rfl
@[simp] theorem State.withSec_contended (u : SecUnit) (s : State) : (s.withSec u).contended = s.contended := rfl
@[simp] theorem State.withSec_pri (u : SecUnit) (s : State) : (s.withSec u).pri = s.pri := rfl
@[simp] theorem State.withSec_sec (u : SecUnit) (s : State) : (s.withSec u).sec = u := rfl
@[simp] theorem State.withSec_draws (u : SecUnit) (s : State) : (s.withSec u).draws = s.draws := rfl
@[simp] theorem State.withSec_phase (u : SecUnit) (s : State) : (s.withSec u).phase = s.phase := rfl
@[simp] theorem State.withSec_prog (u : SecUnit) (s : State) : (s.withSec u).prog = s.prog := rfl
@[simp] theorem State.withSec_bus (u : SecUnit) (s : State) : (s.withSec u).bus = s.bus := rfl
@[simp] theorem State.withSec_reply (u : SecUnit) (s : State) : (s.withSec u).reply = s.reply := rfl
@[simp] theorem State.withSec_withSec (u u' : SecUnit) (s : State) : (s.withSec u).withSec u' = s.withSec u' := rfl

/-! `State.withPhase` -/

@[simp] theorem State.withPhase_par (ph : Phase) (s : State) : (s.withPhase ph).par = s.par := rfl
@[simp] theorem State.withPhase_t (ph : Phase) (s : State) : (s.withPhase ph).t = s.t := rfl
@[simp] theorem State.withPhase_line (ph : Phase) (s : State) : (s.withPhase ph).line = s.line := rfl
@[simp] theorem State.withPhase_linePrev (ph : Phase) (s : State) : (s.withPhase ph).linePrev = s.linePrev := rfl
@[simp] theorem State.withPhase_contended (ph : Phase) (s : State) : (s.withPhase ph).contended = s.contended := rfl
@[simp] theorem State.withPhase_pri (ph : Phase) (s : State) : (s.withPhase ph).pri = s.pri := rfl
@[simp] theorem State.withPhase_sec (ph : Phase) (s : State) : (s.withPhase ph).sec = s.sec := rfl
@[simp] theorem State.withPhase_draws (ph : Phase) (s : State) : (s.withPhase ph).draws = s.draws := rfl
@[simp] theorem State.withPhase_phase (ph : Phase) (s : State) : (s.withPhase ph).phase = ph := rfl
@[simp] theorem State.withPhase_prog (ph : Phase) (s : State) : (s.withPhase ph).prog = s.prog := rfl
@[simp] theorem State.withPhase_bus (ph : Phase) (s : State) : (s.withPhase ph).bus = s.bus := rfl
@[simp] theorem State.withPhase_reply (ph : Phase) (s : State) : (s.withPhase ph).reply = s.reply := rfl
@[simp] theorem State.withPhase_withPhase (ph ph' : Phase) (s : State) : (s.withPhase ph).withPhase ph' = s.withPhase ph' := rfl

/-! `State.withBus` -/

@[simp] theorem State.withBus_par (b : List Access) (s : State) : (s.withBus b).par = s.par := rfl
@[simp] theorem State.withBus_t (b : List Access) (s : State) : (s.withBus b).t = s.t := rfl
@[simp] theorem State.withBus_line (b : List Access) (s : State) : (s.withBus b).line = s.line := rfl
@[simp] theorem State.withBus_linePrev (b : List Access) (s : State) : (s.withBus b).linePrev = s.linePrev := rfl
@[simp] theorem State.withBus_contended (b : List Access) (s : State) : (s.withBus b).contended = s.contended := rfl
@[simp] theorem State.withBus_pri (b : List Access) (s : State) : (s.withBus b).pri = s.pri := rfl
@[simp] theorem State.withBus_sec (b : List Access) (s : State) : (s.withBus b).sec = s.sec := rfl
@[simp] theorem State.withBus_draws (b : List Access) (s : State) : (s.withBus b).draws = s.draws := rfl
@[simp] theorem State.withBus_phase (b : List Access) (s : State) : (s.withBus b).phase = s.phase := rfl
@[simp] theorem State.withBus_prog (b : List Access) (s : State) : (s.withBus b).prog = s.prog := rfl
@[simp] theorem State.withBus_bus (b : List Access) (s : State) : (s.withBus b).bus = b := rfl
@[simp] theorem State.withBus_reply (b : List Access) (s : State) : (s.withBus b).reply = s.reply := rfl
@[simp] theorem State.withBus_withBus (b b' : List Access) (s : State) : (s.withBus b).withBus b' = s.withBus b' := rfl

/-! `State.withProg` -/

@[simp] theorem State.withProg_par (p : List HostLine) (s : State) : (s.withProg p).par = s.par := rfl
@[simp] theorem State.withProg_t (p : List HostLine) (s : State) : (s.withProg p).t = s.t := rfl
@[simp] theorem State.withProg_line (p : List HostLine) (s : State) : (s.withProg p).line = s.line := rfl
@[simp] theorem State.withProg_linePrev (p : List HostLine) (s : State) : (s.withProg p).linePrev = s.linePrev := rfl
@[simp] theorem State.withProg_contended (p : List HostLine) (s : State) : (s.withProg p).contended = s.contended := rfl
@[simp] theorem State.withProg_pri (p : List HostLine) (s : State) : (s.withProg p).pri = s.pri := rfl
@[simp] theorem State.withProg_sec (p : List HostLine) (s : State) : (s.withProg p).sec = s.sec := rfl
@[simp] theorem State.withProg_draws (p : List HostLine) (s : State) : (s.withProg p).draws = s.draws := rfl
@[simp] theorem State.withProg_phase (p : List HostLine) (s : State) : (s.withProg p).phase = s.phase := rfl
@[simp] theorem State.withProg_prog (p : List HostLine) (s : State) : (s.withProg p).prog = p := rfl
@[simp] theorem State.withProg_bus (p : List HostLine) (s : State) : (s.withProg p).bus = s.bus := rfl
@[simp] theorem State.withProg_reply (p : List HostLine) (s : State) : (s.withProg p).reply = s.reply := rfl
@[simp] theorem State.withProg_withProg (p p' : List HostLine) (s : State) : (s.withProg p).withProg p' = s.withProg p' := rfl

/-! `State.withReply` -/

@[simp] theorem State.withReply_par (r : BusReply) (s : State) : (s.withReply r).par = s.par := rfl
@[simp] theorem State.withReply_t (r : BusReply) (s : State) : (s.withReply r).t = s.t := rfl
@[simp] theorem State.withReply_line (r : BusReply) (s : State) : (s.withReply r).line = s.line := rfl
@[simp] theorem State.withReply_linePrev (r : BusReply) (s : State) : (s.withReply r).linePrev = s.linePrev := rfl
@[simp] theorem State.withReply_contended (r : BusReply) (s : State) : (s.withReply r).contended = s.contended := rfl
@[simp] theorem State.withReply_pri (r : BusReply) (s : State) : (s.withReply r).pri = s.pri := rfl
@[simp] theorem State.withReply_sec (r : BusReply) (s : State) : (s.withReply r).sec = s.sec := rfl
@[simp] theorem State.withReply_draws (r : BusReply) (s : State) : (s.withReply r).draws = s.draws := rfl
@[simp] theorem State.withReply_phase (r : BusReply) (s : State) : (s.withReply r).phase = s.phase := rfl
@[simp] theorem State.withReply_prog (r : BusReply) (s : State) : (s.withReply r).prog = s.prog := rfl
@[simp] theorem State.withReply_bus (r : BusReply) (s : State) : (s.withReply r).bus = s.bus := rfl
@[simp] theorem State.withReply_reply (r : BusReply) (s : State) : (s.withReply r).reply = r := rfl
@[simp] theorem State.withReply_withReply (r r' : BusReply) (s : State) : (s.withReply r).withReply r' = s.withReply r' := rfl

/-! `State.afterDraw` -/

@[simp] theorem State.afterDraw_par (s : State) : s.afterDraw.par = s.par := rfl
@[simp] theorem State.afterDraw_t (s : State) : s.afterDraw.t = s.t := rfl
@[simp] theorem State.afterDraw_line (s : State) : s.afterDraw.line = s.line := rfl
@[simp] theorem State.afterDraw_linePrev (s : State) : s.afterDraw.linePrev = s.linePrev := rfl
@[simp] theorem State.afterDraw_contended (s : State) : s.afterDraw.contended = s.contended := rfl
@[simp] theorem State.afterDraw_pri (s : State) : s.afterDraw.pri = s.pri := rfl
@[simp] theorem State.afterDraw_sec (s : State) : s.afterDraw.sec = s.sec := rfl
@[simp] theorem State.afterDraw_draws (s : State) : s.afterDraw.draws = s.draws + 1 := rfl
@[simp] theorem State.afterDraw_phase (s : State) : s.afterDraw.phase = s.phase := rfl
@[simp] theorem State.afterDraw_prog (s : State) : s.afterDraw.prog = s.prog := rfl
@[simp] theorem State.afterDraw_bus (s : State) : s.afterDraw.bus = s.bus := rfl
@[simp] theorem State.afterDraw_reply (s : State) : s.afterDraw.reply = s.reply := rfl

end Sys2Proof.Machine
end

