-- ==== Sys2Proof/Laws/Ops.lean ====
section
/-! SUPPORT. One lemma per shared operation: everything it can do, as an update of the state. -/

namespace Sys2Proof.Machine

/-! Errors and the trap. -/

theorem raisePri_eq (e : ErrCode) (s : State) :
    raisePri e s = s.withPri { s.pri with err := true, lastErr := e } := rfl

theorem raiseSec_eq (e : ErrCode) (s : State) :
    raiseSec e s = s.withSec { s.sec with err := true, lastErr := e } := rfl

theorem handlerEntry_eq (s : State) :
    handlerEntry s = s.withSec { s.sec with irqLatch := false, isrDueAt := none } := rfl

theorem handlerReturn_eq (s : State) : handlerReturn s = s.withPhase .sec := rfl

theorem scheduleHandler_eq (base : Nat) (s : State) :
    scheduleHandler base s =
      (s.withSec { s.sec with
        isrDueAt := some (base + Config.drawIn s.par.isrLatMin s.par.isrLatMax s.draws) }).afterDraw := rfl

/-! The primitives of the PRI unit. -/

theorem priThen_eq (d : Nat) (c : PriCmd) (sk : Bool) (n : PriPoint) (s : State) :
    priThen d c sk n s = s.withPri { s.pri with seq := .running c sk n (s.t + d) } := rfl

theorem priSetDirection_eq (dir : Dir) (c : PriCmd) (sk : Bool) (n : PriPoint) (s : State) :
    priSetDirection dir c sk n s = s.withPri { s.pri with
      padDue := some ⟨.setDirection dir, s.t + s.par.priLatSwitch⟩
      seq := .running c sk n (s.t + s.par.priLatSwitch) } := rfl

theorem priWriteLevel_eq (v : Level) (c : PriCmd) (sk : Bool) (n : PriPoint) (s : State) :
    priWriteLevel v c sk n s = s.withPri { s.pri with
      padDue := some ⟨.writeLevel v, s.t + s.par.priLatWrite⟩
      seq := .running c sk n (s.t + s.par.priLatWrite) } := rfl

theorem priReadLevel_eq (c : PriCmd) (sk : Bool) (n : PriPoint) (s : State) :
    priReadLevel c sk n s =
      s.withPri { s.pri with seq := .running c sk n (s.t + s.par.priLatRead) } := rfl

theorem priBusyWait_eq (d : Nat) (c : PriCmd) (sk : Bool) (n : PriPoint) (s : State) :
    priBusyWait d c sk n s = s.withPri { s.pri with seq := .running c sk n (s.t + d) } := rfl

theorem priGoto_eq (c : PriCmd) (sk : Bool) (n : PriPoint) (s : State) :
    priGoto c sk n s = s.withPri { s.pri with seq := .running c sk n s.t } := rfl

theorem priComplete_eq (s : State) :
    priComplete s = s.withPri { s.pri with seq := .idle, busy := false, done := true } := rfl

theorem acceptPri_eq (c : PriCmd) (sk : Bool) (s : State) :
    acceptPri c sk s = s.withPri { s.pri with
      busy := true
      done := false
      ready := if c = .init then false else s.pri.ready
      txSnap := if c = .write then s.pri.txData else s.pri.txSnap
      seq := .running c sk .start (s.t + 1) } := rfl

/-- A PRI command is turned away by the first check that fails, or accepted. -/
theorem priCommand_cases (c : PriCmd) (sk : Bool) (s : State) :
    (s.pri.busy = true ∧ priCommand c sk s = raisePri .busy s) ∨
    (s.pri.busy = false ∧ c ≠ .init ∧ s.pri.ready = false ∧ priCommand c sk s = raisePri .notReady s) ∨
    (s.pri.busy = false ∧ c = .init ∧ s.pri.cfg.legal = false ∧ priCommand c sk s = raisePri .cfg s) ∨
    (s.pri.busy = false ∧ (c ≠ .init → s.pri.ready = true) ∧ (c = .init → s.pri.cfg.legal = true) ∧
      priCommand c sk s = acceptPri c sk s) := by
  unfold priCommand
  split
  · exact .inl ⟨‹_›, rfl⟩
  · rename_i hb
    simp only [Bool.not_eq_true] at hb
    split
    · rename_i h; exact .inr (.inl ⟨hb, h.1, h.2, rfl⟩)
    · rename_i hr
      split
      · rename_i h; exact .inr (.inr (.inl ⟨hb, h.1, h.2, rfl⟩))
      · rename_i hc
        refine .inr (.inr (.inr ⟨hb, fun h => ?_, fun h => ?_, rfl⟩))
        · cases hx : s.pri.ready
          · exact absurd ⟨h, hx⟩ hr
          · rfl
        · cases hx : s.pri.cfg.legal
          · exact absurd ⟨h, hx⟩ hc
          · rfl

/-- A PRI command changes the PRI unit alone. -/
theorem priCommand_pri (c : PriCmd) (sk : Bool) (s : State) :
    priCommand c sk s = s.withPri (priCommand c sk s).pri := by
  rcases priCommand_cases c sk s with ⟨-, h⟩ | ⟨-, -, -, h⟩ | ⟨-, -, -, h⟩ | ⟨-, -, -, h⟩ <;> rw [h] <;> rfl

/-! The sequencer changes the PRI unit alone. -/

theorem finishInit_pri (s : State) : finishInit s = s.withPri (finishInit s).pri := by
  unfold finishInit
  dsimp only
  split <;> rfl

theorem priAct_pri (c : PriCmd) (sk : Bool) (p : PriPoint) (s : State) :
    priAct c sk p s = s.withPri (priAct c sk p s).pri := by
  cases p with
  | start => cases c <;> rfl
  | cal q =>
    cases q with
    | switch k => simp only [priAct, calAct]; split <;> rfl
    | write k =>
      simp only [priAct, calAct]
      split
      · rfl
      · rw [finishInit_pri]; rfl
    | _ => rfl
  | rst q =>
    cases q with
    | finish => cases c <;> simp only [priAct, resetAct, afterReset] <;> first | rfl | (split <;> rfl)
    | _ => rfl
  | wr i q =>
    cases q with
    | head => simp only [priAct, writeAct]; split <;> rfl
    | _ => rfl
  | rd i q =>
    cases q with
    | head => simp only [priAct, readAct]; split <;> rfl
    | _ => rfl

/-! The primitives and the release of the SEC unit. -/

theorem secThen_eq (d : Nat) (b : EvtClass) (n : SecPoint) (s : State) :
    secThen d b n s = s.withSec { s.sec with resp := .responding b n (s.t + d) } := rfl

theorem secSetDirection_eq (dir : Dir) (b : EvtClass) (n : SecPoint) (s : State) :
    secSetDirection dir b n s = s.withSec { s.sec with
      padDue := some ⟨.setDirection dir, s.t + s.par.secLatSwitch⟩
      resp := .responding b n (s.t + s.par.secLatSwitch) } := rfl

theorem secWriteLevel_eq (v : Level) (b : EvtClass) (n : SecPoint) (s : State) :
    secWriteLevel v b n s = s.withSec { s.sec with
      padDue := some ⟨.writeLevel v, s.t + s.par.secLatWrite⟩
      resp := .responding b n (s.t + s.par.secLatWrite) } := rfl

theorem secBusyWait_eq (d : Nat) (b : EvtClass) (n : SecPoint) (s : State) :
    secBusyWait d b n s = s.withSec { s.sec with resp := .responding b n (s.t + d) } := rfl

/-- The release clears the flag; with the source disabled it also schedules a request latched meanwhile. -/
theorem clearPending_cases (s : State) :
    (¬(s.par.guardMode = .sourceDisable ∧ s.sec.irqLatch = true) ∧
      clearPending s = s.withSec { s.sec with pending := false, resp := .idle }) ∨
    (s.par.guardMode = .sourceDisable ∧ s.sec.irqLatch = true ∧
      clearPending s = (s.withSec { s.sec with
        pending := false
        resp := .idle
        isrDueAt := some (s.t + 1 + Config.drawIn s.par.isrLatMin s.par.isrLatMax s.draws) }).afterDraw) := by
  unfold clearPending
  split
  · rename_i h; exact .inr ⟨h.1, h.2, rfl⟩
  · rename_i h; exact .inl ⟨h, rfl⟩

theorem deliver_cases (s : State) :
    (s.sec.rxFifo.length < s.par.rxFifoDepth ∧
      deliver s = s.withSec { s.sec with rxFifo := s.sec.rxFifo ++ [s.sec.acc] }) ∨
    (s.par.rxFifoDepth ≤ s.sec.rxFifo.length ∧ deliver s = s.withSec { s.sec with rxOvf := true }) := by
  unfold deliver
  split
  · exact .inl ⟨‹_›, rfl⟩
  · exact .inr ⟨by omega, rfl⟩

theorem takeBit_eq (b : Bool) (s : State) :
    takeBit b s = s.withSec { s.sec with
      acc := s.sec.acc ||| (if b then (1#32) <<< s.sec.bitIndex else 0#32)
      bitIndex := s.sec.bitIndex + 1 } := rfl

/-- A bit is taken in the middle of a packet, completes one, or is dropped. -/
theorem receiveBit_cases (b : Bool) (s : State) :
    (s.sec.bitIndex + 1 < s.sec.cfg.p2s ∧ receiveBit b s = clearPending (takeBit b s)) ∨
    (s.sec.bitIndex + 1 = s.sec.cfg.p2s ∧ receiveBit b s = clearPending (deliver (takeBit b s))) ∨
    (s.sec.cfg.p2s ≤ s.sec.bitIndex ∧ receiveBit b s = clearPending s) := by
  unfold receiveBit deliverIfComplete
  split
  · split
    · rename_i h; exact .inr (.inl ⟨h, rfl⟩)
    · rename_i h h'
      refine .inl ⟨?_, rfl⟩
      have : s.sec.bitIndex + 1 ≠ s.sec.cfg.p2s := h'
      omega
  · exact .inr (.inr ⟨by omega, rfl⟩)

theorem snapshotSendBuf_eq (s : State) :
    snapshotSendBuf s =
      s.withSec { s.sec with sendBuf := if s.sec.bitIndex = 0 then s.sec.txNext else s.sec.sendBuf } := by
  unfold snapshotSendBuf
  split
  · rename_i h; simp only [h]
  · rfl

/-- A read request below the SEC's width is answered with the bit; beyond it only the flag is cleared. -/
theorem startReply_cases (s : State) :
    (s.sec.bitIndex < s.sec.cfg.s2p ∧
      startReply s = secSetDirection .output .read
        (.drive (packetLevel (snapshotSendBuf s).sec.sendBuf s.sec.bitIndex)) (snapshotSendBuf s)) ∨
    (s.sec.cfg.s2p ≤ s.sec.bitIndex ∧ startReply s = clearPending (snapshotSendBuf s)) := by
  have hb : (snapshotSendBuf s).sec.bitIndex = s.sec.bitIndex := by rw [snapshotSendBuf_eq]; rfl
  have hc : (snapshotSendBuf s).sec.cfg = s.sec.cfg := by rw [snapshotSendBuf_eq]; rfl
  unfold startReply
  dsimp only
  rw [hb, hc]
  by_cases h : s.sec.bitIndex < s.sec.cfg.s2p
  · exact .inl ⟨h, if_pos h⟩
  · exact .inr ⟨by omega, if_neg h⟩

/-- Everything a response action can leave changed: the SEC unit and the draw count. -/
theorem clearPending_frame (s : State) :
    (clearPending s).par = s.par ∧ (clearPending s).t = s.t ∧ (clearPending s).line = s.line ∧
    (clearPending s).linePrev = s.linePrev ∧ (clearPending s).contended = s.contended ∧
    (clearPending s).pri = s.pri ∧ (clearPending s).phase = s.phase ∧ (clearPending s).prog = s.prog ∧
    (clearPending s).bus = s.bus ∧ (clearPending s).reply = s.reply := by
  rcases clearPending_cases s with ⟨-, h⟩ | ⟨-, -, h⟩ <;> rw [h] <;> simp

/-! The line. -/

/-- The arbiter: the level the pads agree on, or, in contention, a draw with `L.contended` set. -/
theorem resolveLine_cases (s : State) :
    (∃ lv, (match s.pri.pad.drive, secDrive s with
        | none, none => lv = .high
        | some a, none => lv = a
        | none, some a => lv = a
        | some a, some b => a = b ∧ lv = a) ∧ resolveLine s = { s with line := lv }) ∨
    (∃ a b, s.pri.pad.drive = some a ∧ secDrive s = some b ∧ a ≠ b ∧
      resolveLine s = { s with line := Config.drawLevel s.draws, contended := true }.afterDraw) := by
  unfold resolveLine
  cases s.pri.pad.drive <;> cases secDrive s <;> dsimp only
  · exact .inl ⟨_, rfl, rfl⟩
  · exact .inl ⟨_, rfl, rfl⟩
  · exact .inl ⟨_, rfl, rfl⟩
  · split
    · rename_i h; exact .inl ⟨_, ⟨h, rfl⟩, rfl⟩
    · rename_i h; exact .inr ⟨_, _, rfl, rfl, h, rfl⟩

/-- The edge latch: nothing for a unit not ACTIVE or a request already latched; else the request, scheduled or
deferred. -/
theorem edgeLatch_cases (s : State) :
    (¬(s.sec.active = true ∧ s.sec.irqLatch = false) ∧ edgeLatch s = s) ∨
    (s.sec.active = true ∧ s.sec.irqLatch = false ∧
      (s.par.guardMode = .entryGuard ∨ s.sec.pending = false) ∧
      edgeLatch s = (s.withSec { s.sec with
        irqLatch := true
        isrDueAt := some (s.t + Config.drawIn s.par.isrLatMin s.par.isrLatMax s.draws) }).afterDraw) ∨
    (s.sec.active = true ∧ s.sec.irqLatch = false ∧
      s.par.guardMode = .sourceDisable ∧ s.sec.pending = true ∧
      edgeLatch s = s.withSec { s.sec with irqLatch := true, isrDueAt := none }) := by
  unfold edgeLatch
  split
  · rename_i h
    dsimp only
    split
    · rename_i h'; exact .inr (.inl ⟨h.1, h.2, h', rfl⟩)
    · rename_i h'
      refine .inr (.inr ⟨h.1, h.2, ?_, ?_, rfl⟩)
      · cases hg : s.par.guardMode with
        | entryGuard => exact absurd (.inl hg) h'
        | sourceDisable => rfl
      · cases hp : s.sec.pending with
        | false => exact absurd (.inr hp) h'
        | true => rfl
  · exact .inl ⟨‹_›, rfl⟩

/-! The host bus. -/

/-- An access that answers a next state lies in a bank that is there, and is carried or answered with an error. -/
theorem performAccess_next {a : Access} {s s' : State} (h : performAccess a s = .next s') :
    ∃ bank off, locate s.par a.target = some (bank, off) ∧ (bank = .S → s.par.secPresent = true) ∧
      ((busOk a.width off = true ∧ carryAccess a bank off s = .next s') ∨
       (busOk a.width off = false ∧ s' = refuseAccess a s)) := by
  unfold performAccess at h
  split at h
  · cases h
  · rename_i bank off hl
    split at h
    · cases h
    · rename_i hp
      refine ⟨bank, off, hl, fun hb => ?_, ?_⟩
      · cases hx : s.par.secPresent
        · exact absurd ⟨hb, hx⟩ hp
        · rfl
      · split at h
        · exact .inl ⟨‹_›, h⟩
        · rename_i hw
          cases h
          exact .inr ⟨by simpa using hw, rfl⟩

/-- A `poll` line changes nothing but the program. -/
theorem afterPoll_eq (tgt : Target) (m v : Word) (s : State) :
    afterPoll tgt m v s = s.withProg (afterPoll tgt m v s).prog := by
  unfold afterPoll
  split <;> rfl

/-- An access answered with an error changes nothing but the answer and, for `poll`, the program. -/
theorem refuseAccess_eq (a : Access) (s : State) :
    refuseAccess a s = (s.withReply { data := 0#32, error := true }).withProg (refuseAccess a s).prog := by
  cases a with
  | rd => rfl
  | wr => rfl
  | poll => simp only [refuseAccess]; rw [afterPoll_eq]; rfl

/-- What a write of a register can be: a command, illegal or decoded, or an update of one unit. -/
theorem regWrite_next {bank : Bank} {off : Nat} {v : Word} {s s' : State}
    (h : regWrite bank off v s = .next s') :
    (bank = .P ∧ priRegAt off = .cmd ∧ ((∃ i, decodePri v = .ok i ∧ exec i s = .next s') ∨
      ((∃ e, decodePri v = .error e) ∧ s' = raisePri .illegal s))) ∨
    (bank = .P ∧ priRegAt off ≠ .cmd ∧ s' = writePri (priRegAt off) v s) ∨
    (bank = .S ∧ secRegAt off = .cmd ∧ ((∃ i, decodeSec v = .ok i ∧ exec i s = .next s') ∨
      ((∃ e, decodeSec v = .error e) ∧ s' = raiseSec .illegal s))) ∨
    (bank = .S ∧ secRegAt off ≠ .cmd ∧ s' = writeSec (secRegAt off) v s) := by
  unfold regWrite at h
  cases bank with
  | P =>
    cases hr : priRegAt off <;> rw [hr] at h <;> simp only at h
    case cmd =>
      unfold commandPri at h
      cases hd : decodePri v with
      | ok i => rw [hd] at h; exact .inl ⟨rfl, rfl, .inl ⟨i, rfl, h⟩⟩
      | error e => rw [hd] at h; cases h; exact .inl ⟨rfl, rfl, .inr ⟨⟨e, rfl⟩, rfl⟩⟩
    all_goals cases h; exact .inr (.inl ⟨rfl, by simp, rfl⟩)
  | S =>
    cases hr : secRegAt off <;> rw [hr] at h <;> simp only at h
    case cmd =>
      unfold commandSec at h
      cases hd : decodeSec v with
      | ok i => rw [hd] at h; exact .inr (.inr (.inl ⟨rfl, rfl, .inl ⟨i, rfl, h⟩⟩))
      | error e => rw [hd] at h; cases h; exact .inr (.inr (.inl ⟨rfl, rfl, .inr ⟨⟨e, rfl⟩, rfl⟩⟩))
    all_goals cases h; exact .inr (.inr (.inr ⟨rfl, by simp, rfl⟩))

/-- A write of a register of bank P other than CMD changes the PRI unit alone. -/
theorem writePri_pri (r : PriReg) (v : Word) (s : State) :
    writePri r v s = s.withPri (writePri r v s).pri := by
  cases r <;> simp only [writePri] <;> first | rfl | (unfold writePriCfg; split <;> rfl)

/-- A write of a register of bank S other than CMD changes the SEC unit alone. -/
theorem writeSec_sec (r : SecReg) (v : Word) (s : State) :
    writeSec r v s = s.withSec (writeSec r v s).sec := by
  cases r <;> simp only [writeSec] <;> first | rfl | (unfold writeSecCfg; split <;> rfl)

/-- The six words of a PRI command. -/
theorem decodePri_ok {w : Word} {i : Instr} (h : decodePri w = .ok i) :
    i = .init ∨ i = .reset ∨ i = .write ∨ i = .writeSkip ∨ i = .read ∨ i = .readSkip := by
  unfold decodePri at h
  split at h
  · cases h
  · split at h <;> (try split at h) <;> cases h <;> simp

/-- The two words of a SEC command. -/
theorem decodeSec_ok {w : Word} {i : Instr} (h : decodeSec w = .ok i) : i = .secBegin ∨ i = .pop := by
  unfold decodeSec at h
  split at h
  · cases h
  · split at h <;> cases h <;> simp

end Sys2Proof.Machine
end

