-- ==== Sys2Proof/Laws/Step.lean ====
section
/-! SUPPORT. What one step can do: one lemma per phase, and the inversion of a step that answers a next state. -/

namespace Sys2Proof.Machine

theorem step_pads {s : State} (h : s.phase = .pads) : step s = .next (padsPhase s) := by
  simp only [step, phaseStep, h]

theorem step_line {s : State} (h : s.phase = .line) : step s = .next (linePhase s) := by
  simp only [step, phaseStep, h]

theorem step_handler {s : State} (h : s.phase = .handler) : step s = handlerPhase s := by
  simp only [step, phaseStep, h]

theorem step_sec {s : State} (h : s.phase = .sec) : step s = secPhase s := by
  simp only [step, phaseStep, h]

theorem step_pri {s : State} (h : s.phase = .pri) : step s = .next (priPhase s) := by
  simp only [step, phaseStep, h]

theorem step_host {s : State} (h : s.phase = .host) : step s = hostPhase s := by
  simp only [step, phaseStep, h]

/-- A vector formed at handler entry decodes to the case of its three bits. -/
theorem decodeEdge_edgeVector (p : Bool) (isr : IsrState) (lv : Level) :
    decodeEdge (edgeVector p isr lv) = edgeCase p isr lv := by
  cases p <;> cases isr <;> cases lv <;> rfl

/-- The handler phase: no entry is due, or the case of the vector runs after the trap entry. -/
theorem handlerPhase_cases (s : State) :
    (¬(s.par.secPresent = true ∧ s.sec.isrDueAt = some s.t) ∧ handlerPhase s = .next (s.withPhase .sec)) ∨
    (s.par.secPresent = true ∧ s.sec.isrDueAt = some s.t ∧
      handlerPhase s = exec (edgeCase s.sec.pending s.sec.isrState s.line) (handlerEntry s)) := by
  unfold handlerPhase vectorAtEntry
  rw [decodeEdge_edgeVector]
  split
  · rename_i h; exact .inr ⟨h.1, h.2, rfl⟩
  · exact .inl ⟨‹_›, rfl⟩

/-- The SEC main loop's turn: over, a poll, the start of a branch, or the next statement of one. -/
theorem secPhase_cases (s : State) :
    (secPhase s = .next (s.withPhase .pri) ∧ (s.par.secPresent = true →
      (s.sec.resp = .idle ∧ ¬(s.sec.pending = true ∧ s.sec.pollAt = s.t)) ∨
      (∃ b p due, s.sec.resp = .responding b p due ∧ due ≠ s.t))) ∨
    (s.par.secPresent = true ∧ s.sec.resp = .idle ∧ s.sec.pending = true ∧ s.sec.pollAt = s.t ∧
      secPhase s = .next (pollEvent s)) ∨
    (∃ b, s.par.secPresent = true ∧ s.sec.resp = .responding b .start s.t ∧
      secPhase s = exec (decodeEvt b.code) s) ∨
    (∃ b p, s.par.secPresent = true ∧ p ≠ .start ∧ s.sec.resp = .responding b p s.t ∧
      secPhase s = .next (secAct b p s)) := by
  unfold secPhase
  split
  · rename_i h; exact .inl ⟨rfl, fun h' => by simp [h] at h'⟩
  · rename_i hp
    simp only [Bool.not_eq_false] at hp
    cases hr : s.sec.resp with
    | idle =>
      dsimp only
      split
      · rename_i h; exact .inr (.inl ⟨hp, rfl, h.1, h.2, rfl⟩)
      · rename_i h; exact .inl ⟨rfl, fun _ => .inl ⟨rfl, h⟩⟩
    | responding b p due =>
      dsimp only
      split
      · rename_i h
        subst h
        cases p with
        | start => exact .inr (.inr (.inl ⟨b, hp, rfl, rfl⟩))
        | _ => exact .inr (.inr (.inr ⟨b, _, hp, by simp, rfl, rfl⟩))
      · rename_i h; exact .inl ⟨rfl, fun _ => .inr ⟨b, p, due, rfl, h⟩⟩

/-- The PRI sequencer's turn: over, or the next statement of its command. -/
theorem priPhase_cases (s : State) :
    (priPhase s = enterHost s ∧ (∀ c sk p due, s.pri.seq = .running c sk p due → due ≠ s.t)) ∨
    (∃ c sk p, s.pri.seq = .running c sk p s.t ∧ priPhase s = priAct c sk p s) := by
  unfold priPhase
  cases hr : s.pri.seq with
  | idle => exact .inl ⟨rfl, by simp⟩
  | running c sk p due =>
    dsimp only
    split
    · rename_i h; subst h; exact .inr ⟨c, sk, p, rfl, rfl⟩
    · rename_i h
      refine .inl ⟨rfl, fun c' sk' p' due' he => ?_⟩
      cases he; exact h

/-- The six phases of a step that answers a next state. -/
theorem step_next_cases {s s' : State} (h : step s = .next s') :
    (s.phase = .pads ∧ s' = padsPhase s) ∨ (s.phase = .line ∧ s' = linePhase s) ∨
    (s.phase = .handler ∧ handlerPhase s = .next s') ∨ (s.phase = .sec ∧ secPhase s = .next s') ∨
    (s.phase = .pri ∧ s' = priPhase s) ∨ (s.phase = .host ∧ s.bus = [] ∧ s' = nextInstant s) ∨
    (s.phase = .host ∧ ∃ a rest, s.bus = a :: rest ∧ performAccess a (s.withBus rest) = .next s') := by
  cases hp : s.phase with
  | pads => rw [step_pads hp] at h; cases h; exact .inl ⟨rfl, rfl⟩
  | line => rw [step_line hp] at h; cases h; exact .inr (.inl ⟨rfl, rfl⟩)
  | handler => rw [step_handler hp] at h; exact .inr (.inr (.inl ⟨rfl, h⟩))
  | sec => rw [step_sec hp] at h; exact .inr (.inr (.inr (.inl ⟨rfl, h⟩)))
  | pri => rw [step_pri hp] at h; cases h; exact .inr (.inr (.inr (.inr (.inl ⟨rfl, rfl⟩))))
  | host =>
    rw [step_host hp] at h
    unfold hostPhase at h
    cases hb : s.bus with
    | nil => rw [hb] at h; cases h; exact .inr (.inr (.inr (.inr (.inr (.inl ⟨rfl, rfl, rfl⟩)))))
    | cons a rest =>
      rw [hb] at h
      exact .inr (.inr (.inr (.inr (.inr (.inr ⟨rfl, a, rest, rfl, h⟩)))))

end Sys2Proof.Machine
end

