-- ==== Sys2Proof/Laws/Turns.lean ====
section
/-! SUPPORT. What the step of each turn is, and the Prop forms of the checks. -/

namespace Sys2Proof.Machine

/-- The step of a host access. -/
theorem HostTurn.step_eq {s : State} {a : Access} {rest : List Access} {bank : Bank} {off : Nat}
    (h : HostTurn s a rest bank off) :
    step s = if busOk a.width off then carryAccess a bank off (s.withBus rest)
      else .next (refuseAccess a (s.withBus rest)) := by
  obtain ⟨h1, h2, h3, h4⟩ := h
  rw [step_host h1]
  unfold hostPhase
  rw [h2]
  dsimp only
  unfold performAccess
  rw [show (s.withBus rest).par = s.par from rfl, h3]
  dsimp only
  rw [if_neg]
  rintro ⟨e, e'⟩
  rw [h4 e] at e'
  cases e'

/-- The step of a sequencer statement. -/
theorem PriTurn.step_eq {s : State} {c : PriCmd} {sk : Bool} {p : PriPoint} (h : PriTurn s c sk p) :
    step s = .next (priAct c sk p s) := by
  rw [step_pri h.1]
  unfold priPhase
  rw [h.2]
  exact congrArg _ (if_pos rfl)

/-- The step of a response statement after the first. -/
theorem SecTurn.step_eq {s : State} {b : EvtClass} {p : SecPoint} (h : SecTurn s b p) (hp : p ≠ .start) :
    step s = .next (secAct b p s) := by
  rw [step_sec h.1]
  unfold secPhase
  rw [h.2.2, h.2.1]
  cases p with
  | start => exact absurd rfl hp
  | _ => simp

/-- The step that starts a branch. -/
theorem SecTurn.step_start {s : State} {b : EvtClass} (h : SecTurn s b .start) :
    step s = exec (decodeEvt b.code) s := by
  rw [step_sec h.1]
  unfold secPhase
  rw [h.2.2, h.2.1]
  simp

/-- The step of a sequencer with no action due: the host's turn begins. -/
theorem PriWaits.step_eq {s : State} (h : PriWaits s) : step s = .next (enterHost s) := by
  rw [step_pri h.1]
  rcases priPhase_cases s with ⟨e, -⟩ | ⟨c, sk, p, hr, -⟩
  · rw [e]
  · exact absurd rfl (h.2 c sk p s.t hr)

/-- In its phase the sequencer waits or takes a statement. -/
theorem PriWaits.or_turn {s : State} (h : s.phase = .pri) : PriWaits s ∨ ∃ c sk p, PriTurn s c sk p := by
  rcases priPhase_cases s with ⟨-, hn⟩ | ⟨c, sk, p, hr, -⟩
  · exact .inl ⟨h, hn⟩
  · exact .inr ⟨c, sk, p, h, hr⟩

/-- The step of a SEC main loop with no action due: the sequencer's turn begins. -/
theorem SecWaits.step_eq {s : State} (h : SecWaits s) : step s = .next (s.withPhase .pri) := by
  rw [step_sec h.1]
  rcases secPhase_cases s with ⟨e, -⟩ | ⟨hs, hr, hp, ht, -⟩ | ⟨b, hs, hr, -⟩ | ⟨b, p, hs, -, hr, -⟩
  · exact e
  · exact absurd ht ((h.2 hs).1 hr hp)
  · exact absurd rfl ((h.2 hs).2 b _ s.t hr)
  · exact absurd rfl ((h.2 hs).2 b p s.t hr)

/-- In its phase the SEC main loop waits, polls, or takes a statement of a branch. -/
theorem SecWaits.or_turn {s : State} (h : s.phase = .sec) :
    SecWaits s ∨ step s = .next (pollEvent s) ∨ ∃ b p, SecTurn s b p := by
  rcases secPhase_cases s with ⟨-, hn⟩ | ⟨-, -, -, -, e⟩ | ⟨b, hs, hr, -⟩ | ⟨b, p, hs, -, hr, -⟩
  · refine .inl ⟨h, fun hs => ?_⟩
    rcases hn hs with ⟨hr, hn⟩ | ⟨b, p, due, hr, hd⟩
    · refine ⟨fun _ hp ht => hn ⟨hp, ht⟩, fun b p due e => ?_⟩
      rw [hr] at e
      cases e
    · refine ⟨fun e => ?_, fun b' p' due' e => ?_⟩ <;> rw [hr] at e <;> cases e
      exact hd
  · exact .inr (.inl (by rw [step_sec h, e]))
  · exact .inr (.inr ⟨b, _, h, hs, hr⟩)
  · exact .inr (.inr ⟨b, p, h, hs, hr⟩)

theorem CfgReg.legal_iff (c : CfgReg) : c.legal = true ↔ CfgLegal c := by
  simp only [CfgReg.legal, CfgLegal, Bool.and_eq_true, decide_eq_true_eq, and_assoc]

theorem CfgReg.legal_false (c : CfgReg) : c.legal = false ↔ ¬CfgLegal c := by
  rw [← CfgReg.legal_iff, Bool.not_eq_true]

end Sys2Proof.Machine
end

