-- ==== Sys2Proof/Laws/Frames.lean ====
section
/-! SUPPORT. What each phase's step leaves as it was, and what it may change of the rest. -/

namespace Sys2Proof.Machine

/-! ## The first two phases -/

/-- The pads phase as one update of the state: each unit's pad and its scheduled effect. -/
theorem padsPhase_eq (s : State) :
    padsPhase s = { s with
      phase := .line
      pri := { s.pri with pad := padAfter s.t s.pri.pad s.pri.padDue, padDue := dueAfter s.t s.pri.padDue }
      sec := if s.par.secPresent then
          { s.sec with pad := padAfter s.t s.sec.pad s.sec.padDue, padDue := dueAfter s.t s.sec.padDue }
        else s.sec } := by
  unfold padsPhase secPads
  split <;> split <;> first | rfl | contradiction

/-- The effect due now is applied and no longer scheduled. -/
theorem padAfter_due {t : Nat} {d : PadDue} (p : Pad) (h : d.due = t) :
    padAfter t p (some d) = applyEffect d.effect p ∧ dueAfter t (some d) = none := by
  simp [padAfter, dueAfter, h]

/-- An effect due at another instant, or none, leaves the pad and stays as it is. -/
theorem padAfter_waits {t : Nat} {o : Option PadDue} (p : Pad) (h : ∀ d, o = some d → d.due ≠ t) :
    padAfter t p o = p ∧ dueAfter t o = o := by
  cases o with
  | none => exact ⟨rfl, rfl⟩
  | some d => simp [padAfter, dueAfter, h d rfl]

/-- The pads phase changes the two pads alone. -/
theorem padsPhase_frame (s : State) :
    (padsPhase s).pri =
      { s.pri with pad := padAfter s.t s.pri.pad s.pri.padDue, padDue := dueAfter s.t s.pri.padDue } ∧
    (padsPhase s).sec =
      (if s.par.secPresent then
        { s.sec with pad := padAfter s.t s.sec.pad s.sec.padDue, padDue := dueAfter s.t s.sec.padDue }
      else s.sec) ∧
    (padsPhase s).par = s.par ∧ (padsPhase s).t = s.t ∧ (padsPhase s).line = s.line ∧
    (padsPhase s).linePrev = s.linePrev ∧ (padsPhase s).contended = s.contended ∧
    (padsPhase s).draws = s.draws ∧ (padsPhase s).bus = s.bus ∧ (padsPhase s).phase = .line := by
  unfold padsPhase secPads
  split <;> simp_all [priPads]

/-- The arbiter changes the line, its contention mark and the draws alone. -/
theorem resolveLine_frame (s : State) :
    (resolveLine s).pri = s.pri ∧ (resolveLine s).sec = s.sec ∧ (resolveLine s).par = s.par ∧
    (resolveLine s).t = s.t ∧ (resolveLine s).linePrev = s.linePrev ∧ (resolveLine s).bus = s.bus ∧
    s.draws ≤ (resolveLine s).draws := by
  rcases resolveLine_cases s with ⟨lv, -, e⟩ | ⟨a, b, -, -, -, e⟩ <;> rw [e] <;> simp

/-- The line phase leaves the PRI unit, and of the SEC unit all but its request. -/
theorem linePhase_frame (s : State) :
    (linePhase s).pri = s.pri ∧ (∃ a b, (linePhase s).sec = { s.sec with irqLatch := a, isrDueAt := b }) ∧
    (linePhase s).par = s.par ∧ (linePhase s).t = s.t ∧ (linePhase s).line = (resolveLine s).line ∧
    (linePhase s).linePrev = (linePhase s).line ∧ (linePhase s).contended = (resolveLine s).contended ∧
    (resolveLine s).draws ≤ (linePhase s).draws ∧ (linePhase s).bus = s.bus ∧ (linePhase s).phase = .handler := by
  obtain ⟨h1, h2, h3, h4, -, h6, -⟩ := resolveLine_frame s
  unfold linePhase
  dsimp only
  split
  · rcases edgeLatch_cases (resolveLine s) with ⟨-, e⟩ | ⟨-, -, -, e⟩ | ⟨-, -, -, -, e⟩ <;> rw [e] <;>
      simp only [State.withPhase_pri, State.withPhase_sec] <;> rw [← h2] <;>
      refine ⟨h1, ⟨_, _, rfl⟩, h3, h4, rfl, rfl, rfl, ?_, h6, rfl⟩ <;> simp
  · exact ⟨h1, ⟨_, _, h2⟩, h3, h4, rfl, rfl, rfl, Nat.le_refl _, h6, rfl⟩

/-! ## The handler -/

/-- A handler entry touches the eight fields of R170 alone, and publishes only from TIMING with the flag clear. -/
theorem handler_step_frame {s s' : State} (h : s.phase = .handler) (e : step s = .next s') :
    s'.pri = s.pri ∧ s'.par = s.par ∧ s'.t = s.t ∧ s'.line = s.line ∧ s'.linePrev = s.linePrev ∧
    s'.contended = s.contended ∧ s'.bus = s.bus ∧ s'.prog = s.prog ∧ s'.reply = s.reply ∧ s'.phase = .sec ∧
    (s'.sec = s.sec ∨
      (s.par.secPresent = true ∧ s.sec.isrDueAt = some s.t ∧ s'.sec.irqLatch = false ∧ s'.sec.isrDueAt = none ∧
        s'.sec = { s.sec with
          irqLatch := false, isrDueAt := none, start := s'.sec.start, isrState := s'.sec.isrState
          duration := s'.sec.duration, pending := s'.sec.pending
          pendSetAt := s'.sec.pendSetAt, pollAt := s'.sec.pollAt } ∧
        (s'.sec.duration ≠ s.sec.duration ∨ s'.sec.pending ≠ s.sec.pending →
          s.sec.pending = false ∧ s'.sec.pending = true ∧ s.sec.isrState = .timing ∧
          s'.sec.duration = BitVec.ofNat 32 s.t - s.sec.start))) := by
  rw [step_handler h] at e
  rcases handlerPhase_cases s with ⟨-, e'⟩ | ⟨hp, hd, e'⟩ <;> rw [e'] at e
  · cases e; simp
  · cases hpe : s.sec.pending <;> cases hi : s.sec.isrState <;> cases hl : s.line <;>
      rw [hpe, hi, hl] at e <;>
      simp only [edgeCase, exec, execEdgeDrop, execEdgeStart, execEdgeSpurious, execEdgeEnd,
        Host.Outcome.next.injEq, handlerReturn, handlerEntry, State.withSec, State.withPhase, State.afterDraw] at e <;>
      subst e <;>
      simp [hp, hd, hpe, hi, hl, State.now]

/-! ## The SEC main loop -/

theorem clearPending_sec (s : State) :
    (clearPending s).sec = { s.sec with
      pending := false, resp := .idle, isrDueAt := (clearPending s).sec.isrDueAt } := by
  rcases clearPending_cases s with ⟨-, e⟩ | ⟨-, -, e⟩ <;> rw [e] <;> rfl

/-- A taken bit or a dropped one: what a write-bit branch leaves of the unit. -/
theorem receiveBit_frame (b : Bool) (s : State) :
    (receiveBit b s).par = s.par ∧ (receiveBit b s).t = s.t ∧ (receiveBit b s).line = s.line ∧
    (receiveBit b s).linePrev = s.linePrev ∧ (receiveBit b s).contended = s.contended ∧
    (receiveBit b s).pri = s.pri ∧ (receiveBit b s).phase = s.phase ∧ (receiveBit b s).prog = s.prog ∧
    (receiveBit b s).bus = s.bus ∧ (receiveBit b s).reply = s.reply ∧
    (receiveBit b s).sec = { s.sec with
      pending := false, resp := .idle
      isrDueAt := (receiveBit b s).sec.isrDueAt, acc := (receiveBit b s).sec.acc
      bitIndex := (receiveBit b s).sec.bitIndex, rxFifo := (receiveBit b s).sec.rxFifo
      rxOvf := (receiveBit b s).sec.rxOvf } ∧
    s.sec.bitIndex ≤ (receiveBit b s).sec.bitIndex := by
  rcases receiveBit_cases b s with ⟨-, e⟩ | ⟨-, e⟩ | ⟨-, e⟩ <;> rw [e]
  · obtain ⟨h1, h2, h3, h4, h5, h6, h7, h8, h9, h10⟩ := clearPending_frame (takeBit b s)
    rw [h1, h2, h3, h4, h5, h6, h7, h8, h9, h10, clearPending_sec]
    simp [takeBit_eq]
  · obtain ⟨h1, h2, h3, h4, h5, h6, h7, h8, h9, h10⟩ := clearPending_frame (deliver (takeBit b s))
    rw [h1, h2, h3, h4, h5, h6, h7, h8, h9, h10, clearPending_sec]
    rcases deliver_cases (takeBit b s) with ⟨-, e⟩ | ⟨-, e⟩ <;> rw [e] <;> simp [takeBit_eq]
  · obtain ⟨h1, h2, h3, h4, h5, h6, h7, h8, h9, h10⟩ := clearPending_frame s
    rw [h1, h2, h3, h4, h5, h6, h7, h8, h9, h10, clearPending_sec]
    simp

/-- What a read request that starts leaves: a branch that will drive, or the clear. -/
theorem startReply_frame (s : State) :
    (startReply s).par = s.par ∧ (startReply s).t = s.t ∧ (startReply s).line = s.line ∧
    (startReply s).linePrev = s.linePrev ∧ (startReply s).contended = s.contended ∧
    (startReply s).pri = s.pri ∧ (startReply s).phase = s.phase ∧ (startReply s).prog = s.prog ∧
    (startReply s).bus = s.bus ∧ (startReply s).reply = s.reply ∧
    (startReply s).sec = { s.sec with
      sendBuf := (startReply s).sec.sendBuf, padDue := (startReply s).sec.padDue
      resp := (startReply s).sec.resp, pending := (startReply s).sec.pending
      isrDueAt := (startReply s).sec.isrDueAt } ∧
    ((startReply s).sec.pending = s.sec.pending ∨
      ((startReply s).sec.pending = false ∧ (startReply s).sec.resp = .idle)) := by
  rcases startReply_cases s with ⟨-, e⟩ | ⟨-, e⟩ <;> rw [e, snapshotSendBuf_eq]
  · simp [secSetDirection_eq]
  · obtain ⟨h1, h2, h3, h4, h5, h6, h7, h8, h9, h10⟩ := clearPending_frame
      (s.withSec { s.sec with sendBuf := if s.sec.bitIndex = 0 then s.sec.txNext else s.sec.sendBuf })
    rw [h1, h2, h3, h4, h5, h6, h7, h8, h9, h10, clearPending_sec]
    simp

/-- A statement of a branch leaves everything but the SEC unit, and there all but the branch's own fields. -/
theorem secAct_frame (b : EvtClass) (p : SecPoint) (s : State) :
    (secAct b p s).par = s.par ∧ (secAct b p s).t = s.t ∧ (secAct b p s).line = s.line ∧
    (secAct b p s).linePrev = s.linePrev ∧ (secAct b p s).contended = s.contended ∧
    (secAct b p s).pri = s.pri ∧ (secAct b p s).phase = s.phase ∧ (secAct b p s).prog = s.prog ∧
    (secAct b p s).bus = s.bus ∧ (secAct b p s).reply = s.reply ∧
    (secAct b p s).sec = { s.sec with
      padDue := (secAct b p s).sec.padDue, resp := (secAct b p s).sec.resp
      pending := (secAct b p s).sec.pending, isrDueAt := (secAct b p s).sec.isrDueAt
      bitIndex := (secAct b p s).sec.bitIndex, acc := (secAct b p s).sec.acc } ∧
    ((secAct b p s).sec.pending = s.sec.pending ∨
      ((secAct b p s).sec.pending = false ∧ (secAct b p s).sec.resp = .idle)) := by
  cases p with
  | start => simp [secAct]
  | drive v => simp [secAct, secWriteLevel_eq]
  | hold => simp [secAct, secBusyWait_eq]
  | release => simp [secAct, secSetDirection_eq]
  | finish =>
    have key : ∀ u : SecUnit, (∃ i a, u = { s.sec with bitIndex := i, acc := a }) →
        secAct b .finish s = clearPending (s.withSec u) →
        (secAct b .finish s).par = s.par ∧ (secAct b .finish s).t = s.t ∧ (secAct b .finish s).line = s.line ∧
        (secAct b .finish s).linePrev = s.linePrev ∧ (secAct b .finish s).contended = s.contended ∧
        (secAct b .finish s).pri = s.pri ∧ (secAct b .finish s).phase = s.phase ∧
        (secAct b .finish s).prog = s.prog ∧ (secAct b .finish s).bus = s.bus ∧
        (secAct b .finish s).reply = s.reply ∧
        (secAct b .finish s).sec = { s.sec with
          padDue := (secAct b .finish s).sec.padDue, resp := (secAct b .finish s).sec.resp
          pending := (secAct b .finish s).sec.pending, isrDueAt := (secAct b .finish s).sec.isrDueAt
          bitIndex := (secAct b .finish s).sec.bitIndex, acc := (secAct b .finish s).sec.acc } ∧
        ((secAct b .finish s).sec.pending = s.sec.pending ∨
          ((secAct b .finish s).sec.pending = false ∧ (secAct b .finish s).sec.resp = .idle)) := by
      rintro u ⟨i, a, rfl⟩ e
      obtain ⟨h1, h2, h3, h4, h5, h6, h7, h8, h9, h10⟩ :=
        clearPending_frame (s.withSec { s.sec with bitIndex := i, acc := a })
      rw [e, h1, h2, h3, h4, h5, h6, h7, h8, h9, h10, clearPending_sec]
      simp
    cases b
    · exact key s.sec ⟨_, _, rfl⟩ rfl
    · exact key s.sec ⟨_, _, rfl⟩ rfl
    · exact key { s.sec with bitIndex := s.sec.bitIndex + 1 } ⟨_, _, rfl⟩ rfl
    · exact key { s.sec with bitIndex := 0, acc := 0#32 } ⟨_, _, rfl⟩ rfl

/-- The start of each branch. -/
theorem exec_evt (b : EvtClass) (s : State) :
    exec (decodeEvt b.code) s = .next (match b with
      | .bit1 => receiveBit true s
      | .bit0 => receiveBit false s
      | .read => startReply s
      | .reset => secSetDirection .output .reset (.drive .low) s) := by
  cases b <;> rfl

/-! ## The PRI sequencer -/

/-- The sequencer's turn: over, or the statement at its point. -/
theorem pri_step_cases {s s' : State} (h : s.phase = .pri) (e : step s = .next s') :
    (s' = enterHost s ∧ PriWaits s) ∨ (∃ c sk p, PriTurn s c sk p ∧ s' = priAct c sk p s) := by
  rcases PriWaits.or_turn h with hw | ⟨c, sk, p, ht⟩
  · rw [hw.step_eq] at e
    cases e
    exact .inl ⟨rfl, hw⟩
  · rw [ht.step_eq] at e
    cases e
    exact .inr ⟨c, sk, p, ht, rfl⟩

/-! ## The host -/

/-- A command word of bank P that decodes is one of the six commands, with its skip bit. -/
theorem exec_of_decodePri {w : Word} {i : Instr} {s s' : State} (hd : decodePri w = .ok i)
    (e : exec i s = .next s') :
    ∃ c sk, (sk = true → c = .write ∨ c = .read) ∧ s' = priCommand c sk s := by
  rcases decodePri_ok hd with rfl | rfl | rfl | rfl | rfl | rfl <;> cases e <;> exact ⟨_, _, by simp, rfl⟩

/-- A command word of bank S that decodes changes the SEC unit alone. -/
theorem exec_of_decodeSec {w : Word} {i : Instr} {s s' : State} (hd : decodeSec w = .ok i)
    (e : exec i s = .next s') : s' = s.withSec s'.sec := by
  rcases decodeSec_ok hd with rfl | rfl <;>
    simp only [exec, execBegin, execPop, Host.Outcome.next.injEq] at e <;> subst e
  · split
    · rfl
    · split <;> rfl
  · rfl

/-- A step of a host access is the turn of a bank that is there. -/
theorem HostTurn.of_step {s s' : State} {a : Access} {rest : List Access} (hp : s.phase = .host)
    (hb : s.bus = a :: rest) (e : step s = .next s') : ∃ bank off, HostTurn s a rest bank off := by
  rw [step_host hp] at e
  unfold hostPhase at e
  rw [hb] at e
  obtain ⟨bank, off, h1, h2, -⟩ := performAccess_next e
  exact ⟨bank, off, hp, hb, h1, h2⟩

/-- A host access changes at most the unit of the bank it addresses, the answer, and, for `poll`, the program. -/
theorem HostTurn.frame {s s' : State} {a : Access} {rest : List Access} {bank : Bank} {off : Nat}
    (h : HostTurn s a rest bank off) (e : step s = .next s') :
    (bank = .P → s'.sec = s.sec) ∧ (bank = .S → s'.pri = s.pri) ∧ s'.par = s.par ∧ s'.t = s.t ∧
    s'.line = s.line ∧ s'.linePrev = s.linePrev ∧ s'.contended = s.contended ∧ s'.draws = s.draws ∧
    s'.bus = rest ∧ s'.phase = .host ∧
    ((∀ tgt w v, a ≠ .wr tgt w v) → s'.pri = s.pri ∧ s'.sec = s.sec) := by
  rw [h.step_eq] at e
  split at e
  · cases a with
    | rd => cases e; simp [replyData, h.phase]
    | poll => simp only [carryAccess] at e; cases e; rw [afterPoll_eq]; simp [replyData, h.phase]
    | wr tgt w v =>
      simp only [carryAccess] at e
      rcases regWrite_next e with ⟨rfl, -, ⟨i, hd, e⟩ | ⟨-, e⟩⟩ | ⟨rfl, -, e⟩ | ⟨rfl, -, ⟨i, hd, e⟩ | ⟨-, e⟩⟩ |
        ⟨rfl, -, e⟩
      · obtain ⟨c, sk, -, rfl⟩ := exec_of_decodePri hd e
        rw [priCommand_pri]
        simp [replyData, h.phase]
      · subst e; simp [raisePri_eq, replyData, h.phase]
      · subst e; rw [writePri_pri]; simp [replyData, h.phase]
      · rw [exec_of_decodeSec hd e]; simp [replyData, h.phase]
      · subst e; simp [raiseSec_eq, replyData, h.phase]
      · subst e; rw [writeSec_sec]; simp [replyData, h.phase]
  · cases e; rw [refuseAccess_eq]; simp [h.phase]

/-- R123: the calibration check in terms of the profile's fields. -/
theorem calOk_iff (p : Profile) (sw wr : Nat) :
    calOk p sw wr = true ↔
      wr ≤ p.write1Active ∧ wr ≤ p.write1Pause ∧ wr ≤ p.write0Active ∧ wr ≤ p.write0Pause ∧
      sw ≤ p.resetPresenceSampleDelay ∧ sw ≤ p.resetSettle ∧ sw ≤ p.readSampleDelay ∧ sw ≤ p.readPause := by
  simp only [calOk, Bool.and_eq_true, decide_eq_true_eq, and_assoc]

/-- Setting a bit of a word changes that bit alone. -/
theorem setBit_getLsbD (w : Word) (i : Nat) (b : Bool) (k : Nat) (hk : k < 32) :
    (setBit w i b).getLsbD k = if k = i then b else w.getLsbD k := by
  unfold setBit
  cases b
  · rw [if_neg (by simp)]
    simp [hk]
    by_cases h : k = i
    · simp [h]
    · simp [h]; intro _; omega
  · rw [if_pos rfl]
    simp [hk]
    by_cases h : k = i
    · simp [h]
    · simp [h]; omega

end Sys2Proof.Machine
end

