-- ==== Sys2Proof/Laws/PerInstr.lean ====
section
/-! SUPPORT. Statements made of every instruction, one lemma per constructor. -/

namespace Sys2Proof.Laws

/-- R80, R88, R89: the word of an instruction holds nothing above the bits of its format. -/
def EncodeFits.Statement (i : Instr) : Prop := (encode i).bits.toNat < 2 ^ (encode i).fmt.width

theorem EncodeFits.init : EncodeFits.Statement .init := by unfold EncodeFits.Statement; decide

theorem EncodeFits.reset : EncodeFits.Statement .reset := by unfold EncodeFits.Statement; decide

theorem EncodeFits.write : EncodeFits.Statement .write := by unfold EncodeFits.Statement; decide

theorem EncodeFits.writeSkip : EncodeFits.Statement .writeSkip := by unfold EncodeFits.Statement; decide

theorem EncodeFits.read : EncodeFits.Statement .read := by unfold EncodeFits.Statement; decide

theorem EncodeFits.readSkip : EncodeFits.Statement .readSkip := by unfold EncodeFits.Statement; decide

theorem EncodeFits.secBegin : EncodeFits.Statement .secBegin := by unfold EncodeFits.Statement; decide

theorem EncodeFits.pop : EncodeFits.Statement .pop := by unfold EncodeFits.Statement; decide

theorem EncodeFits.edgeDrop (isr : IsrState) (lv : Level) : EncodeFits.Statement (.edgeDrop isr lv) := by
  unfold EncodeFits.Statement
  cases isr <;> cases lv <;> decide

theorem EncodeFits.edgeStart : EncodeFits.Statement .edgeStart := by unfold EncodeFits.Statement; decide

theorem EncodeFits.edgeSpurious : EncodeFits.Statement .edgeSpurious := by unfold EncodeFits.Statement; decide

theorem EncodeFits.edgeEnd (lv : Level) : EncodeFits.Statement (.edgeEnd lv) := by
  unfold EncodeFits.Statement
  cases lv <;> decide

theorem EncodeFits.evtBit1 : EncodeFits.Statement .evtBit1 := by unfold EncodeFits.Statement; decide

theorem EncodeFits.evtBit0 : EncodeFits.Statement .evtBit0 := by unfold EncodeFits.Statement; decide

theorem EncodeFits.evtRead : EncodeFits.Statement .evtRead := by unfold EncodeFits.Statement; decide

theorem EncodeFits.evtReset : EncodeFits.Statement .evtReset := by unfold EncodeFits.Statement; decide

end Sys2Proof.Laws
end

