-- ==== Sys2Proof/Tests/Slice0.lean ====
section
/-! SUPPORT. The model's own tests: ill-formed terms, written-out code words, one step per instruction with the
values the spec's rules and vectors give, and, for every statement with hypotheses, states that meet them. -/

namespace Sys2Proof.Tests

open Sys2Proof.Machine

/-! ## Well-formedness -/

theorem test_wf_drop_in_timing : (Instr.edgeDrop .timing .low).wellFormed = false := by decide

theorem test_wf_drop_in_timing_high : (Instr.edgeDrop .timing .high).wellFormed = false := by decide

theorem test_wf_drop_in_idle : (Instr.edgeDrop .idle .low).wellFormed = true := by decide

/-! ## Decoding: the words of R84, R85, R88 and R89, field by field -/

/-- R81, R84: RSVD 31:5, SKIPRST 4, OP 3:0. -/
theorem test_decode_pri :
    decode ⟨.priCmd, 0#27 ++ 0#1 ++ 1#4⟩ = .ok .init ∧ decode ⟨.priCmd, 0#27 ++ 0#1 ++ 2#4⟩ = .ok .reset ∧
    decode ⟨.priCmd, 0#27 ++ 0#1 ++ 3#4⟩ = .ok .write ∧ decode ⟨.priCmd, 0#27 ++ 1#1 ++ 3#4⟩ = .ok .writeSkip ∧
    decode ⟨.priCmd, 0#27 ++ 0#1 ++ 4#4⟩ = .ok .read ∧ decode ⟨.priCmd, 0#27 ++ 1#1 ++ 4#4⟩ = .ok .readSkip :=
  ⟨rfl, rfl, rfl, rfl, rfl, rfl⟩

/-- R82, R85: RSVD 31:4, OP 3:0. -/
theorem test_decode_sec :
    decode ⟨.secCmd, 0#28 ++ 1#4⟩ = .ok .secBegin ∧ decode ⟨.secCmd, 0#28 ++ 2#4⟩ = .ok .pop := ⟨rfl, rfl⟩

/-- R88: PENDING 2, ISRSTATE 1, LEVEL 0. -/
theorem test_decode_edge :
    decode ⟨.secEdge, 0#29 ++ 0#1 ++ 0#1 ++ 0#1⟩ = .ok .edgeStart ∧
    decode ⟨.secEdge, 0#29 ++ 0#1 ++ 0#1 ++ 1#1⟩ = .ok .edgeSpurious ∧
    decode ⟨.secEdge, 0#29 ++ 0#1 ++ 1#1 ++ 0#1⟩ = .ok (.edgeEnd .low) ∧
    decode ⟨.secEdge, 0#29 ++ 0#1 ++ 1#1 ++ 1#1⟩ = .ok (.edgeEnd .high) ∧
    decode ⟨.secEdge, 0#29 ++ 1#1 ++ 0#1 ++ 1#1⟩ = .ok (.edgeDrop .idle .high) ∧
    decode ⟨.secEdge, 0#29 ++ 1#1 ++ 1#1 ++ 0#1⟩ = .ok (.edgeDrop .timing .low) := ⟨rfl, rfl, rfl, rfl, rfl, rfl⟩

/-- R89: CLASS 1:0. -/
theorem test_decode_evt :
    decode ⟨.secEvt, 0#30 ++ 0#2⟩ = .ok .evtBit1 ∧ decode ⟨.secEvt, 0#30 ++ 1#2⟩ = .ok .evtBit0 ∧
    decode ⟨.secEvt, 0#30 ++ 2#2⟩ = .ok .evtRead ∧ decode ⟨.secEvt, 0#30 ++ 3#2⟩ = .ok .evtReset :=
  ⟨rfl, rfl, rfl, rfl⟩

/-- R90: OP 0, OP 5, SKIPRST with INIT, bit 5 set, and OP 3 of SEC_CMD. -/
theorem test_decode_rejects :
    decode ⟨.priCmd, 0x0#32⟩ = .error .reservedOp ∧ decode ⟨.priCmd, 0x5#32⟩ = .error .reservedOp ∧
    decode ⟨.priCmd, 0x11#32⟩ = .error .skipNotAllowed ∧ decode ⟨.priCmd, 0x23#32⟩ = .error .reservedBit ∧
    decode ⟨.secCmd, 0x3#32⟩ = .error .reservedOp ∧ decode ⟨.secCmd, 0x12#32⟩ = .error .reservedBit :=
  ⟨rfl, rfl, rfl, rfl, rfl, rfl⟩

/-- The rows of the opcode table as the host numbers them. -/
theorem test_decode_table :
    decodeTableWord 32 0x14 = some .readSkip ∧ decodeTableWord 32 0x5 = none ∧
    decodeTableWord 8 0x4 = some (.edgeDrop .idle .low) ∧ decodeTableWord 8 0x3 = some .evtReset ∧
    decodeTableWord 3 0x2 = some (.edgeEnd .low) ∧ decodeTableWord 16 0x1 = none := by decide

/-! ## The profile, classification and the CFG word -/

/-- The row for T = 81 of section 2 of spec/95_test_vectors.md (V-T2). -/
theorem test_profile_81 : profile 81 =
    { resetSignal := 405, resetPresence := 121, resetPresenceSampleDelay := 81, resetSettle := 121
      write1Active := 40, write1Pause := 41, write0Active := 121, write0Pause := 41
      write1DetectCeiling := 81, write0DetectCeiling := 162, readDetectCeiling := 243, readInitActive := 202
      readReplyHold := 81, readSampleDelay := 40, readPause := 81 } := by decide

/-- R180: the ceilings are inclusive. -/
theorem test_classify_bounds :
    classify (profile 80) 80#32 = .bit1 ∧ classify (profile 80) 81#32 = .bit0 ∧
    classify (profile 80) 160#32 = .bit0 ∧ classify (profile 80) 161#32 = .read ∧
    classify (profile 80) 240#32 = .read ∧ classify (profile 80) 241#32 = .reset := by decide

/-- R83: T 15:0, P2S_BITS 21:16, S2P_BITS 29:24. -/
theorem test_cfg_word : cfgValue 80 3 4 = 0#2 ++ 4#6 ++ 0#2 ++ 3#6 ++ 80#16 := by decide

/-! ## States -/

/-- The link right after reset, with the parameters of the spec's vectors. -/
def base : State := State.resetWith Params.defaults

/-- A configuration with T = 80, 3 bits to the SEC and 4 bits from it. -/
def cfg34 : CfgReg := { T := 80#16, p2sBits := 3#6, s2pBits := 4#6 }

/-- A READY PRI unit. -/
def readyPri : PriUnit :=
  { PriUnit.reset with ready := true, cfg := cfg34, swLat := 2, wrLat := 2, pad := .drivesHigh, txData := 5#32 }

/-- An ACTIVE SEC unit. -/
def activeSec : SecUnit := { SecUnit.reset with active := true, cfg := cfg34 }

/-- Both units ready for traffic, at instant 388. -/
def booted : State := { base with t := 388, pri := readyPri, sec := activeSec }

/-- The same link as the host performs one access. -/
def hostAt (s : State) (a : Access) : State := { s with phase := .host, bus := [a] }

/-- The same link with the PRI sequencer at a program point. -/
def priAt (s : State) (c : PriCmd) (sk : Bool) (p : PriPoint) : State :=
  { s with phase := .pri, pri := { s.pri with busy := true, ready := decide (c ≠ .init), seq := .running c sk p s.t } }

/-- The same link with the SEC main loop at a point of a branch. -/
def secAt (s : State) (b : EvtClass) (p : SecPoint) : State :=
  { s with phase := .sec, sec := { s.sec with pending := true, resp := .responding b p s.t } }

/-- The same link with a handler entry due. -/
def entryAt (s : State) : State :=
  { s with phase := .handler, sec := { s.sec with irqLatch := true, isrDueAt := some s.t } }

/-- Whether an outcome is a next state with a property. -/
def nextIs (o : Host.Outcome State Fault Refusal) (f : State → Bool) : Bool :=
  match o with
  | .next s => f s
  | .fault _ => false
  | .refused _ => false

/-! ## One step of each instruction -/

/-- R120: INIT is accepted and clears READY; its first action comes at 389. -/
theorem test_init :
    nextIs (step (hostAt booted (wrReg .P 0x00 0x1#32)))
      (fun s => s.pri.busy && !s.pri.ready && s.pri.seq == .running .init false .start 389) = true := by decide

/-- R120: with T = 0, INIT is refused with CFG. -/
theorem test_init_cfg :
    nextIs (exec .init { base with pri := { base.pri with cfg := { cfg34 with T := 0#16 } } })
      (fun s => s.pri.err && s.pri.lastErr == .cfg && !s.pri.busy) = true := by decide

/-- R120: RESET before INIT is refused with NOTREADY. -/
theorem test_reset_notReady :
    nextIs (step (hostAt base (wrReg .P 0x00 0x2#32))) (fun s => s.pri.lastErr == .notReady && !s.pri.busy) = true := by
  decide

theorem test_reset :
    nextIs (step (hostAt booted (wrReg .P 0x00 0x2#32)))
      (fun s => s.pri.seq == .running .reset false .start 389 && s.pri.ready) = true := by decide

/-- R25, R127: the packet is copied at acceptance. -/
theorem test_write :
    nextIs (step (hostAt booted (wrReg .P 0x00 0x3#32)))
      (fun s => s.pri.txSnap == 5#32 && s.pri.seq == .running .write false .start 389) = true := by decide

theorem test_writeSkip :
    nextIs (step (hostAt booted (wrReg .P 0x00 0x13#32)))
      (fun s => s.pri.seq == .running .write true .start 389) = true := by decide

theorem test_read :
    nextIs (step (hostAt booted (wrReg .P 0x00 0x4#32)))
      (fun s => s.pri.seq == .running .read false .start 389) = true := by decide

/-- R120: BUSY comes before every other check. -/
theorem test_readSkip_busy :
    nextIs (exec .readSkip (priAt booted .reset false (.rst .low)))
      (fun s => s.pri.lastErr == .busy && s.pri.seq == .running .reset false (.rst .low) 388) = true := by decide

/-- R195: BEGIN attaches the handler and empties the FIFO. -/
theorem test_begin :
    nextIs (step (hostAt { booted with sec := { activeSec with active := false, rxFifo := [7#32] } }
        (wrReg .S 0x00 0x1#32)))
      (fun s => s.sec.active && s.sec.rxFifo == []) = true := by decide

/-- R195, R36: BEGIN while an event is pending is refused with BUSY. -/
theorem test_begin_busy :
    nextIs (exec .secBegin { booted with sec := { activeSec with pending := true } })
      (fun s => s.sec.err && s.sec.lastErr == .busy) = true := by decide

/-- R196: the oldest of two packets goes. -/
theorem test_pop :
    nextIs (step (hostAt { booted with sec := { activeSec with rxFifo := [7#32, 9#32] } } (wrReg .S 0x00 0x2#32)))
      (fun s => s.sec.rxFifo == [9#32]) = true := by decide

/-- R162: dropped with the flag set; the request is taken. -/
theorem test_edgeDrop :
    nextIs (step (entryAt { booted with sec := { activeSec with pending := true } }))
      (fun s => s.sec.pending && !s.sec.irqLatch && s.sec.isrState == .idle && s.phase == .sec) = true := by decide

/-- R163's worked example: entry at 393. -/
theorem test_edgeStart :
    nextIs (step (entryAt { booted with t := 393, line := .low }))
      (fun s => s.sec.start == 393#32 && s.sec.isrState == .timing) = true := by decide

theorem test_edgeSpurious :
    nextIs (step (entryAt booted)) (fun s => s.sec.isrState == .idle && s.sec.start == 0#32 && !s.sec.pending) = true := by
  decide

/-- R165, R53: the duration across the wrap of the timer; the poll comes three later. -/
theorem test_edgeEnd :
    nextIs (step (entryAt { booted with
        t := 2 ^ 32 + 5, sec := { activeSec with isrState := .timing, start := 0xFFFFFFFE#32 } }))
      (fun s => s.sec.duration == 7#32 && s.sec.pending && s.sec.isrState == .idle && s.sec.pollAt == 2 ^ 32 + 8) =
    true := by decide

/-- R181, R182: the third bit of three, a 1, delivers 0b101. -/
theorem test_evtBit1 :
    nextIs (step (secAt { booted with sec := { activeSec with bitIndex := 2, acc := 1#32 } } .bit1 .start))
      (fun s => s.sec.rxFifo == [5#32] && s.sec.bitIndex == 3 && !s.sec.pending) = true := by decide

/-- R182: a full FIFO drops the packet and sets RXOVF. -/
theorem test_evtBit0_overflow :
    nextIs (step (secAt { booted with
        sec := { activeSec with bitIndex := 2, acc := 1#32, rxFifo := [1#32, 2#32, 3#32, 4#32] } } .bit0 .start))
      (fun s => s.sec.rxOvf && s.sec.rxFifo.length == 4 && s.sec.acc == 1#32) = true := by decide

/-- R183, R184: at position 0 the snapshot is taken and bit 0 of it, 1, will be driven HIGH. -/
theorem test_evtRead :
    nextIs (step (secAt { booted with sec := { activeSec with txNext := 0xD#32 } } .read .start))
      (fun s => s.sec.sendBuf == 0xD#32 && s.sec.resp == .responding .read (.drive .high) 389) = true := by decide

/-- R186: the presence pulse starts with the switch, then LOW. -/
theorem test_evtReset :
    nextIs (step (secAt booted .reset .start))
      (fun s => s.sec.padDue == some ⟨.setDirection .output, 389⟩ &&
        s.sec.resp == .responding .reset (.drive .low) 389) = true := by decide

/-- R125, D38: the sample finds the SEC's LOW. -/
theorem test_presence_sample :
    nextIs (step (priAt { booted with line := .low } .reset false (.rst .sample))) (fun s => s.pri.presence) = true := by
  decide

/-- R211: two pads that agree give their level. -/
theorem test_line_both_low :
    nextIs (step { booted with
        phase := .line, pri := { readyPri with pad := .drivesLow }, sec := { activeSec with pad := .drivesLow } })
      (fun s => s.line == .low && s.linePrev == .low && s.sec.isrDueAt == some 390) = true := by decide

/-- R62: a 16-bit write is answered with the bus error and changes nothing. -/
theorem test_bus_error :
    nextIs (step (hostAt booted (.wr (.reg .P 0x0C) .w16 9#32)))
      (fun s => s.reply.error && s.pri.txData == 5#32) = true := by decide

/-- R198: without a SEC unit, an access to bank S is refused. -/
theorem test_absent_sec :
    step (hostAt { booted with par := { Params.defaults with secPresent := false } } (rdReg .S 0x04)) =
      .refused .secAbsent := rfl

/-- X16: an access outside both banks faults. -/
theorem test_outside_banks : step (hostAt booted (.rd (.addr 128) .w32)) = .fault .outsideBanks := rfl

/-- The word placed by the host is run by the very next step, from reset. -/
theorem test_withFetchWord :
    nextIs (step (base.withFetchWord 32 0x1)) (fun s => s.pri.lastErr == .cfg) = true ∧
    nextIs (step (base.withFetchWord 8 0x3)) (fun s => s.sec.resp == .responding .reset (.drive .low) 1) = true ∧
    nextIs (step (base.withFetchWord 3 0x2)) (fun s => s.sec.pending) = true := by decide

/-! ## Witnesses: states that meet the hypotheses of the statements -/

/-- A host access at a register of a bank that is there is a turn. -/
theorem hostAt_turn {s : State} {a : Access} {bank : Bank} {off : Nat}
    (h : locate s.par a.target = some (bank, off)) (hs : s.par.secPresent = true) :
    HostTurn (hostAt s a) a [] bank off := ⟨rfl, rfl, h, fun _ => hs⟩

theorem priAt_turn (s : State) (c : PriCmd) (sk : Bool) (p : PriPoint) : PriTurn (priAt s c sk p) c sk p :=
  ⟨rfl, rfl⟩

theorem secAt_turn {s : State} (b : EvtClass) (p : SecPoint) (hs : s.par.secPresent = true) :
    SecTurn (secAt s b p) b p := ⟨rfl, hs, rfl⟩

/-- One illegal word for each case R90 lists, and the two turns. -/
theorem witness_IllegalWordsRaiseIllegal :
    IllegalPri 0x0#32 ∧ IllegalPri 0x5#32 ∧ IllegalPri 0xF#32 ∧ IllegalPri 0x21#32 ∧ IllegalPri 0x80000001#32 ∧
    IllegalPri 0x11#32 ∧ IllegalPri 0x12#32 ∧
    IllegalSec 0x0#32 ∧ IllegalSec 0x3#32 ∧ IllegalSec 0x11#32 ∧ IllegalSec 0x80000002#32 ∧
    HostTurn (hostAt booted (wrReg .P 0x00 0x0#32)) (.wr (.reg .P 0x00) .w32 0x0#32) [] .P 0x00 ∧
    HostTurn (hostAt booted (wrReg .S 0x00 0x3#32)) (.wr (.reg .S 0x00) .w32 0x3#32) [] .S 0x00 := by
  refine ⟨?_, ?_, ?_, ?_, ?_, ?_, ?_, ?_, ?_, ?_, ?_, hostAt_turn rfl rfl, hostAt_turn rfl rfl⟩
  all_goals first | (unfold IllegalPri; decide) | (unfold IllegalSec; decide)

theorem witness_StepRunsDecodedInstruction :
    (HostTurn (hostAt booted (wrReg .P 0x00 0x1#32)) (.wr (.reg .P 0x00) .w32 0x1#32) [] .P 0x00 ∧
      decodePri 0x1#32 = .ok .init) ∧
    (HostTurn (hostAt booted (wrReg .S 0x00 0x2#32)) (.wr (.reg .S 0x00) .w32 0x2#32) [] .S 0x00 ∧
      decodeSec 0x2#32 = .ok .pop) ∧
    ((entryAt booted).phase = .handler ∧ booted.par.secPresent = true ∧
      (entryAt booted).sec.isrDueAt = some (entryAt booted).t) ∧
    SecTurn (secAt booted .read .start) .read .start ∧
    (let s := { booted with phase := .sec, sec := { activeSec with pending := true, pollAt := 388 } };
      s.phase = .sec ∧ s.par.secPresent = true ∧ s.sec.resp = .idle ∧ s.sec.pending = true ∧ s.sec.pollAt = s.t) :=
  ⟨⟨hostAt_turn rfl rfl, rfl⟩, ⟨hostAt_turn rfl rfl, rfl⟩, ⟨rfl, rfl, rfl⟩, secAt_turn _ _ rfl,
    ⟨rfl, rfl, rfl, rfl, rfl⟩⟩

/-- The largest and the smallest legal configuration. -/
theorem witness_PriCommandsAccepted :
    (let s := { booted with pri := { readyPri with cfg := { T := 0xFFFF#16, p2sBits := 32#6, s2pBits := 32#6 } } };
      s.pri.busy = false ∧ CfgLegal s.pri.cfg) ∧
    (let s := { booted with pri := { readyPri with cfg := { T := 1#16, p2sBits := 1#6, s2pBits := 1#6 } } };
      s.pri.busy = false ∧ CfgLegal s.pri.cfg) ∧
    (booted.pri.busy = false ∧ booted.pri.ready = true) := by decide

/-- Illegal by T = 0, by a width of 0 and by a width of 33. -/
theorem witness_PriCommandsRefused :
    (priAt booted .read false .start).pri.busy = true ∧
    (base.pri.busy = false ∧ base.pri.ready = false) ∧
    (∀ c, c = { cfg34 with T := 0#16 } ∨ c = { cfg34 with p2sBits := 0#6 } ∨ c = { cfg34 with s2pBits := 33#6 } →
      ({ readyPri with cfg := c } : PriUnit).busy = false ∧ ¬CfgLegal c) := by
  refine ⟨rfl, ⟨rfl, rfl⟩, ?_⟩
  rintro c (rfl | rfl | rfl) <;> exact ⟨rfl, by decide⟩

/-- The last iteration of each loop, and the iteration count itself. -/
theorem witness_InitStatements :
    PriTurn (priAt booted .init false .start) .init false .start ∧
    PriTurn (priAt booted .init false (.cal .firstRead)) .init false (.cal .firstRead) ∧
    (PriTurn (priAt booted .init false (.cal (.switch 63))) .init false (.cal (.switch 63)) ∧
      63 < booted.par.calNSwitch) ∧
    PriTurn (priAt booted .init false (.cal (.switchWait 63))) .init false (.cal (.switchWait 63)) ∧
    (PriTurn (priAt booted .init false (.cal (.switch 64))) .init false (.cal (.switch 64)) ∧
      booted.par.calNSwitch ≤ 64) ∧
    (PriTurn (priAt booted .init false (.cal (.write 127))) .init false (.cal (.write 127)) ∧
      127 < booted.par.calNWrite) ∧
    PriTurn (priAt booted .init false (.cal (.writeWait 127))) .init false (.cal (.writeWait 127)) :=
  ⟨priAt_turn .., priAt_turn .., ⟨priAt_turn .., by decide⟩, priAt_turn .., ⟨priAt_turn .., by decide⟩,
    ⟨priAt_turn .., by decide⟩, priAt_turn ..⟩

/-- The end of INIT with quotients 40 and 41, the largest that pass and the smallest that do not at T = 80. -/
theorem witness_InitEnds :
    (let s := priAt { booted with pri := { readyPri with prof := profile 80, calT1 := 2560#32 }, t := 2560 + 5120 }
        .init false (.cal (.write 128));
      PriTurn s .init false (.cal (.write 128)) ∧ s.par.calNWrite ≤ 128 ∧
      (s.pri.calT1 - s.pri.calT0).toNat / s.par.calNSwitch = 40 ∧
      (BitVec.ofNat 32 s.t - s.pri.calT1).toNat / s.par.calNWrite = 40 ∧ calOk s.pri.prof 40 40 = true) ∧
    (let s := priAt { booted with pri := { readyPri with prof := profile 80, calT1 := 2624#32 }, t := 2624 + 5120 }
        .init false (.cal (.write 128));
      PriTurn s .init false (.cal (.write 128)) ∧ s.par.calNWrite ≤ 128 ∧
      (s.pri.calT1 - s.pri.calT0).toNat / s.par.calNSwitch = 41 ∧
      (BitVec.ofNat 32 s.t - s.pri.calT1).toNat / s.par.calNWrite = 40 ∧ calOk s.pri.prof 41 40 = false) :=
  ⟨⟨priAt_turn .., by decide, by decide, by decide, by decide⟩,
    ⟨priAt_turn .., by decide, by decide, by decide, by decide⟩⟩

theorem witness_ResetPhaseStatements (c : PriCmd) (p : ResetPoint) :
    PriCmd.read ≠ .init ∧ PriTurn (priAt booted .read false .start) .read false .start ∧
    PriTurn (priAt booted c false (.rst p)) c false (.rst p) := ⟨by decide, priAt_turn .., priAt_turn ..⟩

theorem witness_PresenceGating (c : PriCmd) :
    PriTurn (priAt booted c false (.rst .finish)) c false (.rst .finish) ∧
    (priAt booted c false (.rst .finish)).pri.presence = false ∧
    (priAt { booted with pri := { readyPri with presence := true } } c false (.rst .finish)).pri.presence = true :=
  ⟨priAt_turn .., rfl, rfl⟩

/-- The last slot of three, and the slot count itself. -/
theorem witness_WriteSlotStatements (sk : Bool) :
    PriTurn (priAt booted .write true .start) .write true .start ∧
    (PriTurn (priAt booted .write sk (.wr 2 .head)) .write sk (.wr 2 .head) ∧ 2 < booted.pri.cfg.p2s) ∧
    PriTurn (priAt booted .write sk (.wr 2 .hold)) .write sk (.wr 2 .hold) ∧
    PriTurn (priAt booted .write sk (.wr 2 .high)) .write sk (.wr 2 .high) ∧
    PriTurn (priAt booted .write sk (.wr 2 .pause)) .write sk (.wr 2 .pause) ∧
    (PriTurn (priAt booted .write sk (.wr 3 .head)) .write sk (.wr 3 .head) ∧ booted.pri.cfg.p2s ≤ 3) :=
  ⟨priAt_turn .., ⟨priAt_turn .., by decide⟩, priAt_turn .., priAt_turn .., priAt_turn ..,
    ⟨priAt_turn .., by decide⟩⟩

/-- The last slot of four, the slot count itself, and bit 31. -/
theorem witness_ReadSlotStatements (sk : Bool) (v : Level) :
    PriTurn (priAt booted .read true .start) .read true .start ∧
    (PriTurn (priAt booted .read sk (.rd 3 .head)) .read sk (.rd 3 .head) ∧ 3 < booted.pri.cfg.s2p) ∧
    PriTurn (priAt booted .read sk (.rd 3 .hold)) .read sk (.rd 3 .hold) ∧
    PriTurn (priAt booted .read sk (.rd 3 .release)) .read sk (.rd 3 .release) ∧
    PriTurn (priAt booted .read sk (.rd 3 .wait)) .read sk (.rd 3 .wait) ∧
    PriTurn (priAt booted .read sk (.rd 3 .sample)) .read sk (.rd 3 .sample) ∧
    (PriTurn (priAt booted .read sk (.rd 31 (.store v))) .read sk (.rd 31 (.store v)) ∧ 31 < 32) ∧
    PriTurn (priAt booted .read sk (.rd 3 .settle)) .read sk (.rd 3 .settle) ∧
    (PriTurn (priAt booted .read sk (.rd 4 .head)) .read sk (.rd 4 .head) ∧ booted.pri.cfg.s2p ≤ 4) :=
  ⟨priAt_turn .., ⟨priAt_turn .., by decide⟩, priAt_turn .., priAt_turn .., priAt_turn .., priAt_turn ..,
    ⟨priAt_turn .., by decide⟩, priAt_turn .., ⟨priAt_turn .., by decide⟩⟩

/-! ### States that meet the invariants -/

/-- A skip WRITE accepted at instant 4 and about to start its last slot's loop head, with the SEC unit at rest. -/
def writing : State :=
  { base with
    t := 5, phase := .pri, sec := { activeSec with prof := profile 80 }
    pri := { readyPri with
      busy := true, prof := profile 80, seq := .running .write true (.wr 0 .head) 5 } }

/-- A reply to an event classified at instant 3, as its bit is on the line. -/
def replying : State :=
  { base with
    t := 5, phase := .sec
    sec := { activeSec with
      prof := profile 80, pending := true, pad := .drivesLow, resp := .responding .read .hold 5 } }

theorem writing_PriInv : PriInv writing := by
  constructor
  · exact ⟨fun _ h => (by cases h), fun _ => rfl⟩
  · decide
  · decide
  · intro c skip p due h; cases h; decide
  · intro c skip p due h; cases h; exact ⟨rfl, by decide, fun h => absurd rfl h, .inl rfl⟩
  · decide
  · intro skip p due h; cases h

theorem writing_SecInv : SecInv writing := by
  constructor
  case reply_in_width => intro p due h; cases h
  case branch_drives => intro b p due h; cases h
  case acc_above => intro k _; exact BitVec.getLsbD_zero
  all_goals decide

theorem writing_TimeInv : TimeInv writing := by
  constructor
  · intro c skip p due h; cases h; exact .inr ⟨rfl, by decide⟩
  · intro d h; cases h
  · intro _ b p due h; cases h
  · intro _ d h; cases h
  · intro _ due h; cases h
  · intro _ h; cases h

theorem writing_PadInv : PadInv writing := by
  constructor
  · intro d h; cases h
  · intro d h; cases h
  · intro h; cases h
  · intro c skip due h; cases h
  · intro c skip p due h _; cases h; rfl
  · intro _; exact ⟨rfl, rfl⟩
  · intro b p due h; cases h

theorem replying_SecInv : SecInv replying := by
  constructor
  case reply_in_width => intro p due h _; cases h; decide
  case branch_drives => intro b p due h _; cases h; exact .inl rfl
  case acc_above => intro k _; exact BitVec.getLsbD_zero
  all_goals decide

/-- A command is accepted; and one runs, under its invariant and its clock. -/
theorem witness_CommandDuration :
    (let s := hostAt booted (wrReg .P 0x00 0x1#32);
      s.pri.seq = .idle ∧ ∃ s', step s = .next s' ∧ s'.pri.seq ≠ .idle) ∧
    (PriInv writing ∧ ClockInv 4 writing ∧ writing.pri.seq ≠ .idle ∧ ∃ s', step writing = .next s') := by
  refine ⟨⟨rfl, _, rfl, ?_⟩, writing_PriInv, ?_, ?_, _, rfl⟩
  · intro h; cases h
  · intro c skip p due h; cases h; rfl
  · intro h; cases h

theorem booted_CalInv : CalInv booted := by
  constructor
  · intro c skip k due h; cases h
  · intro c skip k due h; cases h
  · intro c skip k due h; cases h
  · intro c skip k due h; cases h
  · intro _; exact ⟨rfl, rfl⟩

/-- A READY unit, and the last iteration of INIT's second loop, 4 · 64 and 4 · 128 µs after the readings. -/
theorem witness_CalibrationMeasured :
    (booted.par.Legal ∧ calFits booted.par ∧ CalInv booted ∧ ∃ s', step booted = .next s') ∧
    (let s := priAt { booted with t := 386, pri := { readyPri with calT0 := 2#32, calT1 := 130#32 } }
        .init false (.cal (.write 128));
      s.par.Legal ∧ calFits s.par ∧ CalInv s ∧ ∃ s', step s = .next s') := by
  refine ⟨⟨by decide, by unfold calFits; decide, booted_CalInv, _, rfl⟩, by decide, by unfold calFits; decide, ?_, _, rfl⟩
  constructor
  · intro c skip k due h; cases h
  · intro c skip k due h; cases h
  · intro c skip k due h; cases h; decide
  · intro c skip k due h; cases h
  · intro h; cases h

/-! ### SEC commands, handler and response -/

theorem witness_BeginCommand :
    (booted.sec.pending = false ∧ CfgLegal booted.sec.cfg) ∧
    (secAt booted .read .hold).sec.pending = true ∧
    (base.sec.pending = false ∧ ¬CfgLegal base.sec.cfg) := by decide

theorem witness_PopRemovesOldest :
    ({ activeSec with rxFifo := [7#32, 9#32] } : SecUnit).rxFifo = 7#32 :: [9#32] ∧ activeSec.rxFifo = [] := by decide

/-- The widest duration that the timer tells apart: 2^32 - 1. -/
theorem witness_EdgeEndPublishes :
    let s := { booted with t := 2 ^ 32 + 4, sec := { activeSec with isrState := .timing, start := 5#32 } }
    s.par.pollLatMin ≤ s.par.pollLatMax ∧ s.sec.start = BitVec.ofNat 32 5 ∧ 5 ≤ s.t ∧ s.t - 5 < 2 ^ 32 := by decide

theorem witness_HandlerTouchesOnlyItsState :
    let s := entryAt { booted with line := .low }
    let r := { s with pri := PriUnit.reset, sec := { s.sec with acc := 3#32 } }
    (s.phase = .handler ∧ r.phase = .handler ∧ r.par = s.par ∧ r.t = s.t ∧ r.line = s.line ∧ r.draws = s.draws ∧
      r.sec.irqLatch = s.sec.irqLatch ∧ r.sec.isrDueAt = s.sec.isrDueAt ∧ r.sec.isrState = s.sec.isrState ∧
      r.sec.start = s.sec.start ∧ r.sec.duration = s.sec.duration ∧ r.sec.pending = s.sec.pending ∧
      r.sec.pendSetAt = s.sec.pendSetAt ∧ r.sec.pollAt = s.sec.pollAt) ∧
    (∃ s', step s = .next s') ∧ ∃ r', step r = .next r' :=
  ⟨⟨rfl, rfl, rfl, rfl, rfl, rfl, rfl, rfl, rfl, rfl, rfl, rfl, rfl, rfl⟩, ⟨_, rfl⟩, ⟨_, rfl⟩⟩

/-- An edge that schedules an entry, one deferred with the source disabled, and no edge. -/
theorem witness_EdgeLatch :
    let low := { readyPri with pad := Pad.drivesLow }
    let s := { booted with phase := .line, pri := low }
    let d := { s with
      par := { Params.defaults with guardMode := .sourceDisable }, sec := { activeSec with pending := true } }
    let q := { booted with phase := .line }
    (s.phase = .line ∧ s.par.isrLatMin ≤ s.par.isrLatMax ∧ s.par.secPresent = true ∧ s.sec.active = true ∧
      s.sec.irqLatch = false ∧ s.par.guardMode = .entryGuard ∧
      nextIs (step s) (fun s' => s'.line != s.linePrev) = true) ∧
    (d.phase = .line ∧ d.par.isrLatMin ≤ d.par.isrLatMax ∧ d.par.secPresent = true ∧ d.sec.active = true ∧
      d.sec.irqLatch = false ∧ d.par.guardMode = .sourceDisable ∧ d.sec.pending = true ∧
      nextIs (step d) (fun s' => s'.line != d.linePrev) = true) ∧
    (q.phase = .line ∧ nextIs (step q) (fun s' => s'.line == q.linePrev) = true) := by decide

theorem witness_HandlerVectors :
    let s := entryAt writing
    SecInv s ∧ s.par.secPresent = true ∧ s.sec.isrDueAt = some s.t := by
  refine ⟨?_, rfl, rfl⟩
  constructor
  case reply_in_width => intro p due h; cases h
  case branch_drives => intro b p due h; cases h
  case acc_above => intro k _; exact BitVec.getLsbD_zero
  all_goals decide

/-- Source disabled: an entry that is due, with the flag clear. -/
theorem witness_HandlerVectors_sourceDisable :
    let s := entryAt { writing with par := { Params.defaults with guardMode := .sourceDisable } }
    SecInv s ∧ s.par.secPresent = true ∧ s.sec.isrDueAt = some s.t ∧ s.par.guardMode = .sourceDisable := by
  refine ⟨?_, rfl, rfl, rfl⟩
  constructor
  case reply_in_width => intro p due h; cases h
  case branch_drives => intro b p due h; cases h
  case acc_above => intro k _; exact BitVec.getLsbD_zero
  all_goals decide

/-- A publication by the handler, and a clear by the main loop. -/
theorem witness_MailboxOrdering :
    (let s := entryAt { booted with sec := { activeSec with isrState := .timing } };
      ∃ s', step s = .next s' ∧ s'.sec.duration ≠ s.sec.duration ∧ s.sec.pending = false ∧ s'.sec.pending = true) ∧
    (let s := secAt booted .bit1 .start;
      ∃ s', step s = .next s' ∧ s.sec.pending = true ∧ s'.sec.pending = false) :=
  ⟨⟨_, rfl, by decide, rfl, by decide⟩, ⟨_, rfl, rfl, by decide⟩⟩

/-- Three bits wide: positions 1, 2 and 3; a FIFO of four with three and with four packets. -/
theorem witness_WriteBitEvents :
    ({ activeSec with bitIndex := 1 } : SecUnit).bitIndex + 1 < cfg34.p2s ∧
    ({ activeSec with bitIndex := 2, rxFifo := [1#32, 2#32, 3#32] } : SecUnit).bitIndex + 1 = cfg34.p2s ∧
    [1#32, 2#32, 3#32].length < Params.defaults.rxFifoDepth ∧
    Params.defaults.rxFifoDepth ≤ [1#32, 2#32, 3#32, 4#32].length ∧
    cfg34.p2s ≤ ({ activeSec with bitIndex := 3 } : SecUnit).bitIndex := by decide

/-- Four bits wide: positions 3 and 4. -/
theorem witness_ReadEvent :
    ({ activeSec with bitIndex := 3 } : SecUnit).bitIndex < cfg34.s2p ∧
    cfg34.s2p ≤ ({ activeSec with bitIndex := 4 } : SecUnit).bitIndex := by decide

theorem witness_ResponseStatements (b : EvtClass) (p : SecPoint) : SecTurn (secAt booted b p) b p :=
  secAt_turn b p rfl

theorem witness_ClearLast :
    ¬(booted.par.guardMode = .sourceDisable ∧ booted.sec.irqLatch = true) ∧
    (let s := { booted with
        par := { Params.defaults with guardMode := .sourceDisable }, sec := { activeSec with irqLatch := true } };
      s.par.guardMode = .sourceDisable ∧ s.sec.irqLatch = true ∧ s.par.isrLatMin ≤ s.par.isrLatMax) := by decide

/-- A poll that finds an event, and a reply under way. -/
theorem witness_ResponseDuration :
    (let s := { booted with phase := .sec, sec := { activeSec with pending := true, pollAt := 388 } };
      s.sec.resp = .idle ∧ ∃ s', step s = .next s' ∧ s'.sec.resp ≠ .idle) ∧
    (SecInv replying ∧ RespClock 3 replying ∧ replying.sec.resp ≠ .idle ∧ ∃ s', step replying = .next s') := by
  refine ⟨⟨rfl, _, rfl, ?_⟩, replying_SecInv, ?_, ?_, _, rfl⟩
  · intro h; cases h
  · intro b p due h; cases h; rfl
  · intro h; cases h

/-- Packets of 1 and of 32 bits, with room and without. -/
theorem witness_PacketCompleteness :
    (let s := { booted with sec := { activeSec with cfg := { cfg34 with p2sBits := 1#6 } } };
      s.sec.bitIndex = 0 ∧ s.sec.acc = 0#32 ∧ [true].length = s.sec.cfg.p2s ∧ 1 ≤ s.sec.cfg.p2s ∧
      s.sec.cfg.p2s ≤ 32 ∧ s.sec.rxFifo.length < s.par.rxFifoDepth) ∧
    (let s := { booted with sec := { activeSec with
        cfg := { cfg34 with p2sBits := 32#6 }, rxFifo := [1#32, 2#32, 3#32, 4#32] } };
      s.sec.bitIndex = 0 ∧ s.sec.acc = 0#32 ∧ (List.replicate 32 true).length = s.sec.cfg.p2s ∧
      1 ≤ s.sec.cfg.p2s ∧ s.sec.cfg.p2s ≤ 32 ∧ s.par.rxFifoDepth ≤ s.sec.rxFifo.length) := by decide

/-- The end of a RESET branch, and an accepted BEGIN. -/
theorem witness_PositionClearedOnlyByReset :
    (let s := secAt { booted with sec := { activeSec with bitIndex := 2 } } .reset .finish;
      ∃ s', step s = .next s' ∧ s'.sec.bitIndex < s.sec.bitIndex) ∧
    (let s := hostAt { booted with sec := { activeSec with bitIndex := 2 } } (wrReg .S 0x00 0x1#32);
      ∃ s', step s = .next s' ∧ s'.sec.bitIndex < s.sec.bitIndex) :=
  ⟨⟨_, rfl, by decide⟩, ⟨_, rfl, by decide⟩⟩

/-! ### The line and the schedule -/

/-- Neither pad drives, one does, the other does, both agree, both contend. -/
theorem witness_LineResolution :
    let s := { booted with phase := .line, pri := PriUnit.reset }
    let l := { PriUnit.reset with pad := Pad.drivesLow }
    (s.phase = .line ∧ s.pri.pad.drive = none ∧ secDrive s = none) ∧
    (l.pad.drive = some .low) ∧
    (secDrive { s with sec := { activeSec with pad := .drivesLow } } = some .low) ∧
    (secDrive { s with sec := { activeSec with pad := .drivesHigh } } = some .high ∧ Level.low ≠ .high) ∧
    ∃ s', step s = .next s' := ⟨⟨rfl, rfl, rfl⟩, rfl, rfl, ⟨rfl, by decide⟩, _, rfl⟩

theorem witness_UnitsShareOnlyTheLine :
    (writing.phase = .pri ∧ ∃ s', step writing = .next s') ∧
    ((entryAt booted).phase = .handler ∧ ∃ s', step (entryAt booted) = .next s') ∧
    (replying.phase = .sec ∧ ∃ s', step replying = .next s') ∧
    (HostTurn (hostAt booted (rdReg .P 0x04)) (rdReg .P 0x04) [] .P 0x04 ∧
      ∃ s', step (hostAt booted (rdReg .P 0x04)) = .next s') ∧
    (HostTurn (hostAt booted (rdReg .S 0x04)) (rdReg .S 0x04) [] .S 0x04 ∧
      ∃ s', step (hostAt booted (rdReg .S 0x04)) = .next s') :=
  ⟨⟨rfl, _, rfl⟩, ⟨rfl, _, rfl⟩, ⟨rfl, _, rfl⟩, ⟨hostAt_turn rfl rfl, _, rfl⟩, ⟨hostAt_turn rfl rfl, _, rfl⟩⟩

/-- A link at the start of an instant, with one pad effect of each unit due at instant `due`. -/
def effectsDue (due : Nat) : State :=
  { booted with
    phase := .pads
    pri := { readyPri with padDue := some ⟨.writeLevel .low, due⟩ }
    sec := { activeSec with padDue := some ⟨.setDirection .output, due⟩ } }

/-- Phase 1 with an effect of each unit due now, due at the next instant, and with none scheduled. -/
theorem witness_UnitsShareOnlyTheLine_pads :
    ((effectsDue 388).phase = .pads ∧ (effectsDue 388).par.secPresent = true ∧
      (∃ d, (effectsDue 388).pri.padDue = some d ∧ d.due = (effectsDue 388).t) ∧
      ∃ d, (effectsDue 388).sec.padDue = some d ∧ d.due = (effectsDue 388).t) ∧
    ((∀ d, (effectsDue 389).pri.padDue = some d → d.due ≠ (effectsDue 389).t) ∧
      ∀ d, (effectsDue 389).sec.padDue = some d → d.due ≠ (effectsDue 389).t) ∧
    (∀ d, booted.pri.padDue = some d → d.due ≠ booted.t) ∧ ∀ d, booted.sec.padDue = some d → d.due ≠ booted.t := by
  refine ⟨⟨rfl, rfl, ⟨_, rfl, rfl⟩, ⟨_, rfl, rfl⟩⟩, ⟨?_, ?_⟩, ?_, ?_⟩ <;> intro d h <;> cases h <;> decide

/-- The end of an instant, with a contention recorded; each phase with nothing due, and those with something due. -/
theorem witness_TimerAndConstants :
    (let s := { booted with phase := .host, contended := true };
      s.contended = true ∧ s.phase = .host ∧ s.bus = [] ∧ ∃ s', step s = .next s' ∧ s'.t ≠ s.t) ∧
    (let s := { booted with phase := .handler }; s.phase = .handler ∧ s.sec.isrDueAt ≠ some s.t) ∧
    SecWaits { booted with phase := .sec } ∧ SecWaits { replying with t := replying.t - 1 } ∧
    PriWaits { booted with phase := .pri } ∧ PriWaits { writing with t := writing.t - 1 } ∧
    (replying.phase = .sec ∧ ¬SecWaits replying ∧ ∃ s', step replying = .next s') ∧
    (writing.phase = .pri ∧ ¬PriWaits writing ∧ ∃ s', step writing = .next s') ∧
    (let s := hostAt booted (rdReg .P 0x04); s.phase = .host ∧ s.bus ≠ [] ∧ ∃ s', step s = .next s') := by
  refine ⟨⟨rfl, rfl, rfl, _, rfl, by decide⟩, ⟨rfl, by decide⟩, ⟨rfl, fun _ => ⟨?_, ?_⟩⟩,
    ⟨rfl, fun _ => ⟨?_, ?_⟩⟩, ⟨rfl, ?_⟩, ⟨rfl, ?_⟩, ⟨rfl, fun h => (h.2 rfl).2 _ _ _ rfl rfl, _, rfl⟩,
    ⟨rfl, fun h => h.2 _ _ _ _ rfl rfl, _, rfl⟩, rfl, by decide, _, rfl⟩
  · intro _ h; cases h
  · intro b p due h; cases h
  · intro h; cases h
  · intro b p due h; cases h; decide
  · intro c sk p due h; cases h
  · intro c sk p due h; cases h; decide

/-- The smallest T of R287 under the defaults, with both latencies at both ends and a duration that arises. -/
theorem witness_PulsesFallInTheirClasses :
    22 < 2 ^ 16 ∧ classifiesWell Params.defaults 22 ∧
    (Params.defaults.isrLatMin ≤ 2 ∧ 2 ≤ Params.defaults.isrLatMax) ∧
    (11#32).toNat + 2 = (pulses Params.defaults 22).write1Pulse + 2 ∧
    (33#32).toNat + 2 = (pulses Params.defaults 22).write0Pulse + 2 ∧
    (57#32).toNat + 2 = (pulses Params.defaults 22).readPulse + 2 ∧
    (112#32).toNat + 2 = (pulses Params.defaults 22).resetPulse + 2 := by decide

/-- The durations at each ceiling of the default profile and just above it. -/
theorem witness_ProfileArithmetic :
    1 ≤ 80 ∧ (80#32).toNat ≤ 80 ∧ (80 < (81#32).toNat ∧ (160#32).toNat ≤ 2 * 80) ∧
    (2 * 80 < (161#32).toNat ∧ (240#32).toNat ≤ 3 * 80) ∧ 3 * 80 < (241#32).toNat := by decide

/-! ### Host registers -/

theorem witness_StatusWriteClears :
    HostTurn (hostAt booted (wrReg .P 0x04 0x18#32)) (.wr (.reg .P 0x04) .w32 0x18#32) [] .P 0x04 ∧
    HostTurn (hostAt booted (wrReg .S 0x04 0x30#32)) (.wr (.reg .S 0x04) .w32 0x30#32) [] .S 0x04 :=
  ⟨hostAt_turn rfl rfl, hostAt_turn rfl rfl⟩

/-- With the unit free and with it busy, in each bank; by register and by host address. -/
theorem witness_CfgWrites :
    (HostTurn (hostAt booted (wrReg .P 0x08 0x04030050#32)) (.wr (.reg .P 0x08) .w32 0x04030050#32) [] .P 0x08 ∧
      booted.pri.busy = false) ∧
    (HostTurn (hostAt writing (.wr (.addr 8) .w32 0#32)) (.wr (.addr 8) .w32 0#32) [] .P 0x08 ∧
      writing.pri.busy = true) ∧
    (HostTurn (hostAt booted (wrReg .S 0x08 0x04030050#32)) (.wr (.reg .S 0x08) .w32 0x04030050#32) [] .S 0x08 ∧
      booted.sec.pending = false) ∧
    (HostTurn (hostAt replying (.wr (.addr 72) .w32 0#32)) (.wr (.addr 72) .w32 0#32) [] .S 0x08 ∧
      replying.sec.pending = true) :=
  ⟨⟨hostAt_turn rfl rfl, rfl⟩, ⟨hostAt_turn (by decide) rfl, rfl⟩, ⟨hostAt_turn rfl rfl, rfl⟩,
    ⟨hostAt_turn (by decide) rfl, rfl⟩⟩

theorem witness_DataAndEnableWrites (v : Word) :
    HostTurn (hostAt booted (wrReg .P 0x0C v)) (.wr (.reg .P 0x0C) .w32 v) [] .P 0x0C ∧
    HostTurn (hostAt booted (wrReg .P 0x18 v)) (.wr (.reg .P 0x18) .w32 v) [] .P 0x18 ∧
    HostTurn (hostAt booted (wrReg .S 0x0C v)) (.wr (.reg .S 0x0C) .w32 v) [] .S 0x0C ∧
    HostTurn (hostAt booted (wrReg .S 0x18 v)) (.wr (.reg .S 0x18) .w32 v) [] .S 0x18 :=
  ⟨hostAt_turn rfl rfl, hostAt_turn rfl rfl, hostAt_turn rfl rfl, hostAt_turn rfl rfl⟩

/-- The first and the last offset of each clause. -/
theorem witness_ReadOnlyAndReserved (v : Word) :
    HostTurn (hostAt booted (wrReg .P 0x10 v)) (.wr (.reg .P 0x10) .w32 v) [] .P 0x10 ∧
    HostTurn (hostAt booted (wrReg .P 0x3C v)) (.wr (.reg .P 0x3C) .w32 v) [] .P 0x3C ∧
    HostTurn (hostAt booted (wrReg .S 0x10 v)) (.wr (.reg .S 0x10) .w32 v) [] .S 0x10 ∧
    HostTurn (hostAt booted (wrReg .S 0x3C v)) (.wr (.reg .S 0x3C) .w32 v) [] .S 0x3C ∧
    HostTurn (hostAt booted (rdReg .P 0x20)) (.rd (.reg .P 0x20) .w32) [] .P 0x20 ∧
    HostTurn (hostAt booted (rdReg .P 0x3C)) (.rd (.reg .P 0x3C) .w32) [] .P 0x3C ∧
    HostTurn (hostAt booted (rdReg .S 0x2C)) (.rd (.reg .S 0x2C) .w32) [] .S 0x2C ∧
    HostTurn (hostAt booted (rdReg .S 0x3C)) (.rd (.reg .S 0x3C) .w32) [] .S 0x3C ∧
    (0x3C % 4 = 0 ∧ 0x3C < 64) :=
  ⟨hostAt_turn rfl rfl, hostAt_turn rfl rfl, hostAt_turn rfl rfl, hostAt_turn rfl rfl, hostAt_turn rfl rfl,
    hostAt_turn rfl rfl, hostAt_turn rfl rfl, hostAt_turn rfl rfl, by decide⟩

/-- Every register of bank P and of bank S, the first and the last among them. -/
theorem witness_ReadsHaveNoSideEffect :
    HostTurn (hostAt booted (rdReg .P 0x00)) (.rd (.reg .P 0x00) .w32) [] .P 0x00 ∧
    HostTurn (hostAt booted (rdReg .P 0x1C)) (.rd (.reg .P 0x1C) .w32) [] .P 0x1C ∧
    HostTurn (hostAt booted (rdReg .S 0x00)) (.rd (.reg .S 0x00) .w32) [] .S 0x00 ∧
    HostTurn (hostAt booted (rdReg .S 0x28)) (.rd (.reg .S 0x28) .w32) [] .S 0x28 ∧ 0x1C % 4 = 0 ∧ 0x28 % 4 = 0 :=
  ⟨hostAt_turn rfl rfl, hostAt_turn rfl rfl, hostAt_turn rfl rfl, hostAt_turn rfl rfl, by decide, by decide⟩

/-- The last offset of a bank; a narrow write; a read at offset 1; the first address after the banks. -/
theorem witness_BusError :
    (Params.defaults.Legal ∧ 63 < 64) ∧
    (HostTurn (hostAt booted (.wr (.reg .P 0x08) .w8 1#32)) (.wr (.reg .P 0x08) .w8 1#32) [] .P 0x08 ∧
      (Access.wr (.reg .P 0x08) .w8 1#32).width ≠ .w32) ∧
    (HostTurn (hostAt booted (.rd (.addr 65) .w32)) (.rd (.addr 65) .w32) [] .S 1 ∧ 1 % 4 ≠ 0) ∧
    (let s := hostAt booted (.rd (.addr 128) .w32);
      s.phase = .host ∧ s.bus = .rd (.addr 128) .w32 :: [] ∧ locate s.par (.addr 128) = none) :=
  ⟨by decide, ⟨hostAt_turn rfl rfl, by decide⟩, ⟨hostAt_turn (by decide) rfl, by decide⟩, ⟨rfl, rfl, by decide⟩⟩

/-- A poll that is satisfied, one that is not, and the three kinds of line. -/
theorem witness_HostLines :
    (HostTurn (hostAt booted (.poll (.reg .P 0x04) 1#32 0#32)) (.poll (.reg .P 0x04) 1#32 0#32) [] .P 0x04 ∧
      regRead .P 0x04 (hostAt booted (.poll (.reg .P 0x04) 1#32 0#32)) &&& 1#32 = 0#32) ∧
    (HostTurn (hostAt writing (.poll (.reg .P 0x04) 1#32 0#32)) (.poll (.reg .P 0x04) 1#32 0#32) [] .P 0x04 ∧
      regRead .P 0x04 (hostAt writing (.poll (.reg .P 0x04) 1#32 0#32)) &&& 1#32 ≠ 0#32) ∧
    (let s := { booted with phase := .pri, prog := [.accesses pseudoPriInit] };
      PriWaits s ∧ s.prog = [.accesses pseudoPriInit]) ∧
    (let s := { writing with t := writing.t - 1, prog := [pseudoPriWait] };
      PriWaits s ∧ s.pri.seq ≠ .idle ∧ s.prog = [.poll (.reg .P 0x04) 1#32 0#32]) ∧
    (let s := { booted with phase := .pri, prog := [.idle 1] }; PriWaits s ∧ s.prog = [.idle (0 + 1)]) ∧
    (let s := { booted with phase := .pri, prog := [.idle 0] }; PriWaits s ∧ s.prog = [.idle 0]) ∧
    (let s := { booted with phase := .pri }; PriWaits s ∧ s.prog = []) := by
  refine ⟨⟨hostAt_turn rfl rfl, by decide⟩, ⟨hostAt_turn rfl rfl, by decide⟩, ⟨⟨rfl, ?_⟩, rfl⟩,
    ⟨⟨rfl, ?_⟩, by decide, rfl⟩, ⟨⟨rfl, ?_⟩, rfl⟩, ⟨⟨rfl, ?_⟩, rfl⟩, ⟨⟨rfl, ?_⟩, rfl⟩⟩ <;>
    intro c sk p due h <;> cases h
  decide

theorem witness_InterruptOutputs : base.par.secPresent = true := rfl

theorem witness_ProfileOnlyByCfgWrite :
    (let s := hostAt booted (wrReg .P 0x08 0x04030051#32);
      ∃ s', step s = .next s' ∧ s'.pri.prof ≠ s.pri.prof) ∧
    (let s := hostAt booted (wrReg .S 0x08 0x04030051#32);
      ∃ s', step s = .next s' ∧ s'.sec.prof ≠ s.sec.prof) := ⟨⟨_, rfl, by decide⟩, ⟨_, rfl, by decide⟩⟩

/-- PRESENCE rises at a LOW sample and falls at a HIGH one. -/
theorem witness_PresenceOnlyAtSample :
    (let s := priAt { booted with line := .low } .reset false (.rst .sample);
      ∃ s', step s = .next s' ∧ s'.pri.presence ≠ s.pri.presence) ∧
    (let s := priAt { booted with pri := { readyPri with presence := true } } .reset false (.rst .sample);
      ∃ s', step s = .next s' ∧ s'.pri.presence ≠ s.pri.presence) := ⟨⟨_, rfl, by decide⟩, ⟨_, rfl, by decide⟩⟩

/-- A READ of four bits about to complete with the packet 0xD. -/
theorem witness_RxDataOnlyAtReadEnd :
    let s := { writing with
      pri := { writing.pri with rxAcc := 0xD#32, seq := .running .read true (.rd 4 .head) 5 } }
    PriInv s ∧ ∃ s', step s = .next s' ∧ s'.pri.rxData ≠ s.pri.rxData := by
  refine ⟨?_, _, rfl, by decide⟩
  constructor
  · exact ⟨fun _ h => (by cases h), fun _ => rfl⟩
  · decide
  · decide
  · intro c skip p due h; cases h; decide
  · intro c skip p due h; cases h; exact ⟨rfl, by decide, fun h => absurd rfl h, .inl rfl⟩
  · decide
  · intro skip p due h _ k hk
    cases h
    show (0xD#32).getLsbD k = false
    rw [BitVec.getLsbD_ofNat]
    have hk : 4 ≤ k := hk
    have : Nat.testBit 13 k = false := Nat.testBit_lt_two_pow (Nat.lt_of_lt_of_le (by decide : 13 < 2 ^ 4)
      (Nat.pow_le_pow_right (by decide) hk))
    simp [this]

/-- A command and a response in other phases than their own. -/
theorem witness_NotCancelled :
    (PriInv { writing with phase := .host } ∧
      ({ writing with phase := .host } : State).pri.seq = .running .write true (.wr 0 .head) 5 ∧
      (∃ s', step { writing with phase := .host } = .next s') ∧ ¬(Phase.host = .pri ∧ 5 = 5)) ∧
    (({ replying with phase := .host } : State).sec.resp = .responding .read .hold 5 ∧
      (∃ s', step { replying with phase := .host } = .next s') ∧ ¬(Phase.host = .sec ∧ 5 = 5)) := by
  refine ⟨⟨?_, rfl, ⟨_, rfl⟩, by decide⟩, rfl, ⟨_, rfl⟩, by decide⟩
  constructor
  · exact ⟨fun _ h => (by cases h), fun _ => rfl⟩
  · decide
  · decide
  · intro c skip p due h; cases h; decide
  · intro c skip p due h; cases h; exact ⟨rfl, by decide, fun h => absurd rfl h, .inl rfl⟩
  · decide
  · intro skip p due h; cases h

/-! ### No SEC unit -/

/-- A PRI unit alone, sampling for presence. -/
def alone : State :=
  { base with
    par := { Params.defaults with secPresent := false }, phase := .pri
    pri := { readyPri with
      pad := .released, busy := true, seq := .running .reset false (.rst .sample) 0 } }

theorem witness_AbsentSec :
    (let s := hostAt alone (rdReg .S 0x3C);
      s.par.secPresent = false ∧ s.phase = .host ∧ s.bus = rdReg .S 0x3C :: [] ∧
      locate s.par (rdReg .S 0x3C).target = some (.S, 0x3C)) ∧ ∃ s', step alone = .next s' :=
  ⟨⟨rfl, rfl, rfl, rfl⟩, _, rfl⟩

theorem witness_AbsentSecNoPresence :
    alone.par.secPresent = false ∧ TimeInv alone ∧ PadInv alone ∧ LineInv alone ∧
    PriTurn alone .reset false (.rst .sample) ∧ ∃ s', step alone = .next s' := by
  refine ⟨rfl, ?_, ?_, ?_, ⟨rfl, rfl⟩, _, rfl⟩
  · constructor
    · intro c skip p due h; cases h; exact .inr ⟨rfl, by decide⟩
    · intro d h; cases h
    · intro h; cases h
    · intro h; cases h
    · intro h; cases h
    · intro h; cases h
  · constructor
    · intro d h; cases h
    · intro d h; cases h
    · intro h; cases h
    · intro c skip due h; cases h
    · intro c skip p due h _; cases h; rfl
    · intro _; exact ⟨rfl, rfl⟩
    · intro b p due h; cases h
  · constructor
    · rfl
    · intro _ lv h; cases h; rfl
    · intro _; rfl

/-! ### Invariants -/

theorem witness_SecInvKept :
    (SecInv writing ∧ ∃ s', step writing = .next s') ∧ (SecInv replying ∧ ∃ s', step replying = .next s') :=
  ⟨⟨writing_SecInv, _, rfl⟩, ⟨replying_SecInv, _, rfl⟩⟩

theorem witness_PriInvKept : PriInv writing ∧ ∃ s', step writing = .next s' := ⟨writing_PriInv, _, rfl⟩

theorem witness_NoActionPassedBy : writing.par.Legal ∧ TimeInv writing ∧ ∃ s', step writing = .next s' :=
  ⟨by decide, writing_TimeInv, _, rfl⟩

theorem witness_PadInvKept :
    writing.par.Legal ∧ SecInv writing ∧ PriInv writing ∧ TimeInv writing ∧ PadInv writing ∧
    ∃ s', step writing = .next s' :=
  ⟨by decide, writing_SecInv, writing_PriInv, writing_TimeInv, writing_PadInv, _, rfl⟩

theorem witness_LineInvKept : LineInv writing ∧ ∃ s', step writing = .next s' := by
  refine ⟨?_, _, rfl⟩
  constructor
  · rfl
  · intro _ lv h; cases h; rfl
  · intro _; rfl

/-- Both units booted and at rest, the PRI pad driving HIGH. -/
theorem witness_QuiescentStaysQuiescent :
    Quiescent booted ∧ LineAtRest booted ∧ booted.bus = [] ∧ ∃ s', step booted = .next s' := by
  refine ⟨?_, ⟨rfl, rfl⟩, rfl, _, rfl⟩
  exact ⟨rfl, rfl, rfl, ⟨rfl, rfl⟩, rfl, ⟨rfl, rfl⟩⟩

end Sys2Proof.Tests
end

section
/-! PROOFS. Writes of the host registers: the step of an aligned word write, and what a write of STATUS does
(spec/10_state.md R23, R37). -/

namespace Sys2Proof.Machine

/-- A write of a register other than CMD is the update of its bank. -/
theorem regWrite_pri {off : Nat} (v : Word) (s : State) (h : priRegAt off ≠ .cmd) :
    regWrite .P off v s = .next (writePri (priRegAt off) v s) := by
  unfold regWrite
  cases hr : priRegAt off with
  | cmd => exact absurd hr h
  | _ => rfl

theorem regWrite_sec {off : Nat} (v : Word) (s : State) (h : secRegAt off ≠ .cmd) :
    regWrite .S off v s = .next (writeSec (secRegAt off) v s) := by
  unfold regWrite
  cases hr : secRegAt off with
  | cmd => exact absurd hr h
  | _ => rfl

/-- The step of an aligned word write: the access leaves the bus, the bus answers 0 without error, and the write
takes effect (R62, R63). -/
theorem HostTurn.step_write {s : State} {tgt : Target} {v : Word} {rest : List Access} {bank : Bank} {off : Nat}
    (h : HostTurn s (.wr tgt .w32 v) rest bank off) (ha : off % 4 = 0) :
    step s = regWrite bank off v ((s.withBus rest).withReply { data := 0#32, error := false }) := by
  have hok : busOk (Access.wr tgt .w32 v).width off = true := by simp [busOk, Access.width, ha]
  rw [h.step_eq, if_pos hok]
  rfl

theorem HostTurn.step_writePri {s : State} {tgt : Target} {v : Word} {rest : List Access} {off : Nat}
    (h : HostTurn s (.wr tgt .w32 v) rest .P off) (ha : off % 4 = 0) (hr : priRegAt off ≠ .cmd) :
    step s = .next (writePri (priRegAt off) v
      ((s.withBus rest).withReply { data := 0#32, error := false })) := by
  rw [h.step_write ha, regWrite_pri v _ hr]

theorem HostTurn.step_writeSec {s : State} {tgt : Target} {v : Word} {rest : List Access} {off : Nat}
    (h : HostTurn s (.wr tgt .w32 v) rest .S off) (ha : off % 4 = 0) (hr : secRegAt off ≠ .cmd) :
    step s = .next (writeSec (secRegAt off) v
      ((s.withBus rest).withReply { data := 0#32, error := false })) := by
  rw [h.step_write ha, regWrite_sec v _ hr]

/-- A 1 clears: the model keeps a flag unless its bit is 1, the spec sets it to 0 if the bit is 1 (R23, R37). -/
theorem writePriStatus_eq (v : Word) (s : State) :
    writePriStatus v s = s.withPri { s.pri with
      done := if v.getLsbD 3 then false else s.pri.done
      err := if v.getLsbD 4 then false else s.pri.err
      lastErr := if v.getLsbD 4 then .none else s.pri.lastErr } := by
  simp [writePriStatus, Bool.if_false_left, Bool.and_comm]

theorem writeSecStatus_eq (v : Word) (s : State) :
    writeSecStatus v s = s.withSec { s.sec with
      rxOvf := if v.getLsbD 4 then false else s.sec.rxOvf
      err := if v.getLsbD 5 then false else s.sec.err
      lastErr := if v.getLsbD 5 then .none else s.sec.lastErr } := by
  simp [writeSecStatus, Bool.if_false_left, Bool.and_comm]

end Sys2Proof.Machine

namespace Sys2Proof.Proofs

open Sys2Proof Sys2Proof.Machine

/-- Settles O38: in each bank the step of the write is the write of STATUS, whose flags are cleared bit by bit. -/
theorem statusWriteClears : Obligations.StatusWriteClears := by
  constructor
  · intro s tgt v rest h
    rw [h.step_writePri rfl (by decide)]
    exact congrArg _ (writePriStatus_eq v _)
  · intro s tgt v rest h
    rw [h.step_writeSec rfl (by decide)]
    exact congrArg _ (writeSecStatus_eq v _)

end Sys2Proof.Proofs
end

section
/-! PROOFS. The illegal command words: R90's lists are what R93's decoders reject, and a write of such a word to
CMD raises ILLEGAL alone (spec/30_encoding.md R90, R93; spec/60_exceptions.md R241). -/

namespace Sys2Proof.Machine

/-- A decoder answers no instruction exactly when it rejects: there is no third answer. -/
theorem forall_ne_ok_iff_error {r : Except Reject Instr} : (∀ i, r ≠ .ok i) ↔ ∃ e, r = .error e := by
  cases r <;> simp

/-- R93 decides the reserved bits first, then OP, then SKIPRST where OP is INIT or RESET. -/
theorem decodePri_error_iff (w : Word) : (∃ e, decodePri w = .error e) ↔ IllegalPri w := by
  unfold decodePri IllegalPri
  by_cases hr : w.extractLsb' 5 27 = 0#27
  · rw [if_neg (not_not_intro hr)]
    generalize (opField w).toNat = op
    match op with
    | 0 => simp
    | 1 | 2 | 3 | 4 => cases w.getLsbD 4 <;> simp [hr]
    | n + 5 => simp
  · simp [hr]

/-- R93 decides the reserved bits first, then OP. -/
theorem decodeSec_error_iff (w : Word) : (∃ e, decodeSec w = .error e) ↔ IllegalSec w := by
  unfold decodeSec IllegalSec
  by_cases hr : w.extractLsb' 4 28 = 0#28
  · rw [if_neg (not_not_intro hr)]
    generalize (opField w).toNat = op
    match op with
    | 0 => simp
    | 1 | 2 => simp [hr]
    | n + 3 => simp
  · simp [hr]

/-- A rejected word is not executed, whatever the reason of the rejection. -/
theorem commandPri_of_illegal {w : Word} (h : IllegalPri w) (s : State) :
    commandPri w s = .next (raisePri .illegal s) := by
  obtain ⟨e, he⟩ := (decodePri_error_iff w).mpr h
  rw [commandPri, he]

theorem commandSec_of_illegal {w : Word} (h : IllegalSec w) (s : State) :
    commandSec w s = .next (raiseSec .illegal s) := by
  obtain ⟨e, he⟩ := (decodeSec_error_iff w).mpr h
  rw [commandSec, he]

/-- The step of a word write to `P.CMD` is the command the word stands for (R21). -/
theorem HostTurn.step_commandPri {s : State} {tgt : Target} {w : Word} {rest : List Access}
    (h : HostTurn s (.wr tgt .w32 w) rest .P 0x00) :
    step s = commandPri w ((s.withBus rest).withReply { data := 0#32, error := false }) := by
  rw [h.step_write rfl]
  rfl

/-- The step of a word write to `S.CMD` is the command the word stands for (R34). -/
theorem HostTurn.step_commandSec {s : State} {tgt : Target} {w : Word} {rest : List Access}
    (h : HostTurn s (.wr tgt .w32 w) rest .S 0x00) :
    step s = commandSec w ((s.withBus rest).withReply { data := 0#32, error := false }) := by
  rw [h.step_write rfl]
  rfl

end Sys2Proof.Machine

namespace Sys2Proof.Proofs

open Sys2Proof Sys2Proof.Machine

/-- Settles O3: R90's lists are the words the decoders reject, and the step of a rejected word is the raise of
ILLEGAL. -/
theorem illegalWordsRaiseIllegal : Obligations.IllegalWordsRaiseIllegal := by
  refine ⟨fun w => ?_, fun w => ?_, fun s tgt w rest h hw => ?_, fun s tgt w rest h hw => ?_⟩
  · rw [forall_ne_ok_iff_error, decodePri_error_iff]
  · rw [forall_ne_ok_iff_error, decodeSec_error_iff]
  · rw [h.step_commandPri, commandPri_of_illegal hw]
    rfl
  · rw [h.step_commandSec, commandSec_of_illegal hw]
    rfl

end Sys2Proof.Proofs
end

section
/-! PROOFS. What becomes of the two profiles: every step keeps both, but for the write of a CFG register that is
accepted (spec/40_timing_profile.md R103; spec/10_state.md R24, R36). -/

namespace Sys2Proof.Machine

/-- Both units' profiles are what they were. -/
def KeepsProfiles (s s' : State) : Prop := s'.pri.prof = s.pri.prof ∧ s'.sec.prof = s.sec.prof

/-! ## The engine's own phases -/

theorem finishInit_prof (s : State) : (finishInit s).pri.prof = s.pri.prof := by
  unfold finishInit
  dsimp only
  split <;> rfl

theorem calAct_prof (c : PriCmd) (sk : Bool) (q : CalPoint) (s : State) :
    (calAct c sk q s).pri.prof = s.pri.prof := by
  cases q with
  | switch k => simp only [calAct]; split <;> rfl
  | write k =>
    simp only [calAct]
    split
    · rfl
    · exact finishInit_prof _
  | _ => rfl

theorem afterReset_prof (c : PriCmd) (sk : Bool) (s : State) : (afterReset c sk s).pri.prof = s.pri.prof := by
  cases c with
  | init | reset => rfl
  | write | read => simp only [afterReset]; split <;> rfl

theorem resetAct_prof (c : PriCmd) (sk : Bool) (q : ResetPoint) (s : State) :
    (resetAct c sk q s).pri.prof = s.pri.prof := by
  cases q with
  | finish => exact afterReset_prof c sk s
  | _ => rfl

theorem writeAct_prof (c : PriCmd) (sk : Bool) (i : Nat) (q : WritePoint) (s : State) :
    (writeAct c sk i q s).pri.prof = s.pri.prof := by
  cases q with
  | head => simp only [writeAct]; split <;> rfl
  | _ => rfl

theorem readAct_prof (c : PriCmd) (sk : Bool) (i : Nat) (q : ReadPoint) (s : State) :
    (readAct c sk i q s).pri.prof = s.pri.prof := by
  cases q with
  | head => simp only [readAct]; split <;> rfl
  | _ => rfl

/-- The sequencer reads the profile and never writes it. -/
theorem priAct_prof (c : PriCmd) (sk : Bool) (p : PriPoint) (s : State) :
    (priAct c sk p s).pri.prof = s.pri.prof := by
  cases p with
  | start => cases c <;> rfl
  | cal q => exact calAct_prof c sk q s
  | rst q => exact resetAct_prof c sk q s
  | wr i q => exact writeAct_prof c sk i q s
  | rd i q => exact readAct_prof c sk i q s

theorem keepsProfiles_padsPhase (s : State) : KeepsProfiles s (padsPhase s) := by
  rw [KeepsProfiles, padsPhase_eq]
  exact ⟨rfl, by dsimp only; split <;> rfl⟩

theorem keepsProfiles_linePhase (s : State) : KeepsProfiles s (linePhase s) := by
  obtain ⟨hpri, ⟨a, b, hsec⟩, -⟩ := linePhase_frame s
  exact ⟨by rw [hpri], by rw [hsec]⟩

theorem keepsProfiles_handler_step {s s' : State} (h : s.phase = .handler) (e : step s = .next s') :
    KeepsProfiles s s' := by
  obtain ⟨hpri, -, -, -, -, -, -, -, -, -, hsec | ⟨-, -, -, -, hsec, -⟩⟩ := handler_step_frame h e
  · exact ⟨by rw [hpri], by rw [hsec]⟩
  · exact ⟨by rw [hpri], by rw [hsec]⟩

theorem keepsProfiles_receiveBit (b : Bool) (s : State) : KeepsProfiles s (receiveBit b s) := by
  obtain ⟨-, -, -, -, -, hpri, -, -, -, -, hsec, -⟩ := receiveBit_frame b s
  exact ⟨by rw [hpri], by rw [hsec]⟩

theorem keepsProfiles_startReply (s : State) : KeepsProfiles s (startReply s) := by
  obtain ⟨-, -, -, -, -, hpri, -, -, -, -, hsec, -⟩ := startReply_frame s
  exact ⟨by rw [hpri], by rw [hsec]⟩

theorem keepsProfiles_secAct (b : EvtClass) (p : SecPoint) (s : State) : KeepsProfiles s (secAct b p s) := by
  obtain ⟨-, -, -, -, -, hpri, -, -, -, -, hsec, -⟩ := secAct_frame b p s
  exact ⟨by rw [hpri], by rw [hsec]⟩

/-- The start of a branch, whichever the class. -/
theorem keepsProfiles_exec_evt {b : EvtClass} {s s' : State} (e : exec (decodeEvt b.code) s = .next s') :
    KeepsProfiles s s' := by
  rw [exec_evt] at e
  cases b <;> cases e
  case bit1 | bit0 => exact keepsProfiles_receiveBit _ s
  case read => exact keepsProfiles_startReply s
  case reset => exact ⟨rfl, rfl⟩

theorem keepsProfiles_secPhase {s s' : State} (e : secPhase s = .next s') : KeepsProfiles s s' := by
  rcases secPhase_cases s with ⟨h, -⟩ | ⟨-, -, -, -, h⟩ | ⟨b, -, -, h⟩ | ⟨b, p, -, -, -, h⟩ <;> rw [h] at e
  · cases e; exact ⟨rfl, rfl⟩
  · cases e; exact ⟨rfl, rfl⟩
  · exact keepsProfiles_exec_evt e
  · cases e; exact keepsProfiles_secAct b p s

theorem keepsProfiles_priPhase (s : State) : KeepsProfiles s (priPhase s) := by
  rcases priPhase_cases s with ⟨h, -⟩ | ⟨c, sk, p, -, h⟩ <;> rw [h]
  · exact ⟨rfl, rfl⟩
  · exact ⟨priAct_prof c sk p s, by rw [priAct_pri]; rfl⟩

/-! ## The host's writes -/

/-- CFG stands at offset 8 of bank P and nowhere else (R61). -/
theorem priRegAt_eq_cfg {off : Nat} (h : priRegAt off = .cfg) : off = 0x08 := by
  unfold priRegAt at h
  split at h <;> cases h
  rfl

theorem secRegAt_eq_cfg {off : Nat} (h : secRegAt off = .cfg) : off = 0x08 := by
  unfold secRegAt at h
  split at h <;> cases h
  rfl

/-- R24: a refused write of CFG raises BUSY alone, an accepted one recomputes the profile from the T written. -/
theorem writePriCfg_prof (v : Word) (s : State) :
    (writePriCfg v s).pri.prof = s.pri.prof ∨
    (writePriCfg v s).pri.prof = profile (v.extractLsb' 0 16).toNat := by
  unfold writePriCfg
  split
  · exact .inl rfl
  · exact .inr rfl

theorem writeSecCfg_prof (v : Word) (s : State) :
    (writeSecCfg v s).sec.prof = s.sec.prof ∨
    (writeSecCfg v s).sec.prof = profile (v.extractLsb' 0 16).toNat := by
  unfold writeSecCfg
  split
  · exact .inl rfl
  · exact .inr rfl

theorem writePri_prof (r : PriReg) (v : Word) (s : State) :
    (writePri r v s).pri.prof = s.pri.prof ∨
    (r = .cfg ∧ (writePri r v s).pri.prof = profile (v.extractLsb' 0 16).toNat) := by
  cases r with
  | cfg => exact (writePriCfg_prof v s).imp_right fun h => ⟨rfl, h⟩
  | _ => exact .inl rfl

theorem writeSec_prof (r : SecReg) (v : Word) (s : State) :
    (writeSec r v s).sec.prof = s.sec.prof ∨
    (r = .cfg ∧ (writeSec r v s).sec.prof = profile (v.extractLsb' 0 16).toNat) := by
  cases r with
  | cfg => exact (writeSecCfg_prof v s).imp_right fun h => ⟨rfl, h⟩
  | _ => exact .inl rfl

/-- A PRI command, accepted or turned away, leaves the profile it will run with. -/
theorem priCommand_prof (c : PriCmd) (sk : Bool) (s : State) : (priCommand c sk s).pri.prof = s.pri.prof := by
  rcases priCommand_cases c sk s with ⟨-, h⟩ | ⟨-, -, -, h⟩ | ⟨-, -, -, h⟩ | ⟨-, -, -, h⟩ <;> rw [h] <;> rfl

theorem keepsProfiles_exec_decodePri {w : Word} {i : Instr} {s s' : State} (hd : decodePri w = .ok i)
    (e : exec i s = .next s') : KeepsProfiles s s' := by
  obtain ⟨c, sk, -, rfl⟩ := exec_of_decodePri hd e
  exact ⟨priCommand_prof c sk s, by rw [priCommand_pri]; rfl⟩

theorem keepsProfiles_exec_decodeSec {w : Word} {i : Instr} {s s' : State} (hd : decodeSec w = .ok i)
    (e : exec i s = .next s') : KeepsProfiles s s' := by
  rcases decodeSec_ok hd with rfl | rfl <;>
    simp only [exec, execBegin, execPop, Host.Outcome.next.injEq] at e <;> subst e
  case inl => split_ifs <;> exact ⟨rfl, rfl⟩
  case inr => exact ⟨rfl, rfl⟩

/-- A register write keeps both profiles, or is one of a CFG register, whose unit's profile it recomputes. -/
theorem regWrite_prof {bank : Bank} {off : Nat} {v : Word} {s s' : State} (e : regWrite bank off v s = .next s') :
    KeepsProfiles s s' ∨
    (bank = .P ∧ off = 0x08 ∧ s'.pri.prof = profile (v.extractLsb' 0 16).toNat ∧ s'.sec.prof = s.sec.prof) ∨
    (bank = .S ∧ off = 0x08 ∧ s'.sec.prof = profile (v.extractLsb' 0 16).toNat ∧ s'.pri.prof = s.pri.prof) := by
  rcases regWrite_next e with ⟨-, -, ⟨i, hd, h⟩ | ⟨-, rfl⟩⟩ | ⟨hb, -, rfl⟩ | ⟨-, -, ⟨i, hd, h⟩ | ⟨-, rfl⟩⟩ |
    ⟨hb, -, rfl⟩
  · exact .inl (keepsProfiles_exec_decodePri hd h)
  · exact .inl ⟨rfl, rfl⟩
  · have hsec : (writePri (priRegAt off) v s).sec.prof = s.sec.prof := by rw [writePri_pri]; rfl
    rcases writePri_prof (priRegAt off) v s with hk | ⟨hr, hp⟩
    · exact .inl ⟨hk, hsec⟩
    · exact .inr (.inl ⟨hb, priRegAt_eq_cfg hr, hp, hsec⟩)
  · exact .inl (keepsProfiles_exec_decodeSec hd h)
  · exact .inl ⟨rfl, rfl⟩
  · have hpri : (writeSec (secRegAt off) v s).pri.prof = s.pri.prof := by rw [writeSec_sec]; rfl
    rcases writeSec_prof (secRegAt off) v s with hk | ⟨hr, hp⟩
    · exact .inl ⟨hpri, hk⟩
    · exact .inr (.inr ⟨hb, secRegAt_eq_cfg hr, hp, hpri⟩)

/-- Of the host's accesses only an aligned word write can change a profile (R62). -/
theorem HostTurn.keepsProfiles_or_write {s s' : State} {a : Access} {rest : List Access} {bank : Bank} {off : Nat}
    (h : HostTurn s a rest bank off) (e : step s = .next s') :
    KeepsProfiles s s' ∨ ∃ tgt v, a = .wr tgt .w32 v ∧
      regWrite bank off v ((s.withBus rest).withReply { data := 0#32, error := false }) = .next s' := by
  obtain ⟨-, -, -, -, -, -, -, -, -, -, hnw⟩ := h.frame e
  by_cases hw : ∃ tgt w v, a = .wr tgt w v
  · obtain ⟨tgt, w, v, rfl⟩ := hw
    rw [h.step_eq] at e
    split at e
    · rename_i hok
      have hw32 : w = .w32 := by
        simp only [busOk, Access.width, Bool.and_eq_true, beq_iff_eq] at hok
        exact hok.1
      subst hw32
      exact .inr ⟨tgt, v, rfl, e⟩
    · cases e
      exact .inl ⟨rfl, rfl⟩
  · obtain ⟨hpri, hsec⟩ := hnw fun tgt w v ha => hw ⟨tgt, w, v, ha⟩
    exact .inl ⟨by rw [hpri], by rw [hsec]⟩

/-! ## Every step -/

/-- What a step can do to the profiles: keep both, or recompute one by the write of its unit's CFG. -/
theorem step_prof {s s' : State} (e : step s = .next s') :
    KeepsProfiles s s' ∨
    (∃ tgt v rest, HostTurn s (.wr tgt .w32 v) rest .P 0x08 ∧
      s'.pri.prof = profile (v.extractLsb' 0 16).toNat ∧ s'.sec.prof = s.sec.prof) ∨
    (∃ tgt v rest, HostTurn s (.wr tgt .w32 v) rest .S 0x08 ∧
      s'.sec.prof = profile (v.extractLsb' 0 16).toNat ∧ s'.pri.prof = s.pri.prof) := by
  rcases step_next_cases e with ⟨-, rfl⟩ | ⟨-, rfl⟩ | ⟨hp, -⟩ | ⟨-, h⟩ | ⟨-, rfl⟩ | ⟨-, -, rfl⟩ |
    ⟨hp, a, rest, hb, -⟩
  · exact .inl (keepsProfiles_padsPhase s)
  · exact .inl (keepsProfiles_linePhase s)
  · exact .inl (keepsProfiles_handler_step hp e)
  · exact .inl (keepsProfiles_secPhase h)
  · exact .inl (keepsProfiles_priPhase s)
  · exact .inl ⟨rfl, rfl⟩
  · obtain ⟨bank, off, ht⟩ := HostTurn.of_step hp hb e
    rcases ht.keepsProfiles_or_write e with hk | ⟨tgt, v, rfl, hw⟩
    · exact .inl hk
    · rcases regWrite_prof hw with hk | ⟨rfl, rfl, hp⟩ | ⟨rfl, rfl, hp⟩
      · exact .inl hk
      · exact .inr (.inl ⟨tgt, v, rest, ht, hp⟩)
      · exact .inr (.inr ⟨tgt, v, rest, ht, hp⟩)

end Sys2Proof.Machine

namespace Sys2Proof.Proofs

open Sys2Proof Sys2Proof.Machine

/-- Settles O47: by the inversion of a step, a profile that changed is the one a write of CFG recomputed. -/
theorem profileOnlyByCfgWrite : Obligations.ProfileOnlyByCfgWrite := by
  intro s s' e
  rcases step_prof e with ⟨hpri, hsec⟩ | ⟨tgt, v, rest, ht, hpri, hsec⟩ | ⟨tgt, v, rest, ht, hsec, hpri⟩
  · exact ⟨fun hn => absurd hpri hn, fun hn => absurd hsec hn⟩
  · exact ⟨fun _ => ⟨tgt, v, rest, ht, hpri⟩, fun hn => absurd hsec hn⟩
  · exact ⟨fun hn => absurd hpri hn, fun _ => ⟨tgt, v, rest, ht, hsec⟩⟩

end Sys2Proof.Proofs
end

section
/-! PROOFS. What follows the reset phase: RESET is complete, and a command that transfers a packet goes on only with
presence (spec/41_pri_controller.md R124, R127, R128, R133). -/

namespace Sys2Proof.Machine

/-- The step after the reset phase is what the command does with the presence it sampled. -/
theorem PriTurn.step_rst_finish {s : State} {c : PriCmd} {sk : Bool} (h : PriTurn s c sk (.rst .finish)) :
    step s = .next (afterReset c sk s) := h.step_eq

/-- R124: RESET consists of the reset phase alone. -/
theorem afterReset_reset (sk : Bool) (s : State) : afterReset .reset sk s = priComplete s := rfl

theorem afterReset_write_of_present (sk : Bool) {s : State} (h : s.pri.presence = true) :
    afterReset .write sk s = priGoto .write sk (.wr 0 .head) s := if_pos h

theorem afterReset_write_of_absent (sk : Bool) {s : State} (h : s.pri.presence = false) :
    afterReset .write sk s = priComplete s := if_neg (Bool.eq_false_iff.mp h)

theorem afterReset_read_of_present (sk : Bool) {s : State} (h : s.pri.presence = true) :
    afterReset .read sk s = priGoto .read sk (.rd 0 .head) s := if_pos h

/-- R133: the sentinel is stored before the completion. -/
theorem afterReset_read_of_absent (sk : Bool) {s : State} (h : s.pri.presence = false) :
    afterReset .read sk s = priComplete (s.withPri { s.pri with rxData := 0xFFFFFFFF#32 }) :=
  if_neg (Bool.eq_false_iff.mp h)

end Sys2Proof.Machine

namespace Sys2Proof.Proofs

open Sys2Proof Sys2Proof.Machine

/-- Settles O10: the step after the reset phase is `afterReset`, split by the command and, for WRITE and READ, by the
presence sampled. -/
theorem presenceGating : Obligations.PresenceGating := by
  refine ⟨fun s h => ?reset, fun s h => ⟨fun hp => ?writePresent, fun hp => ?writeAbsent⟩,
    fun s h => ⟨fun hp => ?readPresent, fun hp => ?readAbsent⟩⟩
  case reset => rw [h.step_rst_finish, afterReset_reset, priComplete_eq]; rfl
  case writePresent => rw [h.step_rst_finish, afterReset_write_of_present _ hp, priGoto_eq]; rfl
  case writeAbsent => rw [h.step_rst_finish, afterReset_write_of_absent _ hp, priComplete_eq]; rfl
  case readPresent => rw [h.step_rst_finish, afterReset_read_of_present _ hp, priGoto_eq]; rfl
  case readAbsent => rw [h.step_rst_finish, afterReset_read_of_absent _ hp, priComplete_eq]; rfl

end Sys2Proof.Proofs
end

section
/-! PROOFS. What the handler's phase reads and writes (spec/42_sec_classifier.md R170): its step is a function of the
eight SEC fields R170 names, of the line, the timer, the parameters and the draws. -/

namespace Sys2Proof.Machine

/-- The SEC fields that R170 names. -/
structure HandlerFields where
  irqLatch : Bool
  isrDueAt : Option Nat
  isrState : IsrState
  start : Word
  duration : Word
  pending : Bool
  pendSetAt : Nat
  pollAt : Nat

/-- What the handler sees of a SEC unit. -/
def SecUnit.handlerFields (u : SecUnit) : HandlerFields where
  irqLatch := u.irqLatch
  isrDueAt := u.isrDueAt
  isrState := u.isrState
  start := u.start
  duration := u.duration
  pending := u.pending
  pendSetAt := u.pendSetAt
  pollAt := u.pollAt

/-- A SEC unit with the handler's fields replaced. -/
def SecUnit.withHandlerFields (f : HandlerFields) (u : SecUnit) : SecUnit :=
  { u with
    irqLatch := f.irqLatch
    isrDueAt := f.isrDueAt
    isrState := f.isrState
    start := f.start
    duration := f.duration
    pending := f.pending
    pendSetAt := f.pendSetAt
    pollAt := f.pollAt }

@[simp] theorem SecUnit.withHandlerFields_handlerFields (u : SecUnit) : u.withHandlerFields u.handlerFields = u := rfl

@[simp] theorem SecUnit.handlerFields_withHandlerFields (f : HandlerFields) (u : SecUnit) :
    (u.withHandlerFields f).handlerFields = f := rfl

/-- Two units whose fields of R170 agree show the handler the same. -/
theorem SecUnit.handlerFields_eq_iff (u v : SecUnit) :
    u.handlerFields = v.handlerFields ↔
      u.irqLatch = v.irqLatch ∧ u.isrDueAt = v.isrDueAt ∧ u.isrState = v.isrState ∧ u.start = v.start ∧
      u.duration = v.duration ∧ u.pending = v.pending ∧ u.pendSetAt = v.pendSetAt ∧ u.pollAt = v.pollAt := by
  simp only [SecUnit.handlerFields, HandlerFields.mk.injEq]

/-- The handler's fields after the case of a vector (R162 to R165) at instant `t`; `n` is the number of the draw that
EDGE_END makes. -/
def HandlerFields.afterCase (p : Params) (t n : Nat) (pending : Bool) (isr : IsrState) (lv : Level)
    (f : HandlerFields) : HandlerFields :=
  match pending, isr, lv with
  | true, _, _ => f
  | false, .idle, .low => { f with start := BitVec.ofNat 32 t, isrState := .timing }
  | false, .idle, .high => f
  | false, .timing, _ =>
    { f with
      duration := BitVec.ofNat 32 t - f.start
      pending := true
      pendSetAt := t
      isrState := .idle
      pollAt := t + Config.drawIn p.pollLatMin p.pollLatMax n }

/-- The handler's fields after phase 3 (R161): an entry that is due takes the request and runs its case. -/
def HandlerFields.afterPhase (p : Params) (t : Nat) (lv : Level) (n : Nat) (f : HandlerFields) : HandlerFields :=
  if p.secPresent = true ∧ f.isrDueAt = some t then
    { f with irqLatch := false, isrDueAt := none }.afterCase p t n f.pending f.isrState lv
  else f

/-- The link at the end of phase 3 with the handler's fields `f` and `draws` draws made; all else is as it was. -/
def State.afterHandler (draws : Nat) (f : HandlerFields) (s : State) : State :=
  { s with phase := .sec, draws := draws, sec := s.sec.withHandlerFields f }

/-- The handler case of a vector is `HandlerFields.afterCase`, for some new draw count. -/
theorem exec_edgeCase (pending : Bool) (isr : IsrState) (lv : Level) (s : State) :
    ∃ n, exec (edgeCase pending isr lv) s =
      .next (s.afterHandler n (s.sec.handlerFields.afterCase s.par s.t s.draws pending isr lv)) := by
  cases pending with
  | true => exact ⟨s.draws, rfl⟩
  | false =>
    cases isr with
    | timing => exact ⟨s.draws + 1, rfl⟩
    | idle =>
      cases lv with
      | low => exact ⟨s.draws, rfl⟩
      | high => exact ⟨s.draws, rfl⟩

/-- A step of the handler's phase is `HandlerFields.afterPhase` on the fields of R170. -/
theorem handler_step_eq {s s' : State} (h : s.phase = .handler) (e : step s = .next s') :
    ∃ n, s' = s.afterHandler n (s.sec.handlerFields.afterPhase s.par s.t s.line s.draws) := by
  have hdue : s.sec.handlerFields.isrDueAt = s.sec.isrDueAt := rfl
  rw [step_handler h] at e
  unfold HandlerFields.afterPhase
  rw [hdue]
  rcases handlerPhase_cases s with ⟨hn, e'⟩ | ⟨hp, hd, e'⟩
  · rw [e'] at e
    cases e
    exact ⟨s.draws, by rw [if_neg hn]; rfl⟩
  · obtain ⟨n, hx⟩ := exec_edgeCase s.sec.pending s.sec.isrState s.line (handlerEntry s)
    rw [e', hx] at e
    cases e
    exact ⟨n, by rw [if_pos ⟨hp, hd⟩]; rfl⟩

end Sys2Proof.Machine

namespace Sys2Proof.Proofs

open Sys2Proof Sys2Proof.Machine

/-- Settles O19: a step of the phase is an update of the handler's fields alone, by a function of those fields, the
parameters, the timer, the line and the draws; two states that agree in these get the same fields. -/
theorem handlerTouchesOnlyItsState : Obligations.HandlerTouchesOnlyItsState := by
  constructor
  · intro s s' h e
    obtain ⟨n, rfl⟩ := handler_step_eq h e
    rfl
  · intro s r s' r' hs hr hpar ht hline hdraws hlatch hdue hstate hstart hdur hpend hset hpoll es er
    have hfields : r.sec.handlerFields = s.sec.handlerFields :=
      (SecUnit.handlerFields_eq_iff _ _).mpr ⟨hlatch, hdue, hstate, hstart, hdur, hpend, hset, hpoll⟩
    obtain ⟨n, rfl⟩ := handler_step_eq hs es
    obtain ⟨m, rfl⟩ := handler_step_eq hr er
    rw [← SecUnit.handlerFields_eq_iff]
    simp only [State.afterHandler, SecUnit.handlerFields_withHandlerFields, hfields, hpar, ht, hline, hdraws]

end Sys2Proof.Proofs
end

section
/-! PROOFS. What the line phase does to the SEC unit: the edge latch, on an edge that a unit with an attached handler
and no request latched sees (spec/42_sec_classifier.md R160). -/

namespace Sys2Proof.Machine

/-- The edge latch is evaluated on an edge alone (R160, R210). -/
theorem linePhase_sec (s : State) :
    (linePhase s).sec =
      if s.par.secPresent = true ∧ (linePhase s).line ≠ s.linePrev then (edgeLatch (resolveLine s)).sec
      else s.sec := by
  obtain ⟨-, hsec, hpar, -, hprev, -⟩ := resolveLine_frame s
  obtain ⟨-, -, -, -, hline, -⟩ := linePhase_frame s
  rw [hline, ← hpar, ← hprev, ← hsec]
  unfold linePhase
  dsimp only
  split <;> rfl

/-- No handler attached, or a request latched already: the edge is lost or coalesced. -/
theorem edgeLatch_ignores {s : State} (h : ¬(s.sec.active = true ∧ s.sec.irqLatch = false)) : edgeLatch s = s :=
  if_neg h

/-- A new request schedules its entry within the latency bounds, unless the source is disabled. -/
theorem edgeLatch_schedules {s : State} (ha : s.sec.active = true) (hl : s.sec.irqLatch = false)
    (hg : s.par.guardMode = .entryGuard ∨ s.sec.pending = false) (hb : s.par.isrLatMin ≤ s.par.isrLatMax) :
    ∃ d, s.par.isrLatMin ≤ d ∧ d ≤ s.par.isrLatMax ∧
      (edgeLatch s).sec = { s.sec with irqLatch := true, isrDueAt := some (s.t + d) } := by
  obtain ⟨hlo, hhi⟩ := Config.drawIn_bounds s.par.isrLatMin s.par.isrLatMax s.draws hb
  rcases edgeLatch_cases s with ⟨hn, -⟩ | ⟨-, -, -, e⟩ | ⟨-, -, hsd, hp, -⟩
  · exact absurd ⟨ha, hl⟩ hn
  · exact ⟨_, hlo, hhi, by rw [e]; rfl⟩
  · simp [hsd, hp] at hg

/-- With the source disabled a new request is latched and its entry deferred. -/
theorem edgeLatch_defers {s : State} (ha : s.sec.active = true) (hl : s.sec.irqLatch = false)
    (hg : s.par.guardMode = .sourceDisable) (hp : s.sec.pending = true) :
    (edgeLatch s).sec = { s.sec with irqLatch := true, isrDueAt := none } := by
  rcases edgeLatch_cases s with ⟨hn, -⟩ | ⟨-, -, hsched, -⟩ | ⟨-, -, -, -, e⟩
  · exact absurd ⟨ha, hl⟩ hn
  · simp [hg, hp] at hsched
  · rw [e]; rfl

end Sys2Proof.Machine

namespace Sys2Proof.Proofs

open Sys2Proof Sys2Proof.Machine

/-- Settles O20: the line phase evaluates the latch on an edge alone, and the latch, which sees the SEC unit as it was
before the arbiter, schedules, defers or ignores. -/
theorem edgeLatch : Obligations.EdgeLatch := by
  intro s s' h hb e
  rw [step_line h] at e
  cases e
  obtain ⟨-, hsec, hpar, ht, -⟩ := resolveLine_frame s
  rw [linePhase_sec]
  constructor
  case left =>
    rintro ⟨hp, ha, hl, hedge⟩
    rw [if_pos ⟨hp, hedge⟩]
    rw [← hsec] at ha hl
    rw [← hpar] at hb
    rw [← hsec, ← hpar, ← ht]
    exact ⟨fun hg => edgeLatch_schedules ha hl hg hb, fun hg hpe => edgeLatch_defers ha hl hg hpe⟩
  case right =>
    intro hn
    split
    case isFalse => rfl
    case isTrue hedge =>
      have hidle : ¬((resolveLine s).sec.active = true ∧ (resolveLine s).sec.irqLatch = false) := by
        rw [hsec]
        exact fun ⟨ha, hl⟩ => hn ⟨hedge.1, ha, hl, hedge.2⟩
      rw [edgeLatch_ignores hidle, hsec]

end Sys2Proof.Proofs
end

section
/-! PROOFS. The state after hardware reset: the words of the registers that are put together from several fields, and
the interrupt outputs, which the cleared IE bits keep low (spec/70_reset_and_hazards.md R271). -/

namespace Sys2Proof.Machine

/-! The words of the registers at reset. -/

theorem CfgReg.toWord_reset : CfgReg.reset.toWord = 0x50#32 := by decide

theorem PriUnit.statusWord_reset : PriUnit.reset.statusWord = 0#32 := by decide

theorem PriUnit.calWord_reset : PriUnit.reset.calWord = 0#32 := by decide

theorem PriUnit.ieWord_reset : PriUnit.reset.ieWord = 0#32 := by decide

theorem SecUnit.statusWord_reset : SecUnit.reset.statusWord = 0#32 := by decide

theorem SecUnit.ieWord_reset : SecUnit.reset.ieWord = 0#32 := by decide

/-! The interrupt outputs of a unit whose IE bits are all 0, whatever its flags (R244, R245). -/

theorem priIrq_eq_false_of_disabled {s : State} (hdone : s.pri.doneIe = false) (herr : s.pri.errIe = false) :
    priIrq s = false := by
  simp [priIrq, hdone, herr]

/-- This holds whether or not there is a SEC unit. -/
theorem secIrq_eq_false_of_disabled {s : State} (hrx : s.sec.rxIe = false) (hovf : s.sec.ovfIe = false)
    (herr : s.sec.errIe = false) : secIrq s = false := by
  simp [secIrq, hrx, hovf, herr]

end Sys2Proof.Machine

namespace Sys2Proof.Proofs

open Sys2Proof Sys2Proof.Machine

/-- Settles O60: a row that is one field of `State.reset` holds by its definition, a register put together from
several fields by its word at reset, and an interrupt output by its IE bits. -/
theorem resetValues : Obligations.ResetValues := by
  refine ⟨?timerAndLine, ?priBank, ?priHidden, ?secBank, ?secHidden, ?interrupts⟩
  case timerAndLine => exact ⟨rfl, rfl, rfl, rfl, rfl, rfl⟩
  case priBank =>
    exact ⟨rfl, PriUnit.statusWord_reset, CfgReg.toWord_reset, rfl, rfl, PriUnit.calWord_reset,
      PriUnit.ieWord_reset⟩
  case priHidden => exact ⟨rfl, rfl, rfl, rfl, rfl, rfl, rfl, rfl, rfl, rfl, rfl⟩
  case secBank =>
    exact ⟨rfl, SecUnit.statusWord_reset, CfgReg.toWord_reset, rfl, rfl, rfl, SecUnit.ieWord_reset, rfl, rfl, rfl⟩
  case secHidden => exact ⟨rfl, rfl, rfl, rfl, rfl, rfl, rfl, rfl, rfl, rfl, rfl, rfl, rfl, rfl, rfl⟩
  case interrupts => exact ⟨priIrq_eq_false_of_disabled rfl rfl, secIrq_eq_false_of_disabled rfl rfl rfl⟩

end Sys2Proof.Proofs
end

section
/-! PROOFS. The PRI sequencer: one constructor for each statement of the pseudocode and what it leaves of the unit
(spec/41_pri_controller.md R121, R125 to R130), and the obligations that state these one by one. -/

namespace Sys2Proof.Machine

/-- What the statement at a program point leaves of the PRI unit: one constructor for each statement, with the guard
under which the pseudocode comes to it. -/
inductive PriStmt (s : State) : PriCmd → Bool → PriPoint → PriUnit → Prop
  | startInit (sk : Bool) : PriStmt s .init sk .start
      { s.pri with
        padDue := some ⟨.setDirection .output, s.t + s.par.priLatSwitch⟩
        seq := .running .init sk (.cal .firstRead) (s.t + s.par.priLatSwitch) }
  | startReset (sk : Bool) : PriStmt s .reset sk .start { s.pri with seq := .running .reset sk (.rst .low) s.t }
  | startWrite : PriStmt s .write false .start { s.pri with seq := .running .write false (.rst .low) s.t }
  | startWriteSkip : PriStmt s .write true .start { s.pri with seq := .running .write true (.wr 0 .head) s.t }
  | startRead : PriStmt s .read false .start
      { s.pri with rxAcc := 0#32, seq := .running .read false (.rst .low) s.t }
  | startReadSkip : PriStmt s .read true .start
      { s.pri with rxAcc := 0#32, seq := .running .read true (.rd 0 .head) s.t }
  | calFirstRead (c : PriCmd) (sk : Bool) : PriStmt s c sk (.cal .firstRead)
      { s.pri with calT0 := s.now, seq := .running c sk (.cal (.switch 0)) s.t }
  | calSwitch (c : PriCmd) (sk : Bool) (k : Nat) (hk : k < s.par.calNSwitch) : PriStmt s c sk (.cal (.switch k))
      { s.pri with
        padDue := some ⟨.setDirection (if k % 2 = 0 then .input else .output), s.t + s.par.priLatSwitch⟩
        seq := .running c sk (.cal (.switchWait k)) (s.t + s.par.priLatSwitch) }
  | calSwitchEnd (c : PriCmd) (sk : Bool) (k : Nat) (hk : s.par.calNSwitch ≤ k) : PriStmt s c sk (.cal (.switch k))
      { s.pri with calT1 := s.now, seq := .running c sk (.cal (.write 0)) s.t }
  | calSwitchWait (c : PriCmd) (sk : Bool) (k : Nat) : PriStmt s c sk (.cal (.switchWait k))
      { s.pri with seq := .running c sk (.cal (.switch (k + 1))) (s.t + s.par.calLoopOvh) }
  | calWrite (c : PriCmd) (sk : Bool) (k : Nat) (hk : k < s.par.calNWrite) : PriStmt s c sk (.cal (.write k))
      { s.pri with
        padDue := some ⟨.writeLevel .high, s.t + s.par.priLatWrite⟩
        seq := .running c sk (.cal (.writeWait k)) (s.t + s.par.priLatWrite) }
  | calWriteWait (c : PriCmd) (sk : Bool) (k : Nat) : PriStmt s c sk (.cal (.writeWait k))
      { s.pri with seq := .running c sk (.cal (.write (k + 1))) (s.t + s.par.calLoopOvh) }
  | calOk (c : PriCmd) (sk : Bool) (k sw wr : Nat) (hk : s.par.calNWrite ≤ k)
      (hsw : sw = (s.pri.calT1 - s.pri.calT0).toNat / s.par.calNSwitch)
      (hwr : wr = (s.now - s.pri.calT1).toNat / s.par.calNWrite) (hok : calOk s.pri.prof sw wr = true) :
      PriStmt s c sk (.cal (.write k))
        { s.pri with
          calT2 := s.now, swLat := sw, wrLat := wr, ready := true, seq := .idle, busy := false, done := true }
  | calFails (c : PriCmd) (sk : Bool) (k sw wr : Nat) (hk : s.par.calNWrite ≤ k)
      (hsw : sw = (s.pri.calT1 - s.pri.calT0).toNat / s.par.calNSwitch)
      (hwr : wr = (s.now - s.pri.calT1).toNat / s.par.calNWrite) (hok : calOk s.pri.prof sw wr = false) :
      PriStmt s c sk (.cal (.write k))
        { s.pri with
          calT2 := s.now, swLat := sw, wrLat := wr, err := true, lastErr := .cal
          seq := .idle, busy := false, done := true }
  | rstLow (c : PriCmd) (sk : Bool) : PriStmt s c sk (.rst .low)
      { s.pri with
        padDue := some ⟨.writeLevel .low, s.t + s.par.priLatWrite⟩
        seq := .running c sk (.rst .hold) (s.t + s.par.priLatWrite) }
  | rstHold (c : PriCmd) (sk : Bool) : PriStmt s c sk (.rst .hold)
      { s.pri with seq := .running c sk (.rst .release) (s.t + s.pri.prof.resetSignal) }
  | rstRelease (c : PriCmd) (sk : Bool) : PriStmt s c sk (.rst .release)
      { s.pri with
        padDue := some ⟨.setDirection .input, s.t + s.par.priLatSwitch⟩
        seq := .running c sk (.rst .wait) (s.t + s.par.priLatSwitch) }
  | rstWait (c : PriCmd) (sk : Bool) : PriStmt s c sk (.rst .wait)
      { s.pri with
        seq := .running c sk (.rst .sample) (s.t + (s.pri.prof.resetPresenceSampleDelay - s.pri.swLat)) }
  | rstSample (c : PriCmd) (sk : Bool) : PriStmt s c sk (.rst .sample)
      { s.pri with
        presence := decide (s.line = .low), seq := .running c sk (.rst .drive) (s.t + s.par.priLatRead) }
  | rstDrive (c : PriCmd) (sk : Bool) : PriStmt s c sk (.rst .drive)
      { s.pri with
        padDue := some ⟨.setDirection .output, s.t + s.par.priLatSwitch⟩
        seq := .running c sk (.rst .settle) (s.t + s.par.priLatSwitch) }
  | rstSettle (c : PriCmd) (sk : Bool) : PriStmt s c sk (.rst .settle)
      { s.pri with seq := .running c sk (.rst .finish) (s.t + (s.pri.prof.resetSettle - s.pri.swLat)) }
  | rstEnds (c : PriCmd) (sk : Bool) (hc : c = .write ∨ c = .read → s.pri.presence = false) (hr : c ≠ .read) :
      PriStmt s c sk (.rst .finish) { s.pri with seq := .idle, busy := false, done := true }
  | rstSentinel (sk : Bool) (hp : s.pri.presence = false) : PriStmt s .read sk (.rst .finish)
      { s.pri with rxData := 0xFFFFFFFF#32, seq := .idle, busy := false, done := true }
  | rstThenWrite (sk : Bool) (hp : s.pri.presence = true) : PriStmt s .write sk (.rst .finish)
      { s.pri with seq := .running .write sk (.wr 0 .head) s.t }
  | rstThenRead (sk : Bool) (hp : s.pri.presence = true) : PriStmt s .read sk (.rst .finish)
      { s.pri with seq := .running .read sk (.rd 0 .head) s.t }
  | wrHead (c : PriCmd) (sk : Bool) (i : Nat) (hi : i < s.pri.cfg.p2s) : PriStmt s c sk (.wr i .head)
      { s.pri with
        slot := i
        padDue := some ⟨.writeLevel .low, s.t + s.par.priLatWrite⟩
        seq := .running c sk (.wr i .hold) (s.t + s.par.priLatWrite) }
  | wrEnd (c : PriCmd) (sk : Bool) (i : Nat) (hi : s.pri.cfg.p2s ≤ i) : PriStmt s c sk (.wr i .head)
      { s.pri with seq := .idle, busy := false, done := true }
  | wrHold (c : PriCmd) (sk : Bool) (i : Nat) : PriStmt s c sk (.wr i .hold)
      { s.pri with
        seq := .running c sk (.wr i .high)
          (s.t + (s.pri.prof.writeActive (s.pri.txSnap.getLsbD i) - s.pri.wrLat)) }
  | wrHigh (c : PriCmd) (sk : Bool) (i : Nat) : PriStmt s c sk (.wr i .high)
      { s.pri with
        padDue := some ⟨.writeLevel .high, s.t + s.par.priLatWrite⟩
        seq := .running c sk (.wr i .pause) (s.t + s.par.priLatWrite) }
  | wrPause (c : PriCmd) (sk : Bool) (i : Nat) : PriStmt s c sk (.wr i .pause)
      { s.pri with
        seq := .running c sk (.wr (i + 1) .head)
          (s.t + (s.pri.prof.writePause (s.pri.txSnap.getLsbD i) - s.pri.wrLat)) }
  | rdHead (c : PriCmd) (sk : Bool) (i : Nat) (hi : i < s.pri.cfg.s2p) : PriStmt s c sk (.rd i .head)
      { s.pri with
        slot := i
        padDue := some ⟨.writeLevel .low, s.t + s.par.priLatWrite⟩
        seq := .running c sk (.rd i .hold) (s.t + s.par.priLatWrite) }
  | rdEnd (c : PriCmd) (sk : Bool) (i : Nat) (hi : s.pri.cfg.s2p ≤ i) : PriStmt s c sk (.rd i .head)
      { s.pri with rxData := s.pri.rxAcc, seq := .idle, busy := false, done := true }
  | rdHold (c : PriCmd) (sk : Bool) (i : Nat) : PriStmt s c sk (.rd i .hold)
      { s.pri with seq := .running c sk (.rd i .release) (s.t + s.pri.prof.readInitActive) }
  | rdRelease (c : PriCmd) (sk : Bool) (i : Nat) : PriStmt s c sk (.rd i .release)
      { s.pri with
        padDue := some ⟨.setDirection .input, s.t + s.par.priLatSwitch⟩
        seq := .running c sk (.rd i .wait) (s.t + s.par.priLatSwitch) }
  | rdWait (c : PriCmd) (sk : Bool) (i : Nat) : PriStmt s c sk (.rd i .wait)
      { s.pri with seq := .running c sk (.rd i .sample) (s.t + (s.pri.prof.readSampleDelay - s.pri.swLat)) }
  | rdSample (c : PriCmd) (sk : Bool) (i : Nat) : PriStmt s c sk (.rd i .sample)
      { s.pri with seq := .running c sk (.rd i (.store s.line)) (s.t + s.par.priLatRead) }
  | rdStore (c : PriCmd) (sk : Bool) (i : Nat) (v : Level) : PriStmt s c sk (.rd i (.store v))
      { s.pri with
        rxAcc := setBit s.pri.rxAcc i v.toBool
        padDue := some ⟨.setDirection .output, s.t + s.par.priLatSwitch⟩
        seq := .running c sk (.rd i .settle) (s.t + s.par.priLatSwitch) }
  | rdSettle (c : PriCmd) (sk : Bool) (i : Nat) : PriStmt s c sk (.rd i .settle)
      { s.pri with seq := .running c sk (.rd (i + 1) .head) (s.t + (s.pri.prof.readPause - s.pri.swLat)) }

/-! The statements with a guard, one equation for each outcome. -/

theorem calAct_switch_of_lt (c : PriCmd) (sk : Bool) {k : Nat} {s : State} (hk : k < s.par.calNSwitch) :
    calAct c sk (.switch k) s =
      priSetDirection (if k % 2 = 0 then .input else .output) c sk (.cal (.switchWait k)) s := if_pos hk

theorem calAct_switch_of_le (c : PriCmd) (sk : Bool) {k : Nat} {s : State} (hk : s.par.calNSwitch ≤ k) :
    calAct c sk (.switch k) s = priGoto c sk (.cal (.write 0)) (s.withPri { s.pri with calT1 := s.now }) :=
  if_neg (Nat.not_lt.mpr hk)

theorem calAct_write_of_lt (c : PriCmd) (sk : Bool) {k : Nat} {s : State} (hk : k < s.par.calNWrite) :
    calAct c sk (.write k) s = priWriteLevel .high c sk (.cal (.writeWait k)) s := if_pos hk

theorem calAct_write_of_le (c : PriCmd) (sk : Bool) {k : Nat} {s : State} (hk : s.par.calNWrite ≤ k) :
    calAct c sk (.write k) s = finishInit (s.withPri { s.pri with calT2 := s.now }) :=
  if_neg (Nat.not_lt.mpr hk)

/-- R123: with no compensated delay negative INIT ends READY. -/
theorem finishInit_of_calOk {s : State} {sw wr : Nat}
    (hsw : sw = (s.pri.calT1 - s.pri.calT0).toNat / s.par.calNSwitch)
    (hwr : wr = (s.pri.calT2 - s.pri.calT1).toNat / s.par.calNWrite) (hok : calOk s.pri.prof sw wr = true) :
    finishInit s = s.withPri
      { s.pri with swLat := sw, wrLat := wr, ready := true, seq := .idle, busy := false, done := true } := by
  subst hsw hwr
  exact congrArg priComplete (if_pos hok)

/-- R123: else it ends with the CAL error. -/
theorem finishInit_of_not_calOk {s : State} {sw wr : Nat}
    (hsw : sw = (s.pri.calT1 - s.pri.calT0).toNat / s.par.calNSwitch)
    (hwr : wr = (s.pri.calT2 - s.pri.calT1).toNat / s.par.calNWrite) (hok : calOk s.pri.prof sw wr = false) :
    finishInit s = s.withPri
      { s.pri with
        swLat := sw, wrLat := wr, err := true, lastErr := .cal, seq := .idle, busy := false, done := true } := by
  subst hsw hwr
  exact congrArg priComplete (if_neg (Bool.eq_false_iff.mp hok))

theorem writeAct_head_of_lt (c : PriCmd) (sk : Bool) {i : Nat} {s : State} (hi : i < s.pri.cfg.p2s) :
    writeAct c sk i .head s = priWriteLevel .low c sk (.wr i .hold) (s.withPri { s.pri with slot := i }) :=
  if_pos hi

theorem writeAct_head_of_le (c : PriCmd) (sk : Bool) {i : Nat} {s : State} (hi : s.pri.cfg.p2s ≤ i) :
    writeAct c sk i .head s = priComplete s := if_neg (Nat.not_lt.mpr hi)

theorem readAct_head_of_lt (c : PriCmd) (sk : Bool) {i : Nat} {s : State} (hi : i < s.pri.cfg.s2p) :
    readAct c sk i .head s = priWriteLevel .low c sk (.rd i .hold) (s.withPri { s.pri with slot := i }) :=
  if_pos hi

theorem readAct_head_of_le (c : PriCmd) (sk : Bool) {i : Nat} {s : State} (hi : s.pri.cfg.s2p ≤ i) :
    readAct c sk i .head s = priComplete (s.withPri { s.pri with rxData := s.pri.rxAcc }) :=
  if_neg (Nat.not_lt.mpr hi)

/-! Every action of the sequencer is one of these statements. -/

theorem startAct_stmt (c : PriCmd) (sk : Bool) (s : State) : PriStmt s c sk .start (startAct c sk s).pri := by
  cases c with
  | init => exact .startInit sk
  | reset => exact .startReset sk
  | write =>
    cases sk
    · exact .startWrite
    · exact .startWriteSkip
  | read =>
    cases sk
    · exact .startRead
    · exact .startReadSkip

theorem finishInit_stmt (c : PriCmd) (sk : Bool) {k : Nat} {s : State} (hk : s.par.calNWrite ≤ k) :
    PriStmt s c sk (.cal (.write k)) (finishInit (s.withPri { s.pri with calT2 := s.now })).pri := by
  cases hok : calOk s.pri.prof ((s.pri.calT1 - s.pri.calT0).toNat / s.par.calNSwitch)
      ((s.now - s.pri.calT1).toNat / s.par.calNWrite) with
  | true =>
    rw [finishInit_of_calOk (s := s.withPri { s.pri with calT2 := s.now }) rfl rfl hok]
    exact .calOk c sk k _ _ hk rfl rfl hok
  | false =>
    rw [finishInit_of_not_calOk (s := s.withPri { s.pri with calT2 := s.now }) rfl rfl hok]
    exact .calFails c sk k _ _ hk rfl rfl hok

theorem calAct_stmt (c : PriCmd) (sk : Bool) (q : CalPoint) (s : State) :
    PriStmt s c sk (.cal q) (calAct c sk q s).pri := by
  cases q with
  | firstRead => exact .calFirstRead c sk
  | switch k =>
    rcases Nat.lt_or_ge k s.par.calNSwitch with hk | hk
    · rw [calAct_switch_of_lt c sk hk]; exact .calSwitch c sk k hk
    · rw [calAct_switch_of_le c sk hk]; exact .calSwitchEnd c sk k hk
  | switchWait k => exact .calSwitchWait c sk k
  | write k =>
    rcases Nat.lt_or_ge k s.par.calNWrite with hk | hk
    · rw [calAct_write_of_lt c sk hk]; exact .calWrite c sk k hk
    · rw [calAct_write_of_le c sk hk]
      exact finishInit_stmt c sk hk
  | writeWait k => exact .calWriteWait c sk k

theorem afterReset_stmt (c : PriCmd) (sk : Bool) (s : State) :
    PriStmt s c sk (.rst .finish) (afterReset c sk s).pri := by
  cases c with
  | init => exact .rstEnds .init sk (by simp) (by simp)
  | reset => exact .rstEnds .reset sk (by simp) (by simp)
  | write =>
    cases hp : s.pri.presence with
    | true => rw [afterReset_write_of_present sk hp]; exact .rstThenWrite sk hp
    | false => rw [afterReset_write_of_absent sk hp]; exact .rstEnds .write sk (fun _ => hp) (by simp)
  | read =>
    cases hp : s.pri.presence with
    | true => rw [afterReset_read_of_present sk hp]; exact .rstThenRead sk hp
    | false => rw [afterReset_read_of_absent sk hp]; exact .rstSentinel sk hp

theorem resetAct_stmt (c : PriCmd) (sk : Bool) (q : ResetPoint) (s : State) :
    PriStmt s c sk (.rst q) (resetAct c sk q s).pri := by
  cases q with
  | low => exact .rstLow c sk
  | hold => exact .rstHold c sk
  | release => exact .rstRelease c sk
  | wait => exact .rstWait c sk
  | sample => exact .rstSample c sk
  | drive => exact .rstDrive c sk
  | settle => exact .rstSettle c sk
  | finish => exact afterReset_stmt c sk s

theorem writeAct_stmt (c : PriCmd) (sk : Bool) (i : Nat) (q : WritePoint) (s : State) :
    PriStmt s c sk (.wr i q) (writeAct c sk i q s).pri := by
  cases q with
  | head =>
    rcases Nat.lt_or_ge i s.pri.cfg.p2s with hi | hi
    · rw [writeAct_head_of_lt c sk hi]; exact .wrHead c sk i hi
    · rw [writeAct_head_of_le c sk hi]; exact .wrEnd c sk i hi
  | hold => exact .wrHold c sk i
  | high => exact .wrHigh c sk i
  | pause => exact .wrPause c sk i

theorem readAct_stmt (c : PriCmd) (sk : Bool) (i : Nat) (q : ReadPoint) (s : State) :
    PriStmt s c sk (.rd i q) (readAct c sk i q s).pri := by
  cases q with
  | head =>
    rcases Nat.lt_or_ge i s.pri.cfg.s2p with hi | hi
    · rw [readAct_head_of_lt c sk hi]; exact .rdHead c sk i hi
    · rw [readAct_head_of_le c sk hi]; exact .rdEnd c sk i hi
  | hold => exact .rdHold c sk i
  | release => exact .rdRelease c sk i
  | wait => exact .rdWait c sk i
  | sample => exact .rdSample c sk i
  | store v => exact .rdStore c sk i v
  | settle => exact .rdSettle c sk i

/-- The sequencer's action at a program point is the statement that stands there (R55). -/
theorem priAct_stmt (c : PriCmd) (sk : Bool) (p : PriPoint) (s : State) :
    PriStmt s c sk p (priAct c sk p s).pri := by
  cases p with
  | start => exact startAct_stmt c sk s
  | cal q => exact calAct_stmt c sk q s
  | rst q => exact resetAct_stmt c sk q s
  | wr i q => exact writeAct_stmt c sk i q s
  | rd i q => exact readAct_stmt c sk i q s

end Sys2Proof.Machine

namespace Sys2Proof.Proofs

open Sys2Proof Sys2Proof.Machine

/-- Settles O7: each step of INIT is the statement at its point; the two loop heads split on the loop's count. -/
theorem initStatements : Obligations.InitStatements := by
  refine ⟨fun s h => h.step_eq, fun s h => h.step_eq, fun s k h hk => ?_, fun s k h => h.step_eq,
    fun s k h hk => ?_, fun s k h hk => ?_, fun s k h => h.step_eq⟩
  · exact h.step_eq.trans (congrArg _ (calAct_switch_of_lt .init false hk))
  · exact h.step_eq.trans (congrArg _ (calAct_switch_of_le .init false hk))
  · exact h.step_eq.trans (congrArg _ (calAct_write_of_lt .init false hk))

/-- Settles O8: past its last iteration INIT stores the two quotients and ends as the check says. -/
theorem initEnds : Obligations.InitEnds := by
  intro s k h hk sw wr hsw hwr
  have hstep : step s = .next (finishInit (s.withPri { s.pri with calT2 := s.now })) :=
    h.step_eq.trans (congrArg _ (calAct_write_of_le .init false hk))
  refine ⟨fun hok => ?_, fun hok => ?_⟩
  · exact hstep.trans (congrArg _ (finishInit_of_calOk hsw hwr hok))
  · exact hstep.trans (congrArg _ (finishInit_of_not_calOk hsw hwr hok))

/-- Settles O9: each step of the reset phase is the statement at its point; the first action splits on the command. -/
theorem resetPhaseStatements : Obligations.ResetPhaseStatements := by
  refine ⟨fun s c hc h => ?_, fun s c h => h.step_eq, fun s c h => h.step_eq, fun s c h => h.step_eq,
    fun s c h => h.step_eq, fun s c h => h.step_eq, fun s c h => h.step_eq, fun s c h => h.step_eq⟩
  rw [h.step_eq]
  cases c with
  | init => exact absurd rfl hc
  | reset | write | read => rfl

/-- Settles O11: each step of a write slot is the statement at its point; the loop head splits on the width. -/
theorem writeSlotStatements : Obligations.WriteSlotStatements := by
  refine ⟨fun s h => h.step_eq, fun s sk i h hi => ?_, fun s sk i h => h.step_eq, fun s sk i h => h.step_eq,
    fun s sk i h => h.step_eq, fun s sk i h hi => ?_⟩
  · exact h.step_eq.trans (congrArg _ (writeAct_head_of_lt .write sk hi))
  · exact h.step_eq.trans (congrArg _ (writeAct_head_of_le .write sk hi))

/-- Settles O12: each step of a read slot is the statement at its point; the loop head splits on the width, and the
stored packet is given by the bits `setBit` leaves. -/
theorem readSlotStatements : Obligations.ReadSlotStatements := by
  refine ⟨fun s h => h.step_eq, fun s sk i h hi => ?_, fun s sk i h => h.step_eq, fun s sk i h => h.step_eq,
    fun s sk i h => h.step_eq, fun s sk i h => h.step_eq, fun s sk i v h _ => ?_, fun s sk i h => h.step_eq,
    fun s sk i h hi => ?_⟩
  · exact h.step_eq.trans (congrArg _ (readAct_head_of_lt .read sk hi))
  · exact ⟨setBit s.pri.rxAcc i v.toBool, fun k hk => setBit_getLsbD _ i _ k hk, h.step_eq⟩
  · exact h.step_eq.trans (congrArg _ (readAct_head_of_le .read sk hi))

end Sys2Proof.Proofs
end

section
/-! PROOFS. What one step can do to the PRI unit: nothing, its pad's effect, one statement of the sequencer, or a write
of a register of its bank. -/

namespace Sys2Proof.Machine

/-- What a write of a register of bank P can leave of the unit at instant `t`: registers no command depends on, an
accepted command (R120), or an accepted configuration (R24). -/
inductive PriWrite (t : Nat) (u : PriUnit) : PriUnit → Prop
  | registers (done err : Bool) (lastErr : ErrCode) (txData : Word) (doneIe errIe : Bool) : PriWrite t u
      { u with done := done, err := err, lastErr := lastErr, txData := txData, doneIe := doneIe, errIe := errIe }
  | accept (c : PriCmd) (sk : Bool) (hsk : sk = true → c = .write ∨ c = .read) (hb : u.busy = false)
      (hr : c ≠ .init → u.ready = true) (hc : c = .init → u.cfg.legal = true) : PriWrite t u
      { u with
        busy := true
        done := false
        ready := if c = .init then false else u.ready
        txSnap := if c = .write then u.txData else u.txSnap
        seq := .running c sk .start (t + 1) }
  | cfg (cfg : CfgReg) (hb : u.busy = false) : PriWrite t u
      { u with cfg := cfg, ready := false, prof := profile cfg.slot }

/-- Everything a step from `s` to `s'` can do to the PRI unit. -/
inductive PriMove (s s' : State) : Prop
  | kept (h : s'.pri = s.pri)
  | pads (hph : s.phase = .pads)
      (h : s'.pri =
        { s.pri with pad := padAfter s.t s.pri.pad s.pri.padDue, padDue := dueAfter s.t s.pri.padDue })
  | stmt (c : PriCmd) (sk : Bool) (p : PriPoint) (ht : PriTurn s c sk p) (hs : s' = s.withPri s'.pri)
      (h : PriStmt s c sk p s'.pri)
  | host (tgt : Target) (v : Word) (rest : List Access) (off : Nat)
      (ht : HostTurn s (.wr tgt .w32 v) rest .P off) (h : PriWrite s.t s.pri s'.pri)

/-- A refused command or an illegal word is a write of the error registers. -/
theorem raisePri_write (e : ErrCode) (s : State) : PriWrite s.t s.pri (raisePri e s).pri :=
  .registers s.pri.done true e s.pri.txData s.pri.doneIe s.pri.errIe

theorem priCommand_write {c : PriCmd} {sk : Bool} (hsk : sk = true → c = .write ∨ c = .read) (s : State) :
    PriWrite s.t s.pri (priCommand c sk s).pri := by
  rcases priCommand_cases c sk s with ⟨-, h⟩ | ⟨-, -, -, h⟩ | ⟨-, -, -, h⟩ | ⟨hb, hr, hc, h⟩ <;> rw [h]
  · exact raisePri_write _ s
  · exact raisePri_write _ s
  · exact raisePri_write _ s
  · exact .accept c sk hsk hb hr hc

/-- R24: a write of CFG is refused while a command runs. -/
theorem writePriCfg_of_busy (v : Word) {s : State} (hb : s.pri.busy = true) :
    writePriCfg v s = raisePri .busy s := if_pos hb

/-- R24: else it stores the fields, clears READY and recomputes the profile. -/
theorem writePriCfg_of_free (v : Word) {s : State} (hb : s.pri.busy = false) :
    writePriCfg v s = s.withPri
      { s.pri with cfg := .ofWord v, ready := false, prof := profile (CfgReg.ofWord v).slot } :=
  if_neg (Bool.eq_false_iff.mp hb)

theorem writePri_write (r : PriReg) (v : Word) (s : State) : PriWrite s.t s.pri (writePri r v s).pri := by
  cases r with
  | cfg =>
    cases hb : s.pri.busy with
    | true => rw [writePri, writePriCfg_of_busy v hb]; exact raisePri_write .busy s
    | false => rw [writePri, writePriCfg_of_free v hb]; exact .cfg (.ofWord v) hb
  | _ => exact .registers _ _ _ _ _ _

/-- Of a write only a bank's own registers are touched, and those of bank P as `PriWrite` says. -/
theorem regWrite_pri_cases {bank : Bank} {off : Nat} {v : Word} {s s' : State}
    (e : regWrite bank off v s = .next s') : s'.pri = s.pri ∨ bank = .P ∧ PriWrite s.t s.pri s'.pri := by
  rcases regWrite_next e with ⟨rfl, -, ⟨i, hd, h⟩ | ⟨-, rfl⟩⟩ | ⟨rfl, -, rfl⟩ | ⟨-, -, ⟨i, hd, h⟩ | ⟨-, rfl⟩⟩ |
    ⟨-, -, rfl⟩
  · obtain ⟨c, sk, hsk, rfl⟩ := exec_of_decodePri hd h
    exact .inr ⟨rfl, priCommand_write hsk s⟩
  · exact .inr ⟨rfl, raisePri_write .illegal s⟩
  · exact .inr ⟨rfl, writePri_write (priRegAt off) v s⟩
  · exact .inl (by rw [exec_of_decodeSec hd h]; rfl)
  · exact .inl rfl
  · exact .inl (by rw [writeSec_sec]; rfl)

/-- A host access that changes a unit is a write of a whole word that the bus carries (R62). -/
theorem HostTurn.keepsUnits_or_writes {s s' : State} {a : Access} {rest : List Access} {bank : Bank} {off : Nat}
    (h : HostTurn s a rest bank off) (e : step s = .next s') :
    (s'.pri = s.pri ∧ s'.sec = s.sec) ∨ ∃ tgt v, a = .wr tgt .w32 v ∧
      regWrite bank off v ((s.withBus rest).withReply { data := 0#32, error := false }) = .next s' := by
  obtain ⟨-, -, -, -, -, -, -, -, -, -, hkeeps⟩ := h.frame e
  cases a with
  | rd => exact .inl (hkeeps (by simp))
  | poll => exact .inl (hkeeps (by simp))
  | wr tgt w v =>
    rw [h.step_eq] at e
    split at e
    case isFalse => cases e; exact .inl ⟨rfl, rfl⟩
    case isTrue hok =>
      have hw : w = .w32 := by
        simp only [busOk, Access.width, Bool.and_eq_true, beq_iff_eq] at hok
        exact hok.1
      subst hw
      exact .inr ⟨tgt, v, rfl, e⟩

theorem HostTurn.priMove {s s' : State} {a : Access} {rest : List Access} {bank : Bank} {off : Nat}
    (h : HostTurn s a rest bank off) (e : step s = .next s') : PriMove s s' := by
  rcases h.keepsUnits_or_writes e with ⟨hpri, -⟩ | ⟨tgt, v, rfl, hw⟩
  · exact .kept hpri
  · rcases regWrite_pri_cases hw with hpri | ⟨rfl, hpri⟩
    · exact .kept hpri
    · exact .host tgt v rest off h hpri

/-! The SEC main loop leaves the PRI unit. -/

theorem exec_evt_frame {b : EvtClass} {s s' : State} (e : exec (decodeEvt b.code) s = .next s') :
    s'.par = s.par ∧ s'.t = s.t ∧ s'.line = s.line ∧ s'.linePrev = s.linePrev ∧ s'.contended = s.contended ∧
    s'.pri = s.pri ∧ s'.phase = s.phase ∧ s'.bus = s.bus := by
  rw [exec_evt] at e
  cases b <;> cases e
  case bit1 | bit0 =>
    obtain ⟨hpar, ht, hline, hprev, hcon, hpri, hph, -, hbus, -⟩ := receiveBit_frame _ s
    exact ⟨hpar, ht, hline, hprev, hcon, hpri, hph, hbus⟩
  case read =>
    obtain ⟨hpar, ht, hline, hprev, hcon, hpri, hph, -, hbus, -⟩ := startReply_frame s
    exact ⟨hpar, ht, hline, hprev, hcon, hpri, hph, hbus⟩
  case reset => exact ⟨rfl, rfl, rfl, rfl, rfl, rfl, rfl, rfl⟩

/-- A step of the SEC main loop changes the SEC unit, the draws and, when it has no action due, the phase alone. -/
theorem sec_step_frame {s s' : State} (h : s.phase = .sec) (e : step s = .next s') :
    s'.par = s.par ∧ s'.t = s.t ∧ s'.line = s.line ∧ s'.linePrev = s.linePrev ∧ s'.contended = s.contended ∧
    s'.pri = s.pri ∧ s'.bus = s.bus ∧ (s'.phase = .sec ∨ SecWaits s ∧ s'.phase = .pri) := by
  rcases SecWaits.or_turn h with hw | hpoll | ⟨b, p, ht⟩
  · rw [hw.step_eq] at e
    cases e
    exact ⟨rfl, rfl, rfl, rfl, rfl, rfl, rfl, .inr ⟨hw, rfl⟩⟩
  · rw [hpoll] at e
    cases e
    exact ⟨rfl, rfl, rfl, rfl, rfl, rfl, rfl, .inl h⟩
  · by_cases hp : p = .start
    · subst hp
      rw [ht.step_start] at e
      obtain ⟨hpar, htime, hline, hprev, hcon, hpri, hph, hbus⟩ := exec_evt_frame e
      exact ⟨hpar, htime, hline, hprev, hcon, hpri, hbus, .inl (hph.trans h)⟩
    · rw [ht.step_eq hp] at e
      cases e
      obtain ⟨hpar, htime, hline, hprev, hcon, hpri, hph, -, hbus, -⟩ := secAct_frame b p s
      exact ⟨hpar, htime, hline, hprev, hcon, hpri, hbus, .inl (hph.trans h)⟩

/-- The inversion of a step for the PRI unit. -/
theorem step_priMove {s s' : State} (e : step s = .next s') : PriMove s s' := by
  rcases step_next_cases e with ⟨hp, rfl⟩ | ⟨-, rfl⟩ | ⟨hp, -⟩ | ⟨hp, -⟩ | ⟨hp, -⟩ | ⟨-, -, rfl⟩ |
    ⟨hp, a, rest, hb, -⟩
  · exact .pads hp (padsPhase_frame s).1
  · exact .kept (linePhase_frame s).1
  · exact .kept (handler_step_frame hp e).1
  · obtain ⟨-, -, -, -, -, hpri, -⟩ := sec_step_frame hp e
    exact .kept hpri
  · rcases pri_step_cases hp e with ⟨rfl, -⟩ | ⟨c, sk, p, ht, rfl⟩
    · exact .kept rfl
    · exact .stmt c sk p ht (priAct_pri c sk p s) (priAct_stmt c sk p s)
  · exact .kept rfl
  · obtain ⟨bank, off, ht⟩ := HostTurn.of_step hp hb e
    exact ht.priMove e

end Sys2Proof.Machine
end

section
/-! PROOFS. How time passes: what a step does to the timer, the phase, the line and the parameters
(spec/44_gpio_line.md R210, R220). -/

namespace Sys2Proof.Machine

/-- Where a step leaves the instant: in its phase, in the next phase once nothing is due, or at its end. -/
inductive PhaseMove (s s' : State) : Prop
  | pads (hph : s.phase = .pads) (ht : s'.t = s.t) (hph' : s'.phase = .line)
  | line (hph : s.phase = .line) (ht : s'.t = s.t) (hph' : s'.phase = .handler)
  | handler (hph : s.phase = .handler) (ht : s'.t = s.t) (hph' : s'.phase = .sec)
      (htaken : s.par.secPresent = true → s.sec.isrDueAt = some s.t → s'.sec.isrDueAt = none)
  | secWaits (hw : SecWaits s) (ht : s'.t = s.t) (hph' : s'.phase = .pri)
  | priWaits (hw : PriWaits s) (ht : s'.t = s.t) (hph' : s'.phase = .host)
  | stays (hph : s.phase = .sec ∨ s.phase = .pri ∨ s.phase = .host ∧ s.bus ≠ []) (ht : s'.t = s.t)
      (hph' : s'.phase = s.phase)
  | instantEnds (hph : s.phase = .host) (hbus : s.bus = []) (hs : s' = nextInstant s)

/-- R161: the entry that is due takes the request, whatever its case. -/
theorem handler_takes_request {s s' : State} (h : s.phase = .handler) (hsp : s.par.secPresent = true)
    (hdue : s.sec.isrDueAt = some s.t) (e : step s = .next s') : s'.sec.isrDueAt = none := by
  rw [step_handler h] at e
  rcases handlerPhase_cases s with ⟨hn, -⟩ | ⟨-, -, e'⟩
  · exact absurd ⟨hsp, hdue⟩ hn
  · rw [e'] at e
    cases hp : s.sec.pending <;> cases hi : s.sec.isrState <;> cases hl : s.line <;> rw [hp, hi, hl] at e <;>
      cases e <;> rfl

theorem step_phaseMove {s s' : State} (e : step s = .next s') : PhaseMove s s' := by
  rcases step_next_cases e with ⟨hp, rfl⟩ | ⟨hp, rfl⟩ | ⟨hp, -⟩ | ⟨hp, -⟩ | ⟨hp, -⟩ | ⟨hp, hb, rfl⟩ |
    ⟨hp, a, rest, hb, -⟩
  · obtain ⟨-, -, -, ht, -, -, -, -, -, hph⟩ := padsPhase_frame s
    exact .pads hp ht hph
  · obtain ⟨-, -, -, ht, -, -, -, -, -, hph⟩ := linePhase_frame s
    exact .line hp ht hph
  · obtain ⟨-, -, ht, -, -, -, -, -, -, hph, -⟩ := handler_step_frame hp e
    exact .handler hp ht hph fun hsp hdue => handler_takes_request hp hsp hdue e
  · obtain ⟨-, ht, -, -, -, -, -, hph | ⟨hw, hph⟩⟩ := sec_step_frame hp e
    · exact .stays (.inl hp) ht (hph.trans hp.symm)
    · exact .secWaits hw ht hph
  · rcases pri_step_cases hp e with ⟨rfl, hw⟩ | ⟨c, sk, p, -, rfl⟩
    · exact .priWaits hw rfl rfl
    · exact .stays (.inr (.inl hp)) (by rw [priAct_pri]; rfl) (by rw [priAct_pri]; rfl)
  · exact .instantEnds hp hb rfl
  · obtain ⟨bank, off, ht⟩ := HostTurn.of_step hp hb e
    obtain ⟨-, -, -, htime, -, -, -, -, -, hph, -⟩ := ht.frame e
    exact .stays (.inr (.inr ⟨hp, by rw [hb]; simp⟩)) htime (hph.trans hp.symm)

/-- No step changes the parameters; the line changes in its phase alone; the bus is filled by the host's turn alone. -/
theorem step_frame {s s' : State} (e : step s = .next s') :
    s'.par = s.par ∧
    (s.phase ≠ .line → s'.line = s.line ∧ s'.linePrev = s.linePrev ∧ s'.contended = s.contended) ∧
    (s'.phase ≠ .host → s.bus = [] → s'.bus = []) := by
  rcases step_next_cases e with ⟨hp, rfl⟩ | ⟨hp, rfl⟩ | ⟨hp, -⟩ | ⟨hp, -⟩ | ⟨hp, -⟩ | ⟨hp, hb, rfl⟩ |
    ⟨hp, a, rest, hb, -⟩
  · obtain ⟨-, -, hpar, -, hline, hprev, hcon, -, hbus, -⟩ := padsPhase_frame s
    exact ⟨hpar, fun _ => ⟨hline, hprev, hcon⟩, fun _ h => hbus.trans h⟩
  · obtain ⟨-, -, hpar, -, -, -, -, -, hbus, -⟩ := linePhase_frame s
    exact ⟨hpar, fun h => absurd hp h, fun _ h => hbus.trans h⟩
  · obtain ⟨-, hpar, -, hline, hprev, hcon, hbus, -⟩ := handler_step_frame hp e
    exact ⟨hpar, fun _ => ⟨hline, hprev, hcon⟩, fun _ h => hbus.trans h⟩
  · obtain ⟨hpar, -, hline, hprev, hcon, -, hbus, -⟩ := sec_step_frame hp e
    exact ⟨hpar, fun _ => ⟨hline, hprev, hcon⟩, fun _ h => hbus.trans h⟩
  · rcases pri_step_cases hp e with ⟨rfl, -⟩ | ⟨c, sk, p, -, rfl⟩
    · exact ⟨rfl, fun _ => ⟨rfl, rfl, rfl⟩, fun h => absurd rfl h⟩
    · rw [priAct_pri]
      exact ⟨rfl, fun _ => ⟨rfl, rfl, rfl⟩, fun _ h => h⟩
  · exact ⟨rfl, fun _ => ⟨rfl, rfl, rfl⟩, fun _ h => h⟩
  · obtain ⟨bank, off, ht⟩ := HostTurn.of_step hp hb e
    obtain ⟨-, -, hpar, -, hline, hprev, hcon, -, -, hph, -⟩ := ht.frame e
    exact ⟨hpar, fun _ => ⟨hline, hprev, hcon⟩, fun h => absurd hph h⟩

theorem step_par {s s' : State} (e : step s = .next s') : s'.par = s.par := (step_frame e).1

end Sys2Proof.Machine
end

section
/-! PROOFS. The invariant of the PRI unit: every statement, every accepted write and every pad effect keeps it
(spec/10_state.md R22, R31, R32; spec/41_pri_controller.md R120, R123). -/

namespace Sys2Proof.Machine

/-- The invariant reads none of the pad, the flags, the data and the enable registers. -/
theorem PriInv.congr {s r : State} {pad : Pad} {padDue : Option PadDue} {done err doneIe errIe : Bool}
    {lastErr : ErrCode} {txData : Word} (inv : PriInv s) (hpar : r.par = s.par)
    (hpri : r.pri = { s.pri with
      pad := pad, padDue := padDue, done := done, err := err, lastErr := lastErr, txData := txData
      doneIe := doneIe, errIe := errIe }) : PriInv r := by
  obtain ⟨hbusy, hprof, hready, hrunning, hpoint, hslot, hacc⟩ := inv
  cases r
  simp only at hpar hpri
  subst hpar hpri
  exact ⟨hbusy, hprof, hready, hrunning, hpoint, hslot, hacc⟩

/-- A statement that leads to another one keeps the invariant when the next point is the command's. -/
theorem PriInv.goesOn {s : State} {c : PriCmd} {sk : Bool} {p next : PriPoint} {due slot : Nat} {presence : Bool}
    {rxAcc t0 t1 : Word} {padDue : Option PadDue} (inv : PriInv s) (ht : PriTurn s c sk p)
    (hpoint : next.okFor c sk (s.withPri { s.pri with presence := presence })) (hslot : slot ≤ 32)
    (hacc : ∀ k, c = .read → next.filled ≤ k → rxAcc.getLsbD k = false) :
    PriInv (s.withPri { s.pri with
      presence := presence, slot := slot, rxAcc := rxAcc, calT0 := t0, calT1 := t1, padDue := padDue
      seq := .running c sk next due }) where
  busy_iff := ⟨fun _ h => (nomatch h), fun _ => inv.busy_iff.mpr (by rw [ht.2]; simp)⟩
  prof_eq := inv.prof_eq
  ready_ok := inv.ready_ok
  running_ok := by
    intro c' sk' p' due' h
    cases h
    exact inv.running_ok _ _ _ _ ht.2
  point_ok := by
    intro c' sk' p' due' h
    cases h
    exact hpoint
  slot_le := hslot
  rxAcc_above := by
    intro sk' p' due' h _ k hk
    cases h
    exact hacc k rfl hk

/-- The end of a command keeps the invariant: nothing runs, and a unit that is READY passed the check. -/
theorem PriInv.ends {s : State} {ready err : Bool} {lastErr : ErrCode} {t2 rxData : Word} {sw wr : Nat}
    (inv : PriInv s) (hready : ready = true → s.pri.cfg.legal = true ∧ calOk s.pri.prof sw wr = true) :
    PriInv (s.withPri { s.pri with
      calT2 := t2, swLat := sw, wrLat := wr, ready := ready, err := err, lastErr := lastErr, rxData := rxData
      seq := .idle, busy := false, done := true }) where
  busy_iff := ⟨fun h => (nomatch h), fun h => absurd rfl h⟩
  prof_eq := inv.prof_eq
  ready_ok := hready
  running_ok := fun _ _ _ _ h => nomatch h
  point_ok := fun _ _ _ _ h => nomatch h
  slot_le := inv.slot_le
  rxAcc_above := fun _ _ _ h => nomatch h

/-- The widths of a running command are at most 32 (R120). -/
theorem PriInv.widths_le {s : State} {c : PriCmd} {sk : Bool} {p : PriPoint} {due : Nat} (inv : PriInv s)
    (h : s.pri.seq = .running c sk p due) : s.pri.cfg.p2s ≤ 32 ∧ s.pri.cfg.s2p ≤ 32 := by
  obtain ⟨-, -, hp, -, hs⟩ := (CfgReg.legal_iff _).mp (inv.running_ok c sk p due h).1
  exact ⟨hp, hs⟩

/-- Bit `i` of the packet being read is filled, those above stay 0. -/
theorem setBit_above {w : Word} {i : Nat} (b : Bool) (h : ∀ k, i ≤ k → w.getLsbD k = false) (k : Nat)
    (hk : i + 1 ≤ k) : (setBit w i b).getLsbD k = false := by
  by_cases hk32 : k < 32
  · rw [setBit_getLsbD w i b k hk32, if_neg (by omega)]
    exact h k (by omega)
  · exact BitVec.getLsbD_of_ge _ _ (by omega)

/-- Every statement keeps the invariant. -/
theorem PriInv.stmt {s : State} {c : PriCmd} {sk : Bool} {p : PriPoint} {u : PriUnit} (inv : PriInv s)
    (ht : PriTurn s c sk p) (h : PriStmt s c sk p u) : PriInv (s.withPri u) := by
  have hok := inv.point_ok _ _ _ _ ht.2
  have hacc : p ≠ .start → ∀ k, c = .read → p.filled ≤ k → s.pri.rxAcc.getLsbD k = false := by
    rintro hp k rfl hk
    exact inv.rxAcc_above _ _ _ ht.2 hp k hk
  have hzero : ∀ k : Nat, (0#32).getLsbD k = false := fun _ => BitVec.getLsbD_zero
  obtain ⟨hp2s, hs2p⟩ := inv.widths_le ht.2
  cases h with
  | startInit => exact inv.goesOn ht ⟨rfl, trivial⟩ inv.slot_le (fun _ h => nomatch h)
  | startReset =>
    have hsk : sk = false := by cases sk <;> simp [PriPoint.okFor] at hok ⊢
    exact inv.goesOn ht ⟨by simp, hsk⟩ inv.slot_le (fun _ h => nomatch h)
  | startWrite => exact inv.goesOn ht ⟨by simp, rfl⟩ inv.slot_le (fun _ h => nomatch h)
  | startWriteSkip =>
    exact inv.goesOn ht ⟨rfl, Nat.zero_le _, fun h => absurd rfl h, .inl rfl⟩ inv.slot_le (fun _ h => nomatch h)
  | startRead => exact inv.goesOn ht ⟨by simp, rfl⟩ inv.slot_le (fun k _ _ => hzero k)
  | startReadSkip =>
    exact inv.goesOn ht ⟨rfl, Nat.zero_le _, fun h => absurd rfl h, .inl rfl⟩ inv.slot_le (fun k _ _ => hzero k)
  | calFirstRead => exact inv.goesOn ht ⟨hok.1, Nat.zero_le _⟩ inv.slot_le (hacc (by simp))
  | calSwitch _ _ k hk => exact inv.goesOn ht ⟨hok.1, hk⟩ inv.slot_le (hacc (by simp))
  | calSwitchEnd => exact inv.goesOn ht ⟨hok.1, Nat.zero_le _⟩ inv.slot_le (hacc (by simp))
  | calSwitchWait _ _ k => exact inv.goesOn ht ⟨hok.1, hok.2⟩ inv.slot_le (hacc (by simp))
  | calWrite _ _ k hk => exact inv.goesOn ht ⟨hok.1, hk⟩ inv.slot_le (hacc (by simp))
  | calWriteWait _ _ k => exact inv.goesOn ht ⟨hok.1, hok.2⟩ inv.slot_le (hacc (by simp))
  | calOk _ _ k sw wr hk hsw hwr hcal => exact inv.ends fun _ => ⟨(inv.running_ok _ _ _ _ ht.2).1, hcal⟩
  | calFails _ _ k sw wr hk hsw hwr hcal =>
    exact inv.ends fun hr => absurd hok.1 ((inv.running_ok _ _ _ _ ht.2).2.mp hr)
  | rstLow | rstHold | rstRelease | rstWait | rstSample | rstDrive | rstSettle =>
    exact inv.goesOn ht hok inv.slot_le (hacc (by simp))
  | rstEnds | rstSentinel => exact inv.ends inv.ready_ok
  | rstThenWrite _ hp =>
    exact inv.goesOn ht ⟨rfl, Nat.zero_le _, fun h => absurd rfl h, .inr hp⟩ inv.slot_le (fun _ h => nomatch h)
  | rstThenRead _ hp =>
    exact inv.goesOn ht ⟨rfl, Nat.zero_le _, fun h => absurd rfl h, .inr hp⟩ inv.slot_le (hacc (by simp))
  | wrHead _ _ i hi =>
    obtain ⟨hc, hle, -, hpres⟩ := hok
    exact inv.goesOn ht ⟨hc, hle, fun _ => hi, hpres⟩ (by omega) (hacc (by simp))
  | wrEnd => exact inv.ends inv.ready_ok
  | wrHold | wrHigh =>
    obtain ⟨hc, hle, hlt, hpres⟩ := hok
    exact inv.goesOn ht ⟨hc, hle, fun _ => hlt (by simp), hpres⟩ inv.slot_le (hacc (by simp))
  | wrPause =>
    obtain ⟨hc, hle, hlt, hpres⟩ := hok
    exact inv.goesOn ht ⟨hc, hlt (by simp), fun h => absurd rfl h, hpres⟩ inv.slot_le (hacc (by simp))
  | rdHead _ _ i hi =>
    obtain ⟨hc, hle, -, hpres⟩ := hok
    exact inv.goesOn ht ⟨hc, hle, fun _ => hi, hpres⟩ (by omega) (hacc (by simp))
  | rdEnd => exact inv.ends inv.ready_ok
  | rdHold | rdRelease | rdWait | rdSample =>
    obtain ⟨hc, hle, hlt, hpres⟩ := hok
    exact inv.goesOn ht ⟨hc, hle, fun _ => hlt (by simp), hpres⟩ inv.slot_le (hacc (by simp))
  | rdStore _ _ i v =>
    obtain ⟨hc, hle, hlt, hpres⟩ := hok
    exact inv.goesOn ht ⟨hc, hle, fun _ => hlt (by simp), hpres⟩ inv.slot_le
      (fun k _ hk => setBit_above _ (fun k hk => hacc (by simp) k hc hk) k hk)
  | rdSettle =>
    obtain ⟨hc, hle, hlt, hpres⟩ := hok
    exact inv.goesOn ht ⟨hc, hlt (by simp), fun h => absurd rfl h, hpres⟩ inv.slot_le (hacc (by simp))

/-- Every write of a register of bank P keeps the invariant. -/
theorem PriInv.write {s : State} {u : PriUnit} (inv : PriInv s) (h : PriWrite s.t s.pri u) :
    PriInv (s.withPri u) := by
  have hidle : s.pri.busy = false → s.pri.seq = .idle := fun hb => by
    by_contra hn
    rw [inv.busy_iff.mpr hn] at hb
    cases hb
  cases h with
  | registers => exact inv.congr rfl rfl
  | accept c sk hsk hb hr hc =>
    constructor
    case busy_iff => exact ⟨fun _ h => (nomatch h), fun _ => rfl⟩
    case prof_eq => exact inv.prof_eq
    case ready_ok =>
      intro h
      by_cases hi : c = .init
      · simp [hi] at h
      · exact inv.ready_ok (hr hi)
    case running_ok =>
      intro c' sk' p' due' h
      cases h
      by_cases hi : c = .init
      · exact ⟨hc hi, by simp [hi]⟩
      · exact ⟨(inv.ready_ok (hr hi)).1, by simp [hi, hr hi]⟩
    case point_ok =>
      intro c' sk' p' due' h
      cases h
      exact hsk
    case slot_le => exact inv.slot_le
    case rxAcc_above =>
      intro sk' p' due' h hp
      cases h
      exact absurd rfl hp
  | cfg cfg hb =>
    have hseq := hidle hb
    exact
      { busy_iff := inv.busy_iff
        prof_eq := rfl
        ready_ok := fun h => nomatch h
        running_ok := fun c sk p due h => by rw [State.withPri_pri, hseq] at h; cases h
        point_ok := fun c sk p due h => by rw [State.withPri_pri, hseq] at h; cases h
        slot_le := inv.slot_le
        rxAcc_above := fun sk p due h => by rw [State.withPri_pri, hseq] at h; cases h }

theorem PriInv.step {s s' : State} (inv : PriInv s) (e : step s = .next s') : PriInv s' := by
  have hpar := step_par e
  cases step_priMove e with
  | kept h => exact inv.congr hpar h
  | pads _ h => exact inv.congr hpar h
  | stmt c sk p ht hs h => rw [hs]; exact inv.stmt ht h
  | host _ _ _ _ _ h => exact (inv.write h).congr hpar rfl

end Sys2Proof.Machine

namespace Sys2Proof.Proofs

open Sys2Proof Sys2Proof.Machine

/-- Settles O54: by the inversion of a step for the PRI unit. -/
theorem priInvKept : Obligations.PriInvKept := fun _ _ inv e => inv.step e

end Sys2Proof.Proofs
end

section
/-! PROOFS. The clock of a command: each statement lasts as long as the next point lies behind its own, so a command
ends after the sum of its statements' durations (spec/41_pri_controller.md R135). -/

namespace Sys2Proof.Machine

/-- The time to a program point depends on the profile, the calibration values and the packet being sent alone. -/
theorem PriPoint.elapsed_congr {q : Params} {u v : PriUnit} (hprof : u.prof = v.prof) (hsw : u.swLat = v.swLat)
    (hwr : u.wrLat = v.wrLat) (htx : u.txSnap = v.txSnap) (sk : Bool) (p : PriPoint) :
    p.elapsed q u sk = p.elapsed q v sk := by
  have hreset : resetPhaseTime q u = resetPhaseTime q v := by simp only [resetPhaseTime, hprof, hsw]
  have hlead : leadTime q u sk = leadTime q v sk := by rw [leadTime, leadTime, hreset]
  cases p with
  | start => rfl
  | cal => rfl
  | rst r => cases r <;> simp only [PriPoint.elapsed, ResetPoint.elapsed, hprof, hsw, hreset]
  | wr i r =>
    have hslot : writeSlotTime q u = writeSlotTime q v := by funext i; simp only [writeSlotTime, hprof, hwr, htx]
    cases r <;> simp only [PriPoint.elapsed, WritePoint.elapsed, hlead, hslot, hprof, hwr, htx]
  | rd i r =>
    have hslot : readSlotTime q u = readSlotTime q v := by simp only [readSlotTime, hprof, hsw]
    cases r <;> simp only [PriPoint.elapsed, ReadPoint.elapsed, hlead, hslot, hprof, hsw]

theorem ClockInv.congr {a : Nat} {s r : State} (hclock : ClockInv a s) (hpar : r.par = s.par)
    (hseq : r.pri.seq = s.pri.seq) (hprof : r.pri.prof = s.pri.prof) (hsw : r.pri.swLat = s.pri.swLat)
    (hwr : r.pri.wrLat = s.pri.wrLat) (htx : r.pri.txSnap = s.pri.txSnap) : ClockInv a r := by
  intro c sk p due h
  rw [hpar, PriPoint.elapsed_congr hprof hsw hwr htx]
  exact hclock c sk p due (hseq ▸ h)

/-- A statement that does not end its command leaves what the durations depend on. -/
theorem PriStmt.keeps_timing {s : State} {c : PriCmd} {sk : Bool} {p : PriPoint} {u : PriUnit}
    (h : PriStmt s c sk p u) (hrun : u.seq ≠ .idle) :
    u.prof = s.pri.prof ∧ u.swLat = s.pri.swLat ∧ u.wrLat = s.pri.wrLat ∧ u.txSnap = s.pri.txSnap := by
  cases h with
  | calOk | calFails => exact absurd rfl hrun
  | _ => exact ⟨rfl, rfl, rfl, rfl⟩

/-- A statement lasts as long as the next point lies behind its own. -/
theorem PriStmt.elapsed_next {s : State} {c c' : PriCmd} {sk sk' : Bool} {p next : PriPoint} {due : Nat} {u : PriUnit}
    (hok : p.okFor c sk s) (h : PriStmt s c sk p u) (hseq : u.seq = .running c' sk' next due) :
    due + p.elapsed s.par s.pri sk = s.t + next.elapsed s.par s.pri sk' := by
  cases h with
  | startInit | startReset | startWrite | startWriteSkip | startRead | startReadSkip =>
    cases hseq
    simp [PriPoint.elapsed, CalPoint.elapsed, ResetPoint.elapsed, WritePoint.elapsed, ReadPoint.elapsed, leadTime,
      sumTo]
  | calFirstRead | calSwitch | calWrite =>
    cases hseq
    simp only [PriPoint.elapsed, CalPoint.elapsed]
    omega
  | calSwitchEnd _ _ k hk =>
    cases hseq
    have hend : k = s.par.calNSwitch := Nat.le_antisymm hok.2 hk
    simp only [PriPoint.elapsed, CalPoint.elapsed, hend]
    omega
  | calSwitchWait =>
    cases hseq
    simp only [PriPoint.elapsed, CalPoint.elapsed, Nat.succ_mul]
    have hcost : switchCost s.par = s.par.priLatSwitch + s.par.calLoopOvh := rfl
    omega
  | calWriteWait =>
    cases hseq
    simp only [PriPoint.elapsed, CalPoint.elapsed, Nat.succ_mul]
    have hcost : writeCost s.par = s.par.priLatWrite + s.par.calLoopOvh := rfl
    omega
  | calOk | calFails | rstEnds | rstSentinel | wrEnd | rdEnd => cases hseq
  | rstLow | rstHold | rstRelease | rstWait | rstSample | rstDrive | rstSettle =>
    cases hseq
    simp only [PriPoint.elapsed, ResetPoint.elapsed, resetPhaseTime]
    omega
  | rstThenWrite | rstThenRead =>
    cases hseq
    simp [PriPoint.elapsed, ResetPoint.elapsed, WritePoint.elapsed, ReadPoint.elapsed, leadTime, sumTo, hok.2]
  | wrHead | wrHold | wrHigh =>
    cases hseq
    simp only [PriPoint.elapsed, WritePoint.elapsed]
    omega
  | wrPause =>
    cases hseq
    simp only [PriPoint.elapsed, WritePoint.elapsed, sumTo, writeSlotTime]
    omega
  | rdHead | rdHold | rdRelease | rdWait | rdSample | rdStore =>
    cases hseq
    simp only [PriPoint.elapsed, ReadPoint.elapsed]
    omega
  | rdSettle =>
    cases hseq
    simp only [PriPoint.elapsed, ReadPoint.elapsed, Nat.succ_mul, readSlotTime]
    omega

/-- The statement that ends a command stands at the command's whole time. -/
theorem PriStmt.elapsed_end {s : State} {c : PriCmd} {sk : Bool} {p : PriPoint} {u : PriUnit}
    (hok : p.okFor c sk s) (h : PriStmt s c sk p u) (hseq : u.seq = .idle) :
    p.elapsed s.par s.pri sk = commandTime s.par s.pri c sk := by
  cases h with
  | calOk _ _ k sw wr hk | calFails _ _ k sw wr hk =>
    obtain ⟨rfl, hle⟩ := hok
    have hend : k = s.par.calNWrite := Nat.le_antisymm hle hk
    simp only [PriPoint.elapsed, CalPoint.elapsed, commandTime, calTime, hend]
  | rstEnds _ _ hc hr =>
    obtain ⟨hi, rfl⟩ := hok
    cases c with
    | init => exact absurd rfl hi
    | reset => rfl
    | write => simp [PriPoint.elapsed, ResetPoint.elapsed, commandTime, leadTime, hc]
    | read => exact absurd rfl hr
  | rstSentinel _ hp =>
    obtain ⟨-, rfl⟩ := hok
    simp [PriPoint.elapsed, ResetPoint.elapsed, commandTime, leadTime, hp]
  | wrEnd _ _ i hi =>
    obtain ⟨rfl, hle, -, hslots⟩ := hok
    have hend : i = s.pri.cfg.p2s := Nat.le_antisymm hle hi
    simp [PriPoint.elapsed, WritePoint.elapsed, commandTime, hend, hslots]
  | rdEnd _ _ i hi =>
    obtain ⟨rfl, hle, -, hslots⟩ := hok
    have hend : i = s.pri.cfg.s2p := Nat.le_antisymm hle hi
    simp [PriPoint.elapsed, ReadPoint.elapsed, commandTime, hend, hslots]
  | _ => cases hseq

/-- The clock starts with the acceptance, whose first action comes one instant later (R68). -/
theorem clockInv_of_accepted {s s' : State} (hidle : s.pri.seq = .idle) (e : step s = .next s')
    (hrun : s'.pri.seq ≠ .idle) : ClockInv s.t s' := by
  cases step_priMove e with
  | kept h => exact absurd (by rw [h, hidle]) hrun
  | pads _ h => exact absurd (by rw [h]; exact hidle) hrun
  | stmt c sk p ht => rw [ht.2] at hidle; cases hidle
  | host tgt v rest off ht h =>
    intro c sk p due hseq
    generalize hu : s'.pri = u at h hseq hrun
    cases h with
    | registers => exact absurd hidle hrun
    | accept => cases hseq; rfl
    | cfg => exact absurd hidle hrun

/-- A running command can neither be replaced nor reconfigured: BUSY turns both away (R120, R24). -/
theorem PriWrite.of_running {s : State} {u : PriUnit} (inv : PriInv s) (hrun : s.pri.seq ≠ .idle)
    (h : PriWrite s.t s.pri u) :
    ∃ done err lastErr txData doneIe errIe,
      u = { s.pri with
        done := done, err := err, lastErr := lastErr, txData := txData, doneIe := doneIe, errIe := errIe } := by
  have hbusy := inv.busy_iff.mpr hrun
  cases h with
  | registers => exact ⟨_, _, _, _, _, _, rfl⟩
  | accept _ _ _ hb => rw [hbusy] at hb; cases hb
  | cfg _ hb => rw [hbusy] at hb; cases hb

theorem ClockInv.step {a : Nat} {s s' : State} (inv : PriInv s) (hclock : ClockInv a s) (hrun : s.pri.seq ≠ .idle)
    (e : step s = .next s') :
    ClockInv a s' ∧
    (s'.pri.seq = .idle → ∃ c skip p, s.pri.seq = .running c skip p s.t ∧
      s.t = a + 1 + commandTime s.par s.pri c skip) := by
  have hpar := step_par e
  cases step_priMove e with
  | kept h =>
    refine ⟨hclock.congr hpar ?_ ?_ ?_ ?_ ?_, fun hidle => absurd (by rw [← h]; exact hidle) hrun⟩ <;> rw [h]
  | pads _ h =>
    refine ⟨hclock.congr hpar ?_ ?_ ?_ ?_ ?_, fun hidle => absurd (by rw [h] at hidle; exact hidle) hrun⟩ <;> rw [h]
  | host _ _ _ _ _ h =>
    obtain ⟨_, _, _, _, _, _, h⟩ := h.of_running inv hrun
    refine ⟨hclock.congr hpar ?_ ?_ ?_ ?_ ?_, fun hidle => absurd (by rw [h] at hidle; exact hidle) hrun⟩ <;> rw [h]
  | stmt c sk p ht _ h =>
    have hok := inv.point_ok _ _ _ _ ht.2
    have hnow := hclock _ _ _ _ ht.2
    constructor
    · intro c' sk' next due hseq
      obtain ⟨hprof, hsw, hwr, htx⟩ := h.keeps_timing (by rw [hseq]; simp)
      have hnext := h.elapsed_next hok hseq
      rw [hpar, PriPoint.elapsed_congr hprof hsw hwr htx]
      omega
    · intro hidle
      exact ⟨c, sk, p, ht.2, by rw [← h.elapsed_end hok hidle]; exact hnow⟩

end Sys2Proof.Machine

namespace Sys2Proof.Proofs

open Sys2Proof Sys2Proof.Machine

/-- Settles O13: the acceptance starts the clock, each statement advances it by its duration, and the statement that
ends the command stands at the command's whole time. -/
theorem commandDuration : Obligations.CommandDuration :=
  ⟨fun _ _ hidle e hrun => clockInv_of_accepted hidle e hrun, fun _ _ _ inv hclock hrun e => hclock.step inv hrun e⟩

end Sys2Proof.Proofs
end

section
/-! PROOFS. Calibration: each iteration of INIT's loops takes the timer on by its cost, so the quotients of the readings
are the costs (spec/41_pri_controller.md R121, R122). -/

namespace Sys2Proof.Machine

/-- The invariant reads of the PRI unit only the sequencer, two timer readings, READY and the calibration values. -/
theorem CalInv.congr {s r : State} (inv : CalInv s) (hpar : r.par = s.par) (hseq : r.pri.seq = s.pri.seq)
    (ht0 : r.pri.calT0 = s.pri.calT0) (ht1 : r.pri.calT1 = s.pri.calT1) (hready : r.pri.ready = s.pri.ready)
    (hsw : r.pri.swLat = s.pri.swLat) (hwr : r.pri.wrLat = s.pri.wrLat) : CalInv r := by
  obtain ⟨hswitch, hswitchWait, hwrite, hwriteWait, hmeasured⟩ := inv
  constructor <;> rw [hpar]
  · rw [hseq, ht0]; exact hswitch
  · rw [hseq, ht0]; exact hswitchWait
  · rw [hseq, ht0, ht1]; exact hwrite
  · rw [hseq, ht0, ht1]; exact hwriteWait
  · rw [hready, hsw, hwr]; exact hmeasured

/-- Outside the loops only the calibration values of a READY unit are left to say. -/
theorem CalInv.of_outside {s : State}
    (hout : ∀ c sk q due, s.pri.seq = .running c sk (.cal q) due → q = .firstRead)
    (hmeasured : s.pri.ready = true → s.pri.swLat = switchCost s.par ∧ s.pri.wrLat = writeCost s.par) :
    CalInv s where
  in_switch := fun _ _ _ _ h => nomatch hout _ _ _ _ h
  in_switchWait := fun _ _ _ _ h => nomatch hout _ _ _ _ h
  in_write := fun _ _ _ _ h => nomatch hout _ _ _ _ h
  in_writeWait := fun _ _ _ _ h => nomatch hout _ _ _ _ h
  measured := hmeasured

/-- Time that passes on both sides keeps a timer reading where it stands after `x`. -/
theorem ofNat_eq_add_later {a b : Nat} {x : Word} (d : Nat) (h : BitVec.ofNat 32 a = x + BitVec.ofNat 32 b) :
    BitVec.ofNat 32 (a + d) = x + BitVec.ofNat 32 (b + d) := by
  rw [BitVec.ofNat_add, h, BitVec.ofNat_add, BitVec.add_assoc]

theorem ofNat_eq_add_zero (a c : Nat) : BitVec.ofNat 32 a = BitVec.ofNat 32 a + BitVec.ofNat 32 (0 * c) := by simp

/-- R122: the quotient of the time `n` iterations took is the time of one. -/
theorem quotient_of_readings {n cost : Nat} (x : Word) (hn : 0 < n) (hfits : n * cost < 2 ^ 32) :
    (x + BitVec.ofNat 32 (n * cost) - x).toNat / n = cost := by
  rw [add_sub_cancel_left, BitVec.toNat_ofNat, Nat.mod_eq_of_lt hfits, Nat.mul_div_cancel_left cost hn]

/-- What INIT measures at the end of its loops. -/
theorem CalInv.quotients {s : State} {c : PriCmd} {sk : Bool} {k : Nat} (inv : CalInv s) (hlegal : s.par.Legal)
    (hfits : calFits s.par) (ht : PriTurn s c sk (.cal (.write k))) (hk : s.par.calNWrite ≤ k) :
    (s.pri.calT1 - s.pri.calT0).toNat / s.par.calNSwitch = switchCost s.par ∧
    (s.now - s.pri.calT1).toNat / s.par.calNWrite = writeCost s.par := by
  obtain ⟨-, -, -, -, -, -, hswitch, -, hwrite, -⟩ := hlegal
  obtain ⟨hle, ht1, hnow⟩ := inv.in_write _ _ _ _ ht.2
  obtain rfl : k = s.par.calNWrite := Nat.le_antisymm hle hk
  rw [State.now, hnow, ht1]
  exact ⟨quotient_of_readings _ (by omega) hfits.1, quotient_of_readings _ (by omega) hfits.2⟩

theorem CalInv.stmt {s : State} {c : PriCmd} {sk : Bool} {p : PriPoint} {u : PriUnit} (inv : CalInv s)
    (hlegal : s.par.Legal) (hfits : calFits s.par) (ht : PriTurn s c sk p) (h : PriStmt s c sk p u) :
    CalInv (s.withPri u) := by
  cases h with
  | calFirstRead =>
    exact
      { in_switch := by intro _ _ k due h; cases h; exact ⟨Nat.zero_le _, ofNat_eq_add_zero _ _⟩
        in_switchWait := fun _ _ _ _ h => nomatch h
        in_write := fun _ _ _ _ h => nomatch h
        in_writeWait := fun _ _ _ _ h => nomatch h
        measured := inv.measured }
  | calSwitch _ _ k hk =>
    obtain ⟨-, hnow⟩ := inv.in_switch _ _ _ _ ht.2
    exact
      { in_switch := fun _ _ _ _ h => nomatch h
        in_switchWait := by intro _ _ k due h; cases h; exact ⟨hk, ofNat_eq_add_later _ hnow⟩
        in_write := fun _ _ _ _ h => nomatch h
        in_writeWait := fun _ _ _ _ h => nomatch h
        measured := inv.measured }
  | calSwitchWait _ _ k =>
    obtain ⟨hk, hnow⟩ := inv.in_switchWait _ _ _ _ ht.2
    have hcost : (k + 1) * switchCost s.par = k * switchCost s.par + s.par.priLatSwitch + s.par.calLoopOvh := by
      rw [Nat.succ_mul, switchCost, Nat.add_assoc]
    exact
      { in_switch := by
          intro _ _ k due h
          cases h
          exact ⟨hk, by rw [State.withPri_par, hcost]; exact ofNat_eq_add_later _ hnow⟩
        in_switchWait := fun _ _ _ _ h => nomatch h
        in_write := fun _ _ _ _ h => nomatch h
        in_writeWait := fun _ _ _ _ h => nomatch h
        measured := inv.measured }
  | calSwitchEnd _ _ k hk =>
    obtain ⟨hle, hnow⟩ := inv.in_switch _ _ _ _ ht.2
    obtain rfl : k = s.par.calNSwitch := Nat.le_antisymm hle hk
    exact
      { in_switch := fun _ _ _ _ h => nomatch h
        in_switchWait := fun _ _ _ _ h => nomatch h
        in_write := by intro _ _ k due h; cases h; exact ⟨Nat.zero_le _, hnow, ofNat_eq_add_zero _ _⟩
        in_writeWait := fun _ _ _ _ h => nomatch h
        measured := inv.measured }
  | calWrite _ _ k hk =>
    obtain ⟨-, ht1, hnow⟩ := inv.in_write _ _ _ _ ht.2
    exact
      { in_switch := fun _ _ _ _ h => nomatch h
        in_switchWait := fun _ _ _ _ h => nomatch h
        in_write := fun _ _ _ _ h => nomatch h
        in_writeWait := by intro _ _ k due h; cases h; exact ⟨hk, ht1, ofNat_eq_add_later _ hnow⟩
        measured := inv.measured }
  | calWriteWait _ _ k =>
    obtain ⟨hk, ht1, hnow⟩ := inv.in_writeWait _ _ _ _ ht.2
    have hcost : (k + 1) * writeCost s.par = k * writeCost s.par + s.par.priLatWrite + s.par.calLoopOvh := by
      rw [Nat.succ_mul, writeCost, Nat.add_assoc]
    exact
      { in_switch := fun _ _ _ _ h => nomatch h
        in_switchWait := fun _ _ _ _ h => nomatch h
        in_write := by
          intro _ _ k due h
          cases h
          exact ⟨hk, ht1, by rw [State.withPri_par, hcost]; exact ofNat_eq_add_later _ hnow⟩
        in_writeWait := fun _ _ _ _ h => nomatch h
        measured := inv.measured }
  | calOk _ _ k sw wr hk hsw hwr | calFails _ _ k sw wr hk hsw hwr =>
    obtain ⟨hswitch, hwrite⟩ := inv.quotients hlegal hfits ht hk
    exact .of_outside (fun _ _ _ _ h => nomatch h) (fun _ => ⟨hsw.trans hswitch, hwr.trans hwrite⟩)
  | startInit => exact .of_outside (by intro _ _ q due h; cases h; rfl) inv.measured
  | _ => exact .of_outside (fun _ _ _ _ h => nomatch h) inv.measured

theorem CalInv.write {s : State} {u : PriUnit} (inv : CalInv s) (h : PriWrite s.t s.pri u) :
    CalInv (s.withPri u) := by
  cases h with
  | registers => exact inv.congr rfl rfl rfl rfl rfl rfl rfl
  | accept c =>
    refine .of_outside (fun _ _ _ _ h => nomatch h) fun hready => inv.measured ?_
    by_cases hi : c = .init
    · simp [hi] at hready
    · simpa [hi] using hready
  | cfg => exact ⟨inv.in_switch, inv.in_switchWait, inv.in_write, inv.in_writeWait, fun h => nomatch h⟩

theorem CalInv.step {s s' : State} (hlegal : s.par.Legal) (hfits : calFits s.par) (inv : CalInv s)
    (e : step s = .next s') : CalInv s' := by
  have hpar := step_par e
  cases step_priMove e with
  | kept h | pads _ h => refine inv.congr hpar ?_ ?_ ?_ ?_ ?_ ?_ <;> rw [h]
  | stmt c sk p ht hs h => rw [hs]; exact inv.stmt hlegal hfits ht h
  | host _ _ _ _ _ h => exact (inv.write h).congr hpar rfl rfl rfl rfl rfl rfl

end Sys2Proof.Machine

namespace Sys2Proof.Proofs

open Sys2Proof Sys2Proof.Machine

/-- Settles O14: each statement of INIT takes the timer on by its latency, and the end of INIT divides the elapsed
readings by the counts. -/
theorem calibrationMeasured : Obligations.CalibrationMeasured :=
  fun _ _ hlegal hfits inv e => inv.step hlegal hfits e

end Sys2Proof.Proofs
end

section
/-! PROOFS. What of the PRI unit only certain statements change: PRESENCE, RXDATA and the sequencer itself
(spec/41_pri_controller.md R128, R130, R132, R133). -/

namespace Sys2Proof.Machine

/-- R132: PRESENCE is written by the sample of a reset phase alone. -/
theorem PriStmt.presence {s : State} {c : PriCmd} {sk : Bool} {p : PriPoint} {u : PriUnit}
    (h : PriStmt s c sk p u) :
    u.presence = s.pri.presence ∨ p = .rst .sample ∧ u.presence = decide (s.line = .low) := by
  cases h with
  | rstSample => exact .inr ⟨rfl, rfl⟩
  | _ => exact .inl rfl

theorem PriWrite.presence {t : Nat} {u v : PriUnit} (h : PriWrite t u v) : v.presence = u.presence := by
  cases h <;> rfl

/-- R128, R133: RXDATA is written as a READ ends, with the packet or the sentinel. -/
theorem PriStmt.rxData {s : State} {c : PriCmd} {sk : Bool} {p : PriPoint} {u : PriUnit} (h : PriStmt s c sk p u) :
    u.rxData = s.pri.rxData ∨ u.seq = .idle ∧ u.done = true ∧
      ((c = .read ∧ s.pri.presence = false ∧ u.rxData = 0xFFFFFFFF#32) ∨
        ∃ i, p = .rd i .head ∧ s.pri.cfg.s2p ≤ i ∧ u.rxData = s.pri.rxAcc) := by
  cases h with
  | rstSentinel _ hp => exact .inr ⟨rfl, rfl, .inl ⟨rfl, hp, rfl⟩⟩
  | rdEnd _ _ i hi => exact .inr ⟨rfl, rfl, .inr ⟨i, rfl, hi, rfl⟩⟩
  | _ => exact .inl rfl

theorem PriWrite.rxData {t : Nat} {u v : PriUnit} (h : PriWrite t u v) : v.rxData = u.rxData := by
  cases h <;> rfl

/-- R130: while a command runs, nothing but its own statement moves it. -/
theorem PriMove.seq_of_waiting {s s' : State} {c : PriCmd} {sk : Bool} {p : PriPoint} {due : Nat} (inv : PriInv s)
    (hseq : s.pri.seq = .running c sk p due) (hwait : ¬(s.phase = .pri ∧ due = s.t)) (h : PriMove s s') :
    s'.pri.seq = s.pri.seq := by
  cases h with
  | kept h | pads _ h => rw [h]
  | stmt c' sk' p' ht =>
    rw [ht.2] at hseq
    cases hseq
    exact absurd ⟨ht.1, rfl⟩ hwait
  | host _ _ _ _ _ h =>
    obtain ⟨_, _, _, _, _, _, h⟩ := h.of_running inv (by rw [hseq]; simp)
    rw [h]

end Sys2Proof.Machine

namespace Sys2Proof.Proofs

open Sys2Proof Sys2Proof.Machine

/-- Settles O48: of a step's moves only the statement at the sample writes PRESENCE. -/
theorem presenceOnlyAtSample : Obligations.PresenceOnlyAtSample := by
  intro s s' e hne
  cases step_priMove e with
  | kept h | pads _ h => rw [h] at hne; exact absurd rfl hne
  | host _ _ _ _ _ h => exact absurd h.presence hne
  | stmt c sk p ht _ h =>
    rcases h.presence with hkept | ⟨rfl, hsample⟩
    · exact absurd hkept hne
    · exact ⟨⟨c, sk, ht⟩, by rw [hsample, decide_eq_true_eq]⟩

/-- Settles O49: RXDATA is the sentinel of a READ without presence, or the accumulator, whose bits above the slots
filled are 0 by the invariant. -/
theorem rxDataOnlyAtReadEnd : Obligations.RxDataOnlyAtReadEnd := by
  intro s s' inv e hne
  cases step_priMove e with
  | kept h | pads _ h => rw [h] at hne; exact absurd rfl hne
  | host _ _ _ _ _ h => exact absurd h.rxData hne
  | stmt c sk p ht _ h =>
    rcases h.rxData with hkept | ⟨hidle, hdone, ⟨rfl, hp, hrx⟩ | ⟨i, rfl, hi, hrx⟩⟩
    · exact absurd hkept hne
    · exact ⟨⟨sk, p, ht⟩, hidle, hdone, .inl ⟨hrx, hp⟩⟩
    · obtain ⟨rfl, hle, -⟩ := inv.point_ok _ _ _ _ ht.2
      refine ⟨⟨sk, _, ht⟩, hidle, hdone, .inr fun k hk => ?_⟩
      rw [hrx]
      exact inv.rxAcc_above _ _ _ ht.2 (by simp) k (Nat.le_trans hle hk)

end Sys2Proof.Proofs
end

section
/-! PROOFS. The SEC unit: what its commands, its handler cases and the statements of its branches leave
(spec/42_sec_classifier.md R163 to R165; spec/43_sec_response.md R181 to R188, R195, R196). -/

namespace Sys2Proof.Machine

/-! The write-bit branch, one equation for each case. -/

theorem exec_bitEvent (b : Bool) (s : State) : exec (bitEvent b) s = .next (receiveBit b s) := by
  cases b <;> rfl

theorem deliver_of_room {s : State} (h : s.sec.rxFifo.length < s.par.rxFifoDepth) :
    deliver s = s.withSec { s.sec with rxFifo := s.sec.rxFifo ++ [s.sec.acc] } := if_pos h

theorem deliver_of_full {s : State} (h : s.par.rxFifoDepth ≤ s.sec.rxFifo.length) :
    deliver s = s.withSec { s.sec with rxOvf := true } := if_neg (Nat.not_lt.mpr h)

/-- R181: a bit that does not complete the packet. -/
theorem receiveBit_within (b : Bool) {s : State} (h : s.sec.bitIndex + 1 < s.sec.cfg.p2s) :
    receiveBit b s = clearPending (takeBit b s) := by
  rcases receiveBit_cases b s with ⟨-, e⟩ | ⟨hi, -⟩ | ⟨hi, -⟩
  · exact e
  · omega
  · omega

/-- R181, R182: the bit that completes the packet. -/
theorem receiveBit_completes (b : Bool) {s : State} (h : s.sec.bitIndex + 1 = s.sec.cfg.p2s) :
    receiveBit b s = clearPending (deliver (takeBit b s)) := by
  rcases receiveBit_cases b s with ⟨hi, -⟩ | ⟨-, e⟩ | ⟨hi, -⟩
  · omega
  · exact e
  · omega

/-- R181: a bit beyond the packet. -/
theorem receiveBit_beyond (b : Bool) {s : State} (h : s.sec.cfg.p2s ≤ s.sec.bitIndex) :
    receiveBit b s = clearPending s := by
  rcases receiveBit_cases b s with ⟨hi, -⟩ | ⟨hi, -⟩ | ⟨-, e⟩
  · omega
  · omega
  · exact e

/-! The read branch, one equation for each case. -/

theorem startReply_within {s : State} (h : s.sec.bitIndex < s.sec.cfg.s2p) :
    startReply s = secSetDirection .output .read
      (.drive (packetLevel (snapshotSendBuf s).sec.sendBuf s.sec.bitIndex)) (snapshotSendBuf s) := by
  rcases startReply_cases s with ⟨-, e⟩ | ⟨hi, -⟩
  · exact e
  · omega

theorem startReply_beyond {s : State} (h : s.sec.cfg.s2p ≤ s.sec.bitIndex) :
    startReply s = clearPending (snapshotSendBuf s) := by
  rcases startReply_cases s with ⟨hi, -⟩ | ⟨-, e⟩
  · omega
  · exact e

/-! BEGIN and the write of CFG, one equation for each case. -/

theorem execBegin_of_pending {s : State} (h : s.sec.pending = true) : execBegin s = .next (raiseSec .busy s) :=
  congrArg _ (if_pos h)

theorem execBegin_of_illegal {s : State} (h : s.sec.pending = false) (hc : s.sec.cfg.legal = false) :
    execBegin s = .next (raiseSec .cfg s) :=
  congrArg _ ((if_neg (Bool.eq_false_iff.mp h)).trans (if_pos hc))

theorem execBegin_of_legal {s : State} (h : s.sec.pending = false) (hc : s.sec.cfg.legal = true) :
    execBegin s = .next (acceptBegin s) :=
  congrArg _ ((if_neg (Bool.eq_false_iff.mp h)).trans (if_neg (by simp [hc])))

theorem writeSecCfg_of_pending (v : Word) {s : State} (h : s.sec.pending = true) :
    writeSecCfg v s = raiseSec .busy s := if_pos h

theorem writeSecCfg_of_free (v : Word) {s : State} (h : s.sec.pending = false) :
    writeSecCfg v s = s.withSec
      { s.sec with
        cfg := .ofWord v, active := false, irqLatch := false, isrDueAt := none, isrState := .idle
        prof := profile (CfgReg.ofWord v).slot } :=
  if_neg (Bool.eq_false_iff.mp h)

/-- R53: the time between two readings less than 2^32 apart, wrap or not. -/
theorem toNat_ofNat_sub_ofNat {t f : Nat} (hle : f ≤ t) (hlt : t - f < 2 ^ 32) :
    (BitVec.ofNat 32 t - BitVec.ofNat 32 f).toNat = t - f := by
  obtain ⟨d, rfl⟩ := Nat.exists_eq_add_of_le hle
  rw [BitVec.ofNat_add, add_sub_cancel_left, BitVec.toNat_ofNat, Nat.add_sub_cancel_left]
  exact Nat.mod_eq_of_lt (by omega)

end Sys2Proof.Machine

namespace Sys2Proof.Proofs

open Sys2Proof Sys2Proof.Machine

/-- Settles O15: BEGIN split by its two checks. -/
theorem beginCommand : Obligations.BeginCommand :=
  ⟨fun _ hp hc => execBegin_of_legal hp ((CfgReg.legal_iff _).mpr hc), fun _ hp => execBegin_of_pending hp,
    fun _ hp hc => execBegin_of_illegal hp ((CfgReg.legal_false _).mpr hc)⟩

/-- Settles O16: POP leaves the tail of the FIFO, which is the FIFO itself when it is empty. -/
theorem popRemovesOldest : Obligations.PopRemovesOldest := by
  constructor
  · intro s p rest hf
    simp only [exec, execPop, hf]
    rfl
  · intro s hf
    have hsame : { s.sec with rxFifo := s.sec.rxFifo.tail } = s.sec := by
      rw [hf, List.tail_nil, ← hf]
    simp only [exec, execPop, hsame]
    rfl

/-- Settles O17: the three handler cases as they are defined. -/
theorem edgeStartAndIgnoredEdges : Obligations.EdgeStartAndIgnoredEdges :=
  ⟨fun _ _ _ => rfl, fun _ => rfl, fun _ => rfl⟩

/-- Settles O18: the poll latency is the draw made at the entry, whatever the level. -/
theorem edgeEndPublishes : Obligations.EdgeEndPublishes := by
  intro s hlat
  obtain ⟨hlo, hhi⟩ := Config.drawIn_bounds s.par.pollLatMin s.par.pollLatMax s.draws hlat
  refine ⟨_, hlo, hhi, fun lv => rfl, fun f hstart hle hlt => ?_⟩
  rw [hstart]
  exact toNat_ofNat_sub_ofNat hle hlt

/-- Settles O23: the bit is taken within the packet, taken and delivered at its end, or dropped beyond it. -/
theorem writeBitEvents : Obligations.WriteBitEvents := by
  intro s b
  rw [exec_bitEvent]
  refine ⟨fun hi => ?within, fun hi hroom => ?delivered, fun hi hfull => ?overflow, fun hi => ?beyond⟩
  case within => rw [receiveBit_within b hi]; rfl
  case delivered => rw [receiveBit_completes b hi, deliver_of_room (s := takeBit b s) hroom]; rfl
  case overflow => rw [receiveBit_completes b hi, deliver_of_full (s := takeBit b s) hfull]; rfl
  case beyond => rw [receiveBit_beyond b hi]

/-- Settles O24: the snapshot first, then the two cases of the position. -/
theorem readEvent : Obligations.ReadEvent := by
  rintro s buf rfl
  refine ⟨fun hi => ?_, fun hi => ?_⟩
  · refine congrArg _ ((startReply_within hi).trans ?_)
    rw [snapshotSendBuf_eq]
    rfl
  · refine congrArg _ ((startReply_beyond hi).trans ?_)
    rw [snapshotSendBuf_eq]
    rfl

/-- Settles O25: the branch's first statement is the switch to output. -/
theorem resetEvent : Obligations.ResetEvent := fun _ => rfl

/-- Settles O26: each step of a driving branch is the statement at its point. -/
theorem responseStatements : Obligations.ResponseStatements :=
  ⟨fun _ _ _ h => h.step_eq (by simp), fun _ h => h.step_eq (by simp), fun _ h => h.step_eq (by simp),
    fun _ _ h => h.step_eq (by simp), fun _ h => h.step_eq (by simp), fun _ h => h.step_eq (by simp)⟩

/-- Settles O27: the clear, with or without a deferred request. -/
theorem clearLast : Obligations.ClearLast := by
  intro s
  rcases clearPending_cases s with ⟨hn, e⟩ | ⟨hg, hl, e⟩
  · exact ⟨fun _ => e, fun hg hl => absurd ⟨hg, hl⟩ hn⟩
  · refine ⟨fun hn => absurd ⟨hg, hl⟩ hn, fun _ _ hlat => ?_⟩
    obtain ⟨hlo, hhi⟩ := Config.drawIn_bounds s.par.isrLatMin s.par.isrLatMax s.draws hlat
    exact ⟨_, hlo, hhi, e⟩

end Sys2Proof.Proofs
end

section
/-! PROOFS. What one step can do to the SEC unit: nothing, its pad's effect, the edge latch, a handler entry, the poll,
one statement of a branch, or a write of a register of its bank. -/

namespace Sys2Proof.Machine

/-- The entry due after the clear of the flag (R188): the one that was, or, with the source disabled, a later one for
the request latched meanwhile (R167). -/
inductive EntryAfterClear (s : State) : Option Nat → Prop
  | same (h : ¬(s.par.guardMode = .sourceDisable ∧ s.sec.irqLatch = true)) : EntryAfterClear s s.sec.isrDueAt
  | deferred (hg : s.par.guardMode = .sourceDisable) (hl : s.sec.irqLatch = true) (due : Nat) (hd : s.t < due) :
      EntryAfterClear s (some due)

/-- What the statement at a point of a branch leaves of the SEC unit: one constructor for each statement, with the
guard under which the pseudocode comes to it. -/
inductive SecStmt (s : State) : EvtClass → SecPoint → SecUnit → Prop
  | bitTaken (b : EvtClass) (v : Bool) (o : Option Nat) (hb : b = .bit1 ∨ b = .bit0)
      (hi : s.sec.bitIndex + 1 < s.sec.cfg.p2s) (ho : EntryAfterClear s o) : SecStmt s b .start
      { s.sec with
        acc := s.sec.acc ||| (if v then (1#32) <<< s.sec.bitIndex else 0#32), bitIndex := s.sec.bitIndex + 1
        pending := false, resp := .idle, isrDueAt := o }
  | bitDelivered (b : EvtClass) (v : Bool) (o : Option Nat) (packet : Word) (hb : b = .bit1 ∨ b = .bit0)
      (hi : s.sec.bitIndex + 1 = s.sec.cfg.p2s) (hf : s.sec.rxFifo.length < s.par.rxFifoDepth)
      (ho : EntryAfterClear s o) : SecStmt s b .start
      { s.sec with
        acc := s.sec.acc ||| (if v then (1#32) <<< s.sec.bitIndex else 0#32), bitIndex := s.sec.bitIndex + 1
        rxFifo := s.sec.rxFifo ++ [packet], pending := false, resp := .idle, isrDueAt := o }
  | bitOverflow (b : EvtClass) (v : Bool) (o : Option Nat) (hb : b = .bit1 ∨ b = .bit0)
      (hi : s.sec.bitIndex + 1 = s.sec.cfg.p2s) (ho : EntryAfterClear s o) : SecStmt s b .start
      { s.sec with
        acc := s.sec.acc ||| (if v then (1#32) <<< s.sec.bitIndex else 0#32), bitIndex := s.sec.bitIndex + 1
        rxOvf := true, pending := false, resp := .idle, isrDueAt := o }
  | bitDropped (b : EvtClass) (o : Option Nat) (hb : b = .bit1 ∨ b = .bit0)
      (hi : s.sec.cfg.p2s ≤ s.sec.bitIndex) (ho : EntryAfterClear s o) : SecStmt s b .start
      { s.sec with pending := false, resp := .idle, isrDueAt := o }
  | replyStarts (buf : Word) (v : Level) (hi : s.sec.bitIndex < s.sec.cfg.s2p) : SecStmt s .read .start
      { s.sec with
        sendBuf := buf, padDue := some ⟨.setDirection .output, s.t + s.par.secLatSwitch⟩
        resp := .responding .read (.drive v) (s.t + s.par.secLatSwitch) }
  | replyBeyond (buf : Word) (o : Option Nat) (hi : s.sec.cfg.s2p ≤ s.sec.bitIndex) (ho : EntryAfterClear s o) :
      SecStmt s .read .start { s.sec with sendBuf := buf, pending := false, resp := .idle, isrDueAt := o }
  | presenceStarts : SecStmt s .reset .start
      { s.sec with
        padDue := some ⟨.setDirection .output, s.t + s.par.secLatSwitch⟩
        resp := .responding .reset (.drive .low) (s.t + s.par.secLatSwitch) }
  | drive (b : EvtClass) (v : Level) : SecStmt s b (.drive v)
      { s.sec with
        padDue := some ⟨.writeLevel v, s.t + s.par.secLatWrite⟩
        resp := .responding b .hold (s.t + s.par.secLatWrite) }
  | hold (b : EvtClass) : SecStmt s b .hold
      { s.sec with resp := .responding b .release (s.t + s.sec.prof.secHold b) }
  | release (b : EvtClass) : SecStmt s b .release
      { s.sec with
        padDue := some ⟨.setDirection .input, s.t + s.par.secLatSwitch⟩
        resp := .responding b .finish (s.t + s.par.secLatSwitch) }
  | finishBit (b : EvtClass) (o : Option Nat) (hb : b = .bit1 ∨ b = .bit0) (ho : EntryAfterClear s o) :
      SecStmt s b .finish { s.sec with pending := false, resp := .idle, isrDueAt := o }
  | finishRead (o : Option Nat) (ho : EntryAfterClear s o) : SecStmt s .read .finish
      { s.sec with bitIndex := s.sec.bitIndex + 1, pending := false, resp := .idle, isrDueAt := o }
  | finishReset (o : Option Nat) (ho : EntryAfterClear s o) : SecStmt s .reset .finish
      { s.sec with bitIndex := 0, acc := 0#32, pending := false, resp := .idle, isrDueAt := o }

/-- What the write of `v` to the register at `off` of bank S can leave of the unit: registers and a FIFO not longer
than it was, an accepted configuration (R36), or an accepted BEGIN (R195). -/
inductive SecWrite (off : Nat) (v : Word) (u : SecUnit) : SecUnit → Prop
  | registers (rxOvf err rxIe ovfIe errIe : Bool) (lastErr : ErrCode) (txNext : Word) (fifo : List Word)
      (hf : fifo.length ≤ u.rxFifo.length) : SecWrite off v u
      { u with
        rxOvf := rxOvf, err := err, lastErr := lastErr, txNext := txNext, rxIe := rxIe, ovfIe := ovfIe
        errIe := errIe, rxFifo := fifo }
  | cfg (cfg : CfgReg) (hp : u.pending = false) : SecWrite off v u
      { u with
        cfg := cfg, active := false, irqLatch := false, isrDueAt := none, isrState := .idle
        prof := profile cfg.slot }
  | begins (hoff : off = 0x00) (hd : decodeSec v = .ok .secBegin) (hp : u.pending = false)
      (hc : u.cfg.legal = true) : SecWrite off v u
      { u with
        isrState := .idle, irqLatch := false, isrDueAt := none, bitIndex := 0, acc := 0#32, sendBuf := 0#32
        rxFifo := [], rxOvf := false, active := true }

/-- Everything a step from `s` to `s'` can do to the SEC unit. -/
inductive SecMove (s s' : State) : Prop
  | kept (h : s'.sec = s.sec)
  | pads (hsp : s.par.secPresent = true) (hph : s.phase = .pads)
      (h : s'.sec =
        { s.sec with pad := padAfter s.t s.sec.pad s.sec.padDue, padDue := dueAfter s.t s.sec.padDue })
  | schedules (due : Nat) (hsp : s.par.secPresent = true) (hph : s.phase = .line) (ha : s.sec.active = true)
      (hg : s.par.guardMode = .entryGuard ∨ s.sec.pending = false) (hd : s.t ≤ due)
      (h : s'.sec = { s.sec with irqLatch := true, isrDueAt := some due })
  | defers (hsp : s.par.secPresent = true) (hph : s.phase = .line) (ha : s.sec.active = true)
      (hg : s.par.guardMode = .sourceDisable) (hp : s.sec.pending = true)
      (h : s'.sec = { s.sec with irqLatch := true, isrDueAt := none })
  | ignores (hsp : s.par.secPresent = true) (hph : s.phase = .handler) (hdue : s.sec.isrDueAt = some s.t)
      (h : s'.sec = { s.sec with irqLatch := false, isrDueAt := none })
  | pulseStarts (hsp : s.par.secPresent = true) (hph : s.phase = .handler) (hdue : s.sec.isrDueAt = some s.t)
      (hp : s.sec.pending = false)
      (h : s'.sec =
        { s.sec with irqLatch := false, isrDueAt := none, start := BitVec.ofNat 32 s.t, isrState := .timing })
  | pulseEnds (poll : Nat) (hsp : s.par.secPresent = true) (hph : s.phase = .handler)
      (hdue : s.sec.isrDueAt = some s.t) (hp : s.sec.pending = false) (hi : s.sec.isrState = .timing)
      (hd : s.t ≤ poll)
      (h : s'.sec =
        { s.sec with
          irqLatch := false, isrDueAt := none, duration := BitVec.ofNat 32 s.t - s.sec.start, pending := true
          pendSetAt := s.t, isrState := .idle, pollAt := poll })
  | polls (hsp : s.par.secPresent = true) (hph : s.phase = .sec) (hr : s.sec.resp = .idle)
      (hp : s.sec.pending = true) (hpoll : s.sec.pollAt = s.t)
      (h : s'.sec = { s.sec with resp := .responding (classify s.sec.prof s.sec.duration) .start s.t })
  | stmt (b : EvtClass) (p : SecPoint) (ht : SecTurn s b p) (h : SecStmt s b p s'.sec)
  | host (tgt : Target) (v : Word) (rest : List Access) (off : Nat)
      (ht : HostTurn s (.wr tgt .w32 v) rest .S off) (h : SecWrite off v s.sec s'.sec)

/-! The line phase and the handler. -/

theorem line_secMove {s s' : State} (hph : s.phase = .line) (e : s' = linePhase s) : SecMove s s' := by
  obtain ⟨-, hsec, hpar, ht, -⟩ := resolveLine_frame s
  subst e
  have hphase := linePhase_sec s
  split at hphase
  case isFalse => exact .kept hphase
  case isTrue hedge =>
    rcases edgeLatch_cases (resolveLine s) with ⟨-, e⟩ | ⟨ha, hl, hg, e⟩ | ⟨ha, hl, hg, hp, e⟩ <;>
      rw [e] at hphase <;> rw [hsec] at *
    · exact .kept hphase
    · rw [hpar] at hg
      simp only [State.afterDraw_sec, State.withSec_sec, ht] at hphase
      exact .schedules _ hedge.1 hph ha hg (Nat.le_add_right _ _) hphase
    · rw [hpar] at hg
      exact .defers hedge.1 hph ha hg hp hphase

theorem handler_secMove {s s' : State} (hph : s.phase = .handler) (e : handlerPhase s = .next s') :
    SecMove s s' := by
  rcases handlerPhase_cases s with ⟨-, h⟩ | ⟨hsp, hdue, h⟩ <;> rw [h] at e
  · cases e; exact .kept rfl
  · cases hp : s.sec.pending with
    | true => rw [hp] at e; cases e; exact .ignores hsp hph hdue rfl
    | false =>
      cases hi : s.sec.isrState with
      | timing => rw [hp, hi] at e; cases e; exact .pulseEnds _ hsp hph hdue hp hi (Nat.le_add_right _ _) rfl
      | idle =>
        cases hl : s.line with
        | low => rw [hp, hi, hl] at e; cases e; exact .pulseStarts hsp hph hdue hp rfl
        | high => rw [hp, hi, hl] at e; cases e; exact .ignores hsp hph hdue rfl

/-! The SEC main loop. -/

theorem clearPending_entry (s : State) :
    ∃ o, EntryAfterClear s o ∧ (clearPending s).sec = { s.sec with pending := false, resp := .idle, isrDueAt := o } := by
  rcases clearPending_cases s with ⟨hn, e⟩ | ⟨hg, hl, e⟩ <;> rw [e]
  · exact ⟨_, .same hn, rfl⟩
  · exact ⟨_, .deferred hg hl _ (by omega), rfl⟩

/-- The entry after the clear depends on the request, the timer and the guard mode alone. -/
theorem EntryAfterClear.congr {s r : State} {o : Option Nat} (h : EntryAfterClear r o) (hpar : r.par = s.par)
    (ht : r.t = s.t) (hl : r.sec.irqLatch = s.sec.irqLatch) (hdue : r.sec.isrDueAt = s.sec.isrDueAt) :
    EntryAfterClear s o := by
  cases h with
  | same h => rw [hpar, hl] at h; rw [hdue]; exact .same h
  | deferred hg hl' due hd => rw [hpar] at hg; rw [hl] at hl'; rw [ht] at hd; exact .deferred hg hl' due hd

/-- A statement that ends with the clear, after an update of the unit's packet fields. -/
theorem SecStmt.of_clear {s : State} {b : EvtClass} {p : SecPoint} {u : SecUnit} (hl : u.irqLatch = s.sec.irqLatch)
    (hdue : u.isrDueAt = s.sec.isrDueAt)
    (h : ∀ o, EntryAfterClear s o → SecStmt s b p { u with pending := false, resp := .idle, isrDueAt := o }) :
    SecStmt s b p (clearPending (s.withSec u)).sec := by
  obtain ⟨o, ho, e⟩ := clearPending_entry (s.withSec u)
  rw [e]
  exact h o (ho.congr rfl rfl hl hdue)

theorem receiveBit_stmt (v : Bool) {b : EvtClass} (hb : b = .bit1 ∨ b = .bit0) (s : State) :
    SecStmt s b .start (receiveBit v s).sec := by
  rcases Nat.lt_trichotomy (s.sec.bitIndex + 1) s.sec.cfg.p2s with hi | hi | hi
  · rw [receiveBit_within v hi]
    exact .of_clear rfl rfl fun o ho => .bitTaken b v o hb hi ho
  · rw [receiveBit_completes v hi]
    rcases deliver_cases (takeBit v s) with ⟨hf, e⟩ | ⟨-, e⟩ <;> rw [e]
    · exact .of_clear rfl rfl fun o ho => .bitDelivered b v o _ hb hi hf ho
    · exact .of_clear rfl rfl fun o ho => .bitOverflow b v o hb hi ho
  · rw [receiveBit_beyond v (by omega)]
    exact .of_clear rfl rfl fun o ho => .bitDropped b o hb (by omega) ho

theorem startReply_stmt (s : State) : SecStmt s .read .start (startReply s).sec := by
  rcases Nat.lt_or_ge s.sec.bitIndex s.sec.cfg.s2p with hi | hi
  · rw [startReply_within hi, snapshotSendBuf_eq]
    exact .replyStarts _ _ hi
  · rw [startReply_beyond hi, snapshotSendBuf_eq]
    exact .of_clear rfl rfl fun o ho => .replyBeyond _ o hi ho

theorem exec_evt_stmt {b : EvtClass} {s s' : State} (e : exec (decodeEvt b.code) s = .next s') :
    SecStmt s b .start s'.sec := by
  rw [exec_evt] at e
  cases b <;> cases e
  case bit1 => exact receiveBit_stmt true (.inl rfl) s
  case bit0 => exact receiveBit_stmt false (.inr rfl) s
  case read => exact startReply_stmt s
  case reset => exact .presenceStarts

theorem finishBranch_stmt (b : EvtClass) (s : State) : SecStmt s b .finish (finishBranch b s).sec := by
  cases b with
  | bit1 => exact .of_clear rfl rfl fun o ho => .finishBit .bit1 o (.inl rfl) ho
  | bit0 => exact .of_clear rfl rfl fun o ho => .finishBit .bit0 o (.inr rfl) ho
  | read => exact .of_clear rfl rfl fun o ho => .finishRead o ho
  | reset => exact .of_clear rfl rfl fun o ho => .finishReset o ho

theorem secAct_stmt {b : EvtClass} {p : SecPoint} (hp : p ≠ .start) (s : State) :
    SecStmt s b p (secAct b p s).sec := by
  cases p with
  | start => exact absurd rfl hp
  | drive v => exact .drive b v
  | hold => exact .hold b
  | release => exact .release b
  | finish => exact finishBranch_stmt b s

theorem sec_secMove {s s' : State} (hph : s.phase = .sec) (e : secPhase s = .next s') : SecMove s s' := by
  rcases secPhase_cases s with ⟨h, -⟩ | ⟨hsp, hr, hp, hpoll, h⟩ | ⟨b, hsp, hr, h⟩ | ⟨b, p, hsp, hne, hr, h⟩ <;>
    rw [h] at e
  · cases e; exact .kept rfl
  · cases e; exact .polls hsp hph hr hp hpoll rfl
  · exact .stmt b .start ⟨hph, hsp, hr⟩ (exec_evt_stmt e)
  · cases e; exact .stmt b p ⟨hph, hsp, hr⟩ (secAct_stmt hne s)

/-! The host. -/

theorem raiseSec_write (off : Nat) (v : Word) (e : ErrCode) (s : State) :
    SecWrite off v s.sec (raiseSec e s).sec :=
  .registers s.sec.rxOvf true s.sec.rxIe s.sec.ovfIe s.sec.errIe e s.sec.txNext s.sec.rxFifo (Nat.le_refl _)

theorem writeSec_write (off : Nat) (r : SecReg) (v : Word) (s : State) :
    SecWrite off v s.sec (writeSec r v s).sec := by
  cases r with
  | cfg =>
    cases hp : s.sec.pending with
    | true => rw [writeSec, writeSecCfg_of_pending v hp]; exact raiseSec_write off v .busy s
    | false => rw [writeSec, writeSecCfg_of_free v hp]; exact .cfg (.ofWord v) hp
  | _ => exact .registers _ _ _ _ _ _ _ _ (Nat.le_refl _)

theorem exec_decodeSec_write {off : Nat} {v : Word} {i : Instr} {s s' : State} (hoff : off = 0x00)
    (hd : decodeSec v = .ok i) (e : exec i s = .next s') : SecWrite off v s.sec s'.sec := by
  rcases decodeSec_ok hd with rfl | rfl
  · cases hp : s.sec.pending with
    | true => rw [exec, execBegin_of_pending hp] at e; cases e; exact raiseSec_write off v .busy s
    | false =>
      cases hc : s.sec.cfg.legal with
      | true => rw [exec, execBegin_of_legal hp hc] at e; cases e; exact .begins hoff hd hp hc
      | false => rw [exec, execBegin_of_illegal hp hc] at e; cases e; exact raiseSec_write off v .cfg s
  · cases e
    exact .registers _ _ _ _ _ _ _ _ (by simp)

/-- CMD stands at offset 0 of bank S and nowhere else (R61). -/
theorem secRegAt_eq_cmd {off : Nat} (h : secRegAt off = .cmd) : off = 0x00 := by
  unfold secRegAt at h
  split at h <;> cases h
  rfl

theorem regWrite_sec_cases {bank : Bank} {off : Nat} {v : Word} {s s' : State}
    (e : regWrite bank off v s = .next s') : s'.sec = s.sec ∨ bank = .S ∧ SecWrite off v s.sec s'.sec := by
  rcases regWrite_next e with ⟨-, -, ⟨i, hd, h⟩ | ⟨-, rfl⟩⟩ | ⟨-, -, rfl⟩ | ⟨rfl, hcmd, ⟨i, hd, h⟩ | ⟨-, rfl⟩⟩ |
    ⟨rfl, -, rfl⟩
  · obtain ⟨c, sk, -, rfl⟩ := exec_of_decodePri hd h
    exact .inl (by rw [priCommand_pri]; rfl)
  · exact .inl rfl
  · exact .inl (by rw [writePri_pri]; rfl)
  · exact .inr ⟨rfl, exec_decodeSec_write (secRegAt_eq_cmd hcmd) hd h⟩
  · exact .inr ⟨rfl, raiseSec_write off v .illegal s⟩
  · exact .inr ⟨rfl, writeSec_write off (secRegAt off) v s⟩

theorem HostTurn.secMove {s s' : State} {a : Access} {rest : List Access} {bank : Bank} {off : Nat}
    (h : HostTurn s a rest bank off) (e : step s = .next s') : SecMove s s' := by
  rcases h.keepsUnits_or_writes e with ⟨-, hsec⟩ | ⟨tgt, v, rfl, hw⟩
  · exact .kept hsec
  · rcases regWrite_sec_cases hw with hsec | ⟨rfl, hsec⟩
    · exact .kept hsec
    · exact .host tgt v rest off h hsec

/-- The inversion of a step for the SEC unit. -/
theorem step_secMove {s s' : State} (e : step s = .next s') : SecMove s s' := by
  rcases step_next_cases e with ⟨hp, rfl⟩ | ⟨hp, h⟩ | ⟨hp, h⟩ | ⟨hp, h⟩ | ⟨hp, -⟩ | ⟨-, -, rfl⟩ |
    ⟨hp, a, rest, hb, -⟩
  · obtain ⟨-, hsec, -⟩ := padsPhase_frame s
    split at hsec
    · exact .pads ‹_› hp hsec
    · exact .kept hsec
  · exact line_secMove hp h
  · exact handler_secMove hp h
  · exact sec_secMove hp h
  · rcases pri_step_cases hp e with ⟨rfl, -⟩ | ⟨c, sk, p, -, rfl⟩
    · exact .kept rfl
    · exact .kept (by rw [priAct_pri]; rfl)
  · exact .kept rfl
  · obtain ⟨bank, off, ht⟩ := HostTurn.of_step hp hb e
    exact ht.secMove e

end Sys2Proof.Machine
end

section
/-! PROOFS. The invariant of the SEC unit: every statement of a branch, every handler entry, the edge latch and every
accepted write keeps it (spec/10_state.md R56, R57, R48; spec/43_sec_response.md R189, R195). -/

namespace Sys2Proof.Machine

/-- The invariant reads none of the pad, the mailbox's times and data, the flags, the send data and the enables. -/
theorem SecInv.congr {s r : State} {pad : Pad} {padDue : Option PadDue} {rxOvf err rxIe ovfIe errIe : Bool}
    {lastErr : ErrCode} {txNext : Word} {fifo : List Word} (inv : SecInv s) (hpar : r.par = s.par)
    (hf : fifo.length ≤ s.sec.rxFifo.length)
    (hsec : r.sec = { s.sec with
      pad := pad, padDue := padDue, rxOvf := rxOvf, err := err, lastErr := lastErr, txNext := txNext, rxIe := rxIe
      ovfIe := ovfIe, errIe := errIe, rxFifo := fifo }) : SecInv r := by
  obtain ⟨hpi, hquiet, hpa, hal, hrp, hdl, hsd, hld, hreply, hdrives, hle, habove, hfifo, hprof⟩ := inv
  cases r
  simp only at hpar hsec
  subst hpar hsec
  exact ⟨hpi, hquiet, hpa, hal, hrp, hdl, hsd, hld, hreply, hdrives, hle, habove, Nat.le_trans hf hfifo, hprof⟩

/-- R189: the unit that answers an event is ACTIVE and legally configured, so no width exceeds 32. -/
theorem SecInv.of_responding {s : State} (inv : SecInv s) (h : s.sec.resp ≠ .idle) :
    s.sec.pending = true ∧ s.sec.cfg.p2s ≤ 32 ∧ s.sec.cfg.s2p ≤ 32 := by
  have hp := inv.responding_pending h
  obtain ⟨-, -, hp2s, -, hs2p⟩ := (CfgReg.legal_iff _).mp (inv.active_legal (inv.pending_active hp))
  exact ⟨hp, hp2s, hs2p⟩

/-- R189: with no event pending no branch runs. -/
theorem SecInv.idle_of_free {s : State} (inv : SecInv s) (h : s.sec.pending = false) : s.sec.resp = .idle := by
  by_contra hn
  rw [inv.responding_pending hn] at h
  cases h

/-- An entry that is due is one of an ACTIVE unit. -/
theorem SecInv.active_of_due {s : State} {due : Nat} (inv : SecInv s) (h : s.sec.isrDueAt = some due) :
    s.sec.active = true := by
  cases ha : s.sec.active with
  | true => rfl
  | false =>
    obtain ⟨-, -, hnone⟩ := inv.inactive_quiet ha
    rw [hnone] at h
    cases h

/-- A statement that leads to another one keeps the invariant. -/
theorem SecInv.goesOn {s : State} {b : EvtClass} {p : SecPoint} {due : Nat} {buf : Word} {padDue : Option PadDue}
    (inv : SecInv s) (hp : s.sec.pending = true) (hread : p ≠ .start → b = .read → s.sec.bitIndex < s.sec.cfg.s2p)
    (hdrives : p ≠ .start → b = .read ∨ b = .reset) :
    SecInv (s.withSec { s.sec with sendBuf := buf, padDue := padDue, resp := .responding b p due }) where
  pending_idle := inv.pending_idle
  inactive_quiet := inv.inactive_quiet
  pending_active := inv.pending_active
  active_legal := inv.active_legal
  responding_pending := fun _ => hp
  due_latched := inv.due_latched
  source_disabled := inv.source_disabled
  latched_due := inv.latched_due
  reply_in_width := by
    intro p' due' h hne
    cases h
    exact hread hne rfl
  branch_drives := by
    intro b' p' due' h hne
    cases h
    exact hdrives hne
  bitIndex_le := inv.bitIndex_le
  acc_above := inv.acc_above
  fifo_le := inv.fifo_le
  prof_eq := inv.prof_eq

/-- The end of a branch keeps the invariant when the packet's fields stay within their bounds. -/
theorem SecInv.clears {s : State} {o : Option Nat} {i : Nat} {acc buf : Word} {fifo : List Word} {rxOvf : Bool}
    (inv : SecInv s) (ho : EntryAfterClear s o) (hi : i ≤ 32) (hacc : ∀ k, i ≤ k → acc.getLsbD k = false)
    (hf : fifo.length ≤ s.par.rxFifoDepth) :
    SecInv (s.withSec { s.sec with
      acc := acc, bitIndex := i, sendBuf := buf, rxFifo := fifo, rxOvf := rxOvf
      pending := false, resp := .idle, isrDueAt := o }) where
  pending_idle := fun h => nomatch h
  inactive_quiet := by
    intro ha
    obtain ⟨hidle, hl, hdue⟩ := inv.inactive_quiet ha
    refine ⟨hidle, hl, ?_⟩
    cases ho with
    | same => exact hdue
    | deferred _ hl' => rw [hl] at hl'; cases hl'
  pending_active := fun h => nomatch h
  active_legal := inv.active_legal
  responding_pending := fun h => absurd rfl h
  due_latched := by
    intro hne
    cases ho with
    | same => exact inv.due_latched hne
    | deferred _ hl => exact hl
  source_disabled := fun _ h => nomatch h
  latched_due := by
    intro hl hnone
    cases ho with
    | same hn => exact absurd ⟨(inv.latched_due hl hnone).1, hl⟩ hn
    | deferred => cases hnone
  reply_in_width := fun _ _ h => nomatch h
  branch_drives := fun _ _ _ h => nomatch h
  bitIndex_le := hi
  acc_above := hacc
  fifo_le := hf
  prof_eq := inv.prof_eq

/-- A bit set at position `i` leaves the bits above it as they were. -/
theorem takenBit_above {w : Word} {i : Nat} (b : Bool) (h : ∀ k, i ≤ k → w.getLsbD k = false) (k : Nat)
    (hk : i + 1 ≤ k) : (w ||| (if b then (1#32) <<< i else 0#32)).getLsbD k = false := by
  rw [BitVec.getLsbD_or, h k (by omega), Bool.false_or]
  cases b with
  | false => exact BitVec.getLsbD_zero
  | true =>
    rw [if_pos rfl, BitVec.getLsbD_shiftLeft, BitVec.getLsbD_one]
    simp only [show ¬(k - i = 0) by omega, decide_false, Bool.and_false]

/-- Every statement of a branch keeps the invariant. -/
theorem SecInv.stmt {s : State} {b : EvtClass} {p : SecPoint} {u : SecUnit} (inv : SecInv s) (ht : SecTurn s b p)
    (h : SecStmt s b p u) : SecInv (s.withSec u) := by
  obtain ⟨-, -, hresp⟩ := ht
  obtain ⟨hp, hp2s, hs2p⟩ := inv.of_responding (by rw [hresp]; simp)
  have hread : p ≠ .start → b = .read → s.sec.bitIndex < s.sec.cfg.s2p := by
    rintro hne rfl
    exact inv.reply_in_width p _ hresp hne
  have hdrives : p ≠ .start → b = .read ∨ b = .reset := inv.branch_drives b p _ hresp
  cases h with
  | bitTaken _ v o _ hi ho => exact inv.clears ho (by omega) (takenBit_above v inv.acc_above) inv.fifo_le
  | bitDelivered _ v o packet _ hi hf ho =>
    exact inv.clears ho (by omega) (takenBit_above v inv.acc_above) (by simpa using hf)
  | bitOverflow _ v o _ hi ho => exact inv.clears ho (by omega) (takenBit_above v inv.acc_above) inv.fifo_le
  | bitDropped _ o _ _ ho | finishBit _ o _ ho => exact inv.clears ho inv.bitIndex_le inv.acc_above inv.fifo_le
  | replyBeyond buf o _ ho => exact inv.clears ho inv.bitIndex_le inv.acc_above inv.fifo_le
  | finishRead o ho =>
    have hlt := hread (by simp) rfl
    exact inv.clears ho (by omega) (fun k hk => inv.acc_above k (by omega)) inv.fifo_le
  | finishReset o ho => exact inv.clears ho (Nat.zero_le _) (fun _ _ => BitVec.getLsbD_zero) inv.fifo_le
  | replyStarts buf v hi => exact inv.goesOn hp (fun _ _ => hi) (fun _ => .inl rfl)
  | presenceStarts => exact inv.goesOn hp (fun _ h => nomatch h) (fun _ => .inr rfl)
  | drive | hold | release => exact inv.goesOn hp (fun _ => hread (by simp)) (fun _ => hdrives (by simp))

/-- Every write of a register of bank S keeps the invariant. -/
theorem SecInv.write {s : State} {off : Nat} {v : Word} {u : SecUnit} (inv : SecInv s)
    (h : SecWrite off v s.sec u) : SecInv (s.withSec u) := by
  cases h with
  | registers _ _ _ _ _ _ _ fifo hf => exact inv.congr rfl hf rfl
  | cfg cfg hp =>
    have hidle := inv.idle_of_free hp
    have hfree : ∀ {q : Prop}, s.sec.pending = true → q := fun h => by rw [hp] at h; cases h
    exact
      { pending_idle := fun _ => rfl
        inactive_quiet := fun _ => ⟨rfl, rfl, rfl⟩
        pending_active := hfree
        active_legal := fun h => nomatch h
        responding_pending := inv.responding_pending
        due_latched := fun h => absurd rfl h
        source_disabled := fun _ _ => rfl
        latched_due := fun h => nomatch h
        reply_in_width := fun p due h => by rw [State.withSec_sec, hidle] at h; cases h
        branch_drives := inv.branch_drives
        bitIndex_le := inv.bitIndex_le
        acc_above := inv.acc_above
        fifo_le := inv.fifo_le
        prof_eq := rfl }
  | begins _ _ hp hc =>
    have hidle := inv.idle_of_free hp
    exact
      { pending_idle := fun _ => rfl
        inactive_quiet := fun h => nomatch h
        pending_active := fun _ => rfl
        active_legal := fun _ => hc
        responding_pending := inv.responding_pending
        due_latched := fun h => absurd rfl h
        source_disabled := fun _ _ => rfl
        latched_due := fun h => nomatch h
        reply_in_width := fun p due h => by rw [State.withSec_sec, hidle] at h; cases h
        branch_drives := inv.branch_drives
        bitIndex_le := Nat.zero_le _
        acc_above := fun _ _ => BitVec.getLsbD_zero
        fifo_le := Nat.zero_le _
        prof_eq := inv.prof_eq }

/-- The edge latch keeps the invariant: a request of an ACTIVE unit, due unless it is deferred. -/
theorem SecInv.latches {s : State} {o : Option Nat} (inv : SecInv s) (ha : s.sec.active = true)
    (hsome : o ≠ none → s.par.guardMode = .entryGuard ∨ s.sec.pending = false)
    (hnone : o = none → s.par.guardMode = .sourceDisable ∧ s.sec.pending = true) :
    SecInv (s.withSec { s.sec with irqLatch := true, isrDueAt := o }) where
  pending_idle := inv.pending_idle
  inactive_quiet := fun h => by rw [State.withSec_sec, ha] at h; cases h
  pending_active := inv.pending_active
  active_legal := inv.active_legal
  responding_pending := inv.responding_pending
  due_latched := fun _ => rfl
  source_disabled := by
    intro hg hp
    by_contra hne
    rcases hsome hne with hg' | hp'
    · rw [State.withSec_par, hg'] at hg; cases hg
    · rw [State.withSec_sec, hp'] at hp; cases hp
  latched_due := fun _ h => hnone h
  reply_in_width := inv.reply_in_width
  branch_drives := inv.branch_drives
  bitIndex_le := inv.bitIndex_le
  acc_above := inv.acc_above
  fifo_le := inv.fifo_le
  prof_eq := inv.prof_eq

/-- A handler entry keeps the invariant: it takes the request, and is one of an ACTIVE unit. -/
theorem SecInv.entered {s : State} {start duration : Word} {isr : IsrState} {pending : Bool} {setAt poll due : Nat}
    (inv : SecInv s) (hdue : s.sec.isrDueAt = some due) (hpending : s.sec.pending = true → pending = true)
    (hidle : pending = true → isr = .idle) :
    SecInv (s.withSec { s.sec with
      irqLatch := false, isrDueAt := none, start := start, duration := duration, isrState := isr
      pending := pending, pendSetAt := setAt, pollAt := poll }) where
  pending_idle := hidle
  inactive_quiet := fun h => by rw [State.withSec_sec, inv.active_of_due hdue] at h; cases h
  pending_active := fun _ => inv.active_of_due hdue
  active_legal := inv.active_legal
  responding_pending := fun h => hpending (inv.responding_pending h)
  due_latched := fun h => absurd rfl h
  source_disabled := fun _ _ => rfl
  latched_due := fun h => nomatch h
  reply_in_width := inv.reply_in_width
  branch_drives := inv.branch_drives
  bitIndex_le := inv.bitIndex_le
  acc_above := inv.acc_above
  fifo_le := inv.fifo_le
  prof_eq := inv.prof_eq

theorem SecInv.step {s s' : State} (inv : SecInv s) (e : step s = .next s') : SecInv s' := by
  have hpar := step_par e
  have key : SecInv (s.withSec s'.sec) := by
    cases step_secMove e with
    | kept h => rw [h]; exact inv.congr rfl (Nat.le_refl _) rfl
    | pads _ _ h => rw [h]; exact inv.congr rfl (Nat.le_refl _) rfl
    | schedules due _ _ ha hg _ h => rw [h]; exact inv.latches ha (fun _ => hg) (fun h => nomatch h)
    | defers _ _ ha hg hp h => rw [h]; exact inv.latches ha (fun h => absurd rfl h) (fun _ => ⟨hg, hp⟩)
    | ignores _ _ hdue h => rw [h]; exact inv.entered hdue id inv.pending_idle
    | pulseStarts _ _ hdue hp h =>
      rw [h]
      exact inv.entered hdue id (fun hp' => by rw [hp] at hp'; cases hp')
    | pulseEnds poll _ _ hdue _ _ _ h => rw [h]; exact inv.entered hdue (fun _ => rfl) (fun _ => rfl)
    | polls _ _ _ hp _ h => rw [h]; exact inv.goesOn hp (fun h => absurd rfl h) (fun h => absurd rfl h)
    | stmt b p ht h => exact inv.stmt ht h
    | host _ _ _ _ _ h => exact inv.write h
  exact key.congr hpar (Nat.le_refl _) rfl

end Sys2Proof.Machine

namespace Sys2Proof.Proofs

open Sys2Proof Sys2Proof.Machine

/-- Settles O53: by the inversion of a step for the SEC unit. -/
theorem secInvKept : Obligations.SecInvKept := fun _ _ inv e => inv.step e

/-- Settles O21: with the flag set the classifier is IDLE, and with the source disabled no entry is then due. -/
theorem handlerVectors : Obligations.HandlerVectors := by
  intro s inv _ hdue
  rw [decodeEdge_edgeVector]
  cases hp : s.sec.pending with
  | true =>
    refine ⟨by rw [inv.pending_idle hp]; rfl, fun hg => ?_⟩
    rw [inv.source_disabled hg hp] at hdue
    cases hdue
  | false => cases s.sec.isrState <;> cases s.line <;> exact ⟨rfl, fun _ _ _ h => nomatch h⟩

end Sys2Proof.Proofs
end

section
/-! PROOFS. The clock of a response, and what of the SEC unit only certain events change: the mailbox, the bit position
and the response itself (spec/43_sec_response.md R189, R190, R192; spec/42_sec_classifier.md R171). -/

namespace Sys2Proof.Machine

/-- The time to a point of a branch depends on the profile alone. -/
theorem RespClock.congr {c : Nat} {s r : State} (hclock : RespClock c s) (hpar : r.par = s.par)
    (hresp : r.sec.resp = s.sec.resp) (hprof : r.sec.prof = s.sec.prof) : RespClock c r := by
  intro b p due h
  have hnow := hclock b p due (hresp ▸ h)
  rw [hnow, hpar]
  cases p <;> simp only [SecPoint.elapsed, hprof]

/-- A statement lasts as long as the next point lies behind its own. -/
theorem SecStmt.elapsed_next {s : State} {b b' : EvtClass} {p next : SecPoint} {due : Nat} {u : SecUnit}
    (h : SecStmt s b p u) (hresp : u.resp = .responding b' next due) :
    u.prof = s.sec.prof ∧ due + p.elapsed s.par s.sec b = s.t + next.elapsed s.par s.sec b' := by
  cases h with
  | replyStarts | presenceStarts | drive | hold | release =>
    cases hresp
    refine ⟨rfl, ?_⟩
    simp only [SecPoint.elapsed]
    omega
  | _ => cases hresp

/-- The statement that ends a branch clears the flag, at the response's whole time. -/
theorem SecStmt.elapsed_end {s : State} {b : EvtClass} {p : SecPoint} {u : SecUnit} (inv : SecInv s)
    (ht : SecTurn s b p) (h : SecStmt s b p u) (hidle : u.resp = .idle) :
    u.pending = false ∧ p.elapsed s.par s.sec b = responseTime s.par s.sec b := by
  cases h with
  | bitTaken _ _ _ hb | bitDelivered _ _ _ _ hb | bitOverflow _ _ _ hb | bitDropped _ _ hb =>
    rcases hb with rfl | rfl <;> exact ⟨rfl, rfl⟩
  | replyBeyond _ _ hi => exact ⟨rfl, (if_neg (Nat.not_lt.mpr hi)).symm⟩
  | finishBit _ _ hb =>
    have hdrives := inv.branch_drives _ _ _ ht.2.2 (by simp)
    rcases hb with rfl | rfl <;> simp at hdrives
  | finishRead =>
    have hlt := inv.reply_in_width _ _ ht.2.2 (by simp)
    exact ⟨rfl, (if_pos hlt).symm⟩
  | finishReset => exact ⟨rfl, rfl⟩
  | replyStarts | presenceStarts | drive | hold | release => cases hidle

/-- R180: the clock of a response starts with the poll that classifies the event. -/
theorem respClock_of_classified {s s' : State} (hidle : s.sec.resp = .idle) (e : step s = .next s')
    (hrun : s'.sec.resp ≠ .idle) : RespClock s.t s' := by
  cases step_secMove e with
  | polls _ _ _ _ _ h =>
    intro b p due hresp
    rw [h] at hresp
    cases hresp
    rfl
  | stmt b p ht => rw [ht.2.2] at hidle; cases hidle
  | host _ _ _ _ _ h =>
    generalize s'.sec = u at h hrun
    cases h <;> exact absurd hidle hrun
  | kept h | pads _ _ h | schedules _ _ _ _ _ _ h | defers _ _ _ _ _ h | ignores _ _ _ h | pulseStarts _ _ _ _ h
  | pulseEnds _ _ _ _ _ _ _ h => exact absurd (by rw [h]; exact hidle) hrun

/-- R189: while an event is pending no write touches the response or the profile. -/
theorem SecWrite.of_pending {off : Nat} {v : Word} {u w : SecUnit} (hp : u.pending = true)
    (h : SecWrite off v u w) : w.resp = u.resp ∧ w.prof = u.prof := by
  cases h with
  | registers => exact ⟨rfl, rfl⟩
  | cfg _ hp' => rw [hp] at hp'; cases hp'
  | begins => exact ⟨rfl, rfl⟩

theorem RespClock.step {c : Nat} {s s' : State} (inv : SecInv s) (hclock : RespClock c s)
    (hrun : s.sec.resp ≠ .idle) (e : step s = .next s') :
    RespClock c s' ∧
    (s'.sec.resp = .idle → s'.sec.pending = false ∧ ∃ b p, s.sec.resp = .responding b p s.t ∧
      s.t = c + responseTime s.par s.sec b) := by
  have hpar := step_par e
  have keeps : s'.sec.resp = s.sec.resp → s'.sec.prof = s.sec.prof → RespClock c s' ∧
      (s'.sec.resp = .idle → s'.sec.pending = false ∧ ∃ b p, s.sec.resp = .responding b p s.t ∧
        s.t = c + responseTime s.par s.sec b) :=
    fun hresp hprof => ⟨hclock.congr hpar hresp hprof, fun hidle => absurd (hresp.symm.trans hidle) hrun⟩
  cases step_secMove e with
  | polls _ _ hr => exact absurd hr hrun
  | stmt b p ht h =>
    have hnow := hclock _ _ _ ht.2.2
    constructor
    · intro b' next due hresp
      obtain ⟨hprof, hnext⟩ := h.elapsed_next hresp
      have hsame : next.elapsed s'.par s'.sec b' = next.elapsed s.par s.sec b' := by
        rw [hpar]
        cases next <;> simp only [SecPoint.elapsed, hprof]
      omega
    · intro hidle
      obtain ⟨hp, hend⟩ := h.elapsed_end inv ht hidle
      exact ⟨hp, b, p, ht.2.2, by rw [← hend]; exact hnow⟩
  | host _ _ _ _ _ h =>
    obtain ⟨hresp, hprof⟩ := h.of_pending (inv.responding_pending hrun)
    exact keeps hresp hprof
  | kept h | pads _ _ h | schedules _ _ _ _ _ _ h | defers _ _ _ _ _ h | ignores _ _ _ h | pulseStarts _ _ _ _ h
  | pulseEnds _ _ _ _ _ _ _ h => exact keeps (by rw [h]) (by rw [h])

/-- R189: while its next action lies ahead nothing moves a response. -/
theorem SecMove.resp_of_waiting {s s' : State} {b : EvtClass} {p : SecPoint} {due : Nat}
    (hresp : s.sec.resp = .responding b p due) (hwait : ¬(s.phase = .sec ∧ due = s.t)) (h : SecMove s s') :
    s'.sec.resp = s.sec.resp := by
  cases h with
  | polls _ _ hr => rw [hr] at hresp; cases hresp
  | stmt b' p' ht =>
    rw [ht.2.2] at hresp
    cases hresp
    exact absurd ⟨ht.1, rfl⟩ hwait
  | host _ _ _ _ _ h =>
    generalize s'.sec = u at h ⊢
    cases h <;> rfl
  | kept h | pads _ _ h | schedules _ _ _ _ _ _ h | defers _ _ _ _ _ h | ignores _ _ _ h | pulseStarts _ _ _ _ h
  | pulseEnds _ _ _ _ _ _ _ h => rw [h]

/-- A branch leaves the mailbox, or clears the flag as it ends. -/
theorem SecStmt.mailbox {s : State} {b : EvtClass} {p : SecPoint} {u : SecUnit} (h : SecStmt s b p u) :
    u.duration = s.sec.duration ∧ (u.pending = s.sec.pending ∨ u.pending = false ∧ u.resp = .idle) := by
  cases h with
  | replyStarts | presenceStarts | drive | hold | release => exact ⟨rfl, .inl rfl⟩
  | _ => exact ⟨rfl, .inr ⟨rfl, rfl⟩⟩

theorem SecWrite.mailbox {off : Nat} {v : Word} {u w : SecUnit} (h : SecWrite off v u w) :
    w.duration = u.duration ∧ w.pending = u.pending := by
  cases h <;> exact ⟨rfl, rfl⟩

/-- R192: a branch lowers the bit position only at the end of RESET. -/
theorem SecStmt.bitIndex {s : State} {b : EvtClass} {p : SecPoint} {u : SecUnit} (h : SecStmt s b p u) :
    s.sec.bitIndex ≤ u.bitIndex ∨ b = .reset ∧ p = .finish ∧ u.bitIndex = 0 := by
  cases h with
  | bitTaken | bitDelivered | bitOverflow | finishRead => exact .inl (Nat.le_succ _)
  | finishReset => exact .inr ⟨rfl, rfl, rfl⟩
  | _ => exact .inl (Nat.le_refl _)

theorem SecWrite.bitIndex {off : Nat} {v : Word} {u w : SecUnit} (h : SecWrite off v u w) :
    w.bitIndex = u.bitIndex ∨ off = 0x00 ∧ decodeSec v = .ok .secBegin ∧ w.bitIndex = 0 := by
  cases h with
  | begins hoff hd => exact .inr ⟨hoff, hd, rfl⟩
  | registers | cfg => exact .inl rfl

end Sys2Proof.Machine

namespace Sys2Proof.Proofs

open Sys2Proof Sys2Proof.Machine

/-- Settles O28: the poll starts the clock, each statement advances it by its duration, and the one that ends the
branch clears the flag at the response's whole time. -/
theorem responseDuration : Obligations.ResponseDuration :=
  ⟨fun _ _ hidle e hrun => respClock_of_classified hidle e hrun,
    fun _ _ _ inv hclock hrun e => hclock.step inv hrun e⟩

/-- Settles O22: of a step's moves only the end of a pulse writes the mailbox, and only the end of a branch clears
its flag. -/
theorem mailboxOrdering : Obligations.MailboxOrdering := by
  intro s s' e
  have keeps : s'.sec.duration = s.sec.duration → s'.sec.pending = s.sec.pending →
      (s'.sec.duration ≠ s.sec.duration → s.sec.pending = false ∧ s'.sec.pending = true) ∧
      (s.sec.pending = false → s'.sec.pending = true →
        s.phase = .handler ∧ s.sec.isrDueAt = some s.t ∧ s.sec.isrState = .timing ∧
        s'.sec.duration = BitVec.ofNat 32 s.t - s.sec.start) ∧
      (s.sec.pending = true → s'.sec.pending = false → s.phase = .sec ∧ s'.sec.resp = .idle) := by
    intro hd hp
    simp only [hd, hp]
    exact ⟨fun h => absurd rfl h, fun h h' => (by simp [h] at h'), fun h h' => (by simp [h] at h')⟩
  cases step_secMove e with
  | pulseEnds poll _ hph hdue hp hi _ h =>
    rw [h]
    exact ⟨fun _ => ⟨hp, rfl⟩, fun _ _ => ⟨hph, hdue, hi, rfl⟩, fun hp' => by rw [hp] at hp'; cases hp'⟩
  | stmt b p ht h =>
    obtain ⟨hd, hp | ⟨hp, hidle⟩⟩ := h.mailbox
    · exact keeps hd hp
    · exact ⟨fun hne => absurd hd hne, fun _ hp' => (by simp [hp] at hp'), fun _ _ => ⟨ht.1, hidle⟩⟩
  | host _ _ _ _ _ h => exact keeps h.mailbox.1 h.mailbox.2
  | kept h | pads _ _ h | schedules _ _ _ _ _ _ h | defers _ _ _ _ _ h | ignores _ _ _ h | pulseStarts _ _ _ _ h
  | polls _ _ _ _ _ h => exact keeps (by rw [h]) (by rw [h])

/-- Settles O30: of a step's moves only the end of a RESET branch and BEGIN lower the position. -/
theorem positionClearedOnlyByReset : Obligations.PositionClearedOnlyByReset := by
  intro s s' e hlt
  cases step_secMove e with
  | stmt b p ht h =>
    rcases h.bitIndex with hle | ⟨rfl, rfl, hzero⟩
    · exact absurd hlt (Nat.not_lt.mpr hle)
    · exact ⟨hzero, .inl ht⟩
  | host tgt v rest off ht h =>
    rcases h.bitIndex with hsame | ⟨rfl, hd, hzero⟩
    · exact absurd hlt (by rw [hsame]; exact Nat.lt_irrefl _)
    · exact ⟨hzero, .inr ⟨tgt, v, rest, ht, hd⟩⟩
  | kept h | pads _ _ h | schedules _ _ _ _ _ _ h | defers _ _ _ _ _ h | ignores _ _ _ h | pulseStarts _ _ _ _ h
  | pulseEnds _ _ _ _ _ _ _ h | polls _ _ _ _ _ h => exact absurd hlt (by rw [h]; exact Nat.lt_irrefl _)

/-- Settles O50: each unit's inversion, whose only move of the sequencer or the response is the statement due. -/
theorem notCancelled : Obligations.NotCancelled :=
  ⟨fun _ _ _ _ _ _ inv hseq e hwait => (step_priMove e).seq_of_waiting inv hseq hwait,
    fun _ _ _ _ _ hresp e hwait => (step_secMove e).resp_of_waiting hresp hwait⟩

end Sys2Proof.Proofs
end

section
/-! PROOFS. No action is passed by: what lies ahead stays ahead until its phase has taken it
(spec/60_exceptions.md R258; spec/44_gpio_line.md R210). -/

namespace Sys2Proof.Machine

/-! What lies ahead. -/

theorem Phase.index_inj {p q : Phase} (h : p.index = q.index) : p = q := by
  cases p <;> cases q <;> first | rfl | cases h

/-- The host's phase is the last one. -/
theorem Phase.eq_host_of_index_le {p : Phase} (h : Phase.host.index ≤ p.index) : p = .host := by
  cases p with
  | host => rfl
  | _ => exact absurd h (by decide)

theorem State.ahead_of_lt {s : State} {ph : Phase} {due : Nat} (h : s.t < due) : s.ahead ph due := .inl h

theorem State.ahead_of_le {s : State} {ph : Phase} {due : Nat} (hph : s.phase.index ≤ ph.index) (h : s.t ≤ due) :
    s.ahead ph due := (Nat.lt_or_eq_of_le h).imp_right fun he => ⟨he, hph⟩

/-- A step stays in its phase, passes to the next one, or ends the instant. -/
theorem PhaseMove.time {s s' : State} (m : PhaseMove s s') :
    (s'.t = s.t ∧ (s'.phase = s.phase ∨ s'.phase.index = s.phase.index + 1)) ∨
    (s'.t = s.t + 1 ∧ s.phase = .host ∧ s'.phase = .pads) := by
  cases m with
  | pads hph ht hph' | line hph ht hph' | handler hph ht hph' => exact .inl ⟨ht, .inr (by rw [hph, hph']; rfl)⟩
  | secWaits hw ht hph' => exact .inl ⟨ht, .inr (by rw [hw.1, hph']; rfl)⟩
  | priWaits hw ht hph' => exact .inl ⟨ht, .inr (by rw [hw.1, hph']; rfl)⟩
  | stays _ ht hph' => exact .inl ⟨ht, .inl hph'⟩
  | instantEnds hph _ hs => subst hs; exact .inr ⟨rfl, hph, rfl⟩

/-- What lies ahead still does after a step that does not leave the action's phase when it is due. -/
theorem PhaseMove.ahead {s s' : State} {ph : Phase} {due : Nat} (m : PhaseMove s s') (h : s.ahead ph due)
    (hdue : s.phase = ph → s'.phase = ph ∨ due ≠ s.t) : s'.ahead ph due := by
  unfold State.ahead at *
  rcases m.time with ⟨ht, hsame | hnext⟩ | ⟨ht, hhost, hpads⟩
  · rw [ht, hsame]; exact h
  · rw [ht]
    rcases h with hlt | ⟨heq, hle⟩
    · exact .inl hlt
    · refine .inr ⟨heq, ?_⟩
      rw [hnext]
      by_contra hgt
      have hph : s.phase = ph := Phase.index_inj (by omega)
      rcases hdue hph with hstay | hne
      · rw [hstay, hph] at hnext; omega
      · exact hne heq.symm
  · rw [ht, hpads]
    rcases h with hlt | ⟨heq, hle⟩
    · exact (Nat.lt_or_eq_of_le hlt).imp_right fun he => ⟨he, Nat.zero_le _⟩
    · have hph : ph = .host := Phase.eq_host_of_index_le (hhost ▸ hle)
      rcases hdue (hhost.trans hph.symm) with hstay | hne
      · rw [hstay, hph] at hpads; cases hpads
      · exact absurd heq.symm hne

/-- The sequencer's phase is left only with no statement due. -/
theorem PhaseMove.pri_due {s s' : State} {c : PriCmd} {sk : Bool} {p : PriPoint} {due : Nat} (m : PhaseMove s s')
    (hseq : s.pri.seq = .running c sk p due) (hph : s.phase = .pri) : s'.phase = .pri ∨ due ≠ s.t := by
  cases m with
  | priWaits hw => exact .inr (hw.2 _ _ _ _ hseq)
  | stays _ _ hph' => exact .inl (hph'.trans hph)
  | secWaits hw => rw [hw.1] at hph; cases hph
  | pads hph' | line hph' | handler hph' | instantEnds hph' => rw [hph'] at hph; cases hph

/-- The SEC main loop's phase is left only with no statement and no poll due. -/
theorem PhaseMove.sec_due {s s' : State} (m : PhaseMove s s') (hph : s.phase = .sec) : s'.phase = .sec ∨ SecWaits s := by
  cases m with
  | secWaits hw => exact .inr hw
  | stays _ _ hph' => exact .inl (hph'.trans hph)
  | priWaits hw => rw [hw.1] at hph; cases hph
  | pads hph' | line hph' | handler hph' | instantEnds hph' => rw [hph'] at hph; cases hph

/-- The end of the handler's phase leaves no entry due at the instant. -/
theorem PhaseMove.handler_due {s s' : State} {due : Nat} (m : PhaseMove s s') (hsp : s.par.secPresent = true)
    (hdue : s.sec.isrDueAt = some due) (hkept : s'.sec.isrDueAt = some due) (hph : s.phase = .handler) :
    s'.phase = .handler ∨ due ≠ s.t := by
  cases m with
  | handler _ _ _ htaken =>
    refine .inr ?_
    rintro rfl
    rw [htaken hsp hdue] at hkept
    cases hkept
  | stays _ _ hph' => exact .inl (hph'.trans hph)
  | secWaits hw => rw [hw.1] at hph; cases hph
  | priWaits hw => rw [hw.1] at hph; cases hph
  | pads hph' | line hph' | instantEnds hph' => rw [hph'] at hph; cases hph

/-- A pad effect still scheduled after phase 1 is not one of the instant. -/
theorem dueAfter_eq_some {t : Nat} {o : Option PadDue} {d : PadDue} (h : dueAfter t o = some d) :
    o = some d ∧ d.due ≠ t := by
  cases o with
  | none => cases h
  | some x =>
    simp only [dueAfter] at h
    split at h
    · cases h
    · cases h; exact ⟨rfl, ‹_›⟩

/-! What the moves of each unit schedule. -/

/-- A statement never leads back in time. -/
theorem PriStmt.le_due {s : State} {c c' : PriCmd} {sk sk' : Bool} {p next : PriPoint} {due : Nat} {u : PriUnit}
    (h : PriStmt s c sk p u) (hseq : u.seq = .running c' sk' next due) : s.t ≤ due := by
  cases h <;> cases hseq <;> simp

/-- A pad effect is scheduled for a later instant, since every latency is at least 1 (R8). -/
theorem PriStmt.padDue {s : State} {c : PriCmd} {sk : Bool} {p : PriPoint} {u : PriUnit} (hlegal : s.par.Legal)
    (h : PriStmt s c sk p u) : u.padDue = s.pri.padDue ∨ ∃ d, u.padDue = some d ∧ s.t < d.due := by
  obtain ⟨hswitch, hwrite, -⟩ := hlegal
  cases h with
  | startInit | calSwitch | rstRelease | rstDrive | rdRelease | rdStore =>
    exact .inr ⟨_, rfl, by show s.t < s.t + s.par.priLatSwitch; omega⟩
  | calWrite | rstLow | wrHead | wrHigh | rdHead =>
    exact .inr ⟨_, rfl, by show s.t < s.t + s.par.priLatWrite; omega⟩
  | _ => exact .inl rfl

theorem PriWrite.seq {t : Nat} {u v : PriUnit} (h : PriWrite t u v) :
    v.padDue = u.padDue ∧ v.pad = u.pad ∧
    (v.seq = u.seq ∨ ∃ c sk, u.busy = false ∧ (c ≠ .init → u.ready = true) ∧ v.seq = .running c sk .start (t + 1)) := by
  cases h with
  | registers | cfg => exact ⟨rfl, rfl, .inl rfl⟩
  | accept c sk _ hb hr => exact ⟨rfl, rfl, .inr ⟨c, sk, hb, hr, rfl⟩⟩

theorem SecStmt.le_due {s : State} {b b' : EvtClass} {p next : SecPoint} {due : Nat} {u : SecUnit}
    (h : SecStmt s b p u) (hresp : u.resp = .responding b' next due) : s.t ≤ due := by
  cases h <;> cases hresp <;> simp

theorem SecStmt.padDue {s : State} {b : EvtClass} {p : SecPoint} {u : SecUnit} (hlegal : s.par.Legal)
    (h : SecStmt s b p u) : u.padDue = s.sec.padDue ∨ ∃ d, u.padDue = some d ∧ s.t < d.due := by
  obtain ⟨-, -, hswitch, hwrite, -⟩ := hlegal
  cases h with
  | replyStarts | presenceStarts | release =>
    exact .inr ⟨_, rfl, by show s.t < s.t + s.par.secLatSwitch; omega⟩
  | drive => exact .inr ⟨_, rfl, by show s.t < s.t + s.par.secLatWrite; omega⟩
  | _ => exact .inl rfl

/-- The clear schedules a deferred entry for a later instant (R167). -/
theorem SecStmt.isrDueAt {s : State} {b : EvtClass} {p : SecPoint} {u : SecUnit} (h : SecStmt s b p u) :
    u.isrDueAt = s.sec.isrDueAt ∨ ∃ due, u.isrDueAt = some due ∧ s.t < due := by
  cases h with
  | replyStarts | presenceStarts | drive | hold | release => exact .inl rfl
  | bitTaken _ _ o _ _ ho | bitDelivered _ _ o _ _ _ _ ho | bitOverflow _ _ o _ _ ho | bitDropped _ o _ _ ho
  | replyBeyond _ o _ ho | finishBit _ o _ ho | finishRead o ho | finishReset o ho =>
    cases ho with
    | same => exact .inl rfl
    | deferred _ _ due hd => exact .inr ⟨due, rfl, hd⟩

/-- A branch that has ended has cleared the flag (R188). -/
theorem SecStmt.free_of_idle {s : State} {b : EvtClass} {p : SecPoint} {u : SecUnit} (h : SecStmt s b p u)
    (hidle : u.resp = .idle) : u.pending = false := by
  cases h with
  | replyStarts | presenceStarts | drive | hold | release => cases hidle
  | _ => rfl

theorem SecWrite.times {off : Nat} {v : Word} {u w : SecUnit} (h : SecWrite off v u w) :
    w.resp = u.resp ∧ w.pad = u.pad ∧ w.padDue = u.padDue ∧ w.pollAt = u.pollAt ∧
    (w.isrDueAt = u.isrDueAt ∨ w.isrDueAt = none) := by
  cases h with
  | registers => exact ⟨rfl, rfl, rfl, rfl, .inl rfl⟩
  | cfg | begins => exact ⟨rfl, rfl, rfl, rfl, .inr rfl⟩

/-! The invariant, one lemma for each of its clauses. -/

theorem TimeInv.sequencer_step {s s' : State} (inv : TimeInv s) (e : step s = .next s') (c : PriCmd) (sk : Bool)
    (p : PriPoint) (due : Nat) (hseq : s'.pri.seq = .running c sk p due) : s'.ahead .pri due := by
  have m := step_phaseMove e
  have keeps : s'.pri.seq = s.pri.seq → s'.ahead .pri due := fun hsame => by
    rw [hsame] at hseq
    exact m.ahead (inv.sequencer _ _ _ _ hseq) (m.pri_due hseq)
  cases step_priMove e with
  | kept h | pads _ h => exact keeps (by rw [h])
  | stmt c' sk' p' ht hs h =>
    rw [hs]
    exact State.ahead_of_le (by rw [State.withPri_phase, ht.1]) (h.le_due hseq)
  | host _ _ _ _ ht h =>
    obtain ⟨-, -, hsame | ⟨_, _, -, -, hstart⟩⟩ := h.seq
    · exact keeps hsame
    · obtain ⟨-, -, -, htime, -⟩ := ht.frame e
      rw [hstart] at hseq
      cases hseq
      exact State.ahead_of_lt (by rw [htime]; exact Nat.lt_succ_self _)

/-- Phase 1 keeps no effect that is due, and no other phase touches the pads. -/
theorem TimeInv.priPad_step {s s' : State} (hlegal : s.par.Legal) (inv : TimeInv s) (e : step s = .next s')
    (d : PadDue) (hd : s'.pri.padDue = some d) : s'.ahead .pads d.due := by
  have m := step_phaseMove e
  by_cases hph : s.phase = .pads
  · rw [step_pads hph] at e
    cases e
    rw [(padsPhase_frame s).1] at hd
    obtain ⟨hd, hne⟩ := dueAfter_eq_some hd
    exact m.ahead (inv.priPad d hd) fun _ => .inr hne
  · have keeps : s'.pri.padDue = s.pri.padDue → s'.ahead .pads d.due := fun hsame =>
      m.ahead (inv.priPad d (hsame ▸ hd)) fun h => absurd h hph
    cases step_priMove e with
    | pads h => exact absurd h hph
    | kept h => exact keeps (by rw [h])
    | host _ _ _ _ _ h => exact keeps h.seq.1
    | stmt c sk p ht hs h =>
      rcases h.padDue hlegal with hsame | ⟨d', hd', hlt⟩
      · exact keeps hsame
      · rw [hd'] at hd
        cases hd
        rw [hs]
        exact State.ahead_of_lt hlt

theorem TimeInv.secPad_step {s s' : State} (hlegal : s.par.Legal) (inv : TimeInv s) (e : step s = .next s')
    (hsp : s.par.secPresent = true) (d : PadDue) (hd : s'.sec.padDue = some d) : s'.ahead .pads d.due := by
  have m := step_phaseMove e
  by_cases hph : s.phase = .pads
  · rw [step_pads hph] at e
    cases e
    rw [(padsPhase_frame s).2.1, if_pos hsp] at hd
    obtain ⟨hd, hne⟩ := dueAfter_eq_some hd
    exact m.ahead (inv.secPad hsp d hd) fun _ => .inr hne
  · have keeps : s'.sec.padDue = s.sec.padDue → s'.ahead .pads d.due := fun hsame =>
      m.ahead (inv.secPad hsp d (hsame ▸ hd)) fun h => absurd h hph
    cases step_secMove e with
    | pads _ h => exact absurd h hph
    | host _ _ _ _ _ h => exact keeps h.times.2.2.1
    | stmt b p ht h =>
      rcases h.padDue hlegal with hsame | ⟨d', hd', hlt⟩
      · exact keeps hsame
      · obtain ⟨-, htime, -⟩ := sec_step_frame ht.1 e
        rw [hd'] at hd
        cases hd
        exact State.ahead_of_lt (by rw [htime]; exact hlt)
    | kept h | schedules _ _ _ _ _ _ h | defers _ _ _ _ _ h | ignores _ _ _ h | pulseStarts _ _ _ _ h
    | pulseEnds _ _ _ _ _ _ _ h | polls _ _ _ _ _ h => exact keeps (by rw [h])

/-- A step of the SEC main loop that takes an action stays in its phase. -/
theorem sec_phase_of_action {s s' : State} (hph : s.phase = .sec) (e : step s = .next s') (hn : ¬SecWaits s) :
    s'.phase = .sec := by
  obtain ⟨-, -, -, -, -, -, -, h | ⟨hw, -⟩⟩ := sec_step_frame hph e
  · exact h
  · exact absurd hw hn

theorem SecTurn.not_secWaits {s : State} {b : EvtClass} {p : SecPoint} (h : SecTurn s b p) : ¬SecWaits s :=
  fun hw => (hw.2 h.2.1).2 b p s.t h.2.2 rfl

theorem TimeInv.response_step {s s' : State} (inv : TimeInv s) (e : step s = .next s')
    (hsp : s.par.secPresent = true) (b : EvtClass) (p : SecPoint) (due : Nat)
    (hresp : s'.sec.resp = .responding b p due) : s'.ahead .sec due := by
  have m := step_phaseMove e
  have keeps : s'.sec.resp = s.sec.resp → s'.ahead .sec due := fun hsame => by
    rw [hsame] at hresp
    exact m.ahead (inv.response hsp _ _ _ hresp) fun hph =>
      (m.sec_due hph).imp_right fun hw => (hw.2 hsp).2 b p due hresp
  cases step_secMove e with
  | polls _ hph hr hp hpoll h =>
    obtain ⟨-, htime, -⟩ := sec_step_frame hph e
    have hsec := sec_phase_of_action hph e fun hw => (hw.2 hsp).1 hr hp hpoll
    rw [h] at hresp
    cases hresp
    exact State.ahead_of_le (by rw [hsec]) (by rw [htime])
  | stmt b' p' ht h =>
    obtain ⟨-, htime, -⟩ := sec_step_frame ht.1 e
    have hsec := sec_phase_of_action ht.1 e ht.not_secWaits
    exact State.ahead_of_le (by rw [hsec]) (by rw [htime]; exact h.le_due hresp)
  | host _ _ _ _ _ h => exact keeps h.times.1
  | kept h | pads _ _ h | schedules _ _ _ _ _ _ h | defers _ _ _ _ _ h | ignores _ _ _ h | pulseStarts _ _ _ _ h
  | pulseEnds _ _ _ _ _ _ _ h => exact keeps (by rw [h])

theorem TimeInv.handler_step {s s' : State} (inv : TimeInv s) (e : step s = .next s')
    (hsp : s.par.secPresent = true) (due : Nat) (hdue : s'.sec.isrDueAt = some due) : s'.ahead .handler due := by
  have m := step_phaseMove e
  have keeps : s'.sec.isrDueAt = s.sec.isrDueAt → s'.ahead .handler due := fun hsame => by
    have hold := hsame.symm.trans hdue
    exact m.ahead (inv.handler hsp due hold) (m.handler_due hsp hold hdue)
  cases step_secMove e with
  | schedules due' _ hph _ _ hd h =>
    rw [step_line hph] at e
    cases e
    obtain ⟨-, -, -, htime, -, -, -, -, -, hphase⟩ := linePhase_frame s
    rw [h] at hdue
    cases hdue
    exact State.ahead_of_le (by rw [hphase]) (by rw [htime]; exact hd)
  | stmt b p ht h =>
    rcases h.isrDueAt with hsame | ⟨due', hd, hlt⟩
    · exact keeps hsame
    · obtain ⟨-, htime, -⟩ := sec_step_frame ht.1 e
      rw [hd] at hdue
      cases hdue
      exact State.ahead_of_lt (by rw [htime]; exact hlt)
  | host _ _ _ _ _ h =>
    obtain ⟨-, -, -, -, hsame | hnone⟩ := h.times
    · exact keeps hsame
    · rw [hnone] at hdue; cases hdue
  | defers _ _ _ _ _ h | ignores _ _ _ h | pulseStarts _ _ _ _ h | pulseEnds _ _ _ _ _ _ _ h =>
    rw [h] at hdue
    cases hdue
  | kept h | pads _ _ h | polls _ _ _ _ _ h => exact keeps (by rw [h])

theorem TimeInv.poll_step {s s' : State} (inv : TimeInv s) (e : step s = .next s') (hsp : s.par.secPresent = true)
    (hp : s'.sec.pending = true) (hr : s'.sec.resp = .idle) : s'.ahead .sec s'.sec.pollAt := by
  have m := step_phaseMove e
  have keeps : s'.sec.pending = s.sec.pending → s'.sec.resp = s.sec.resp → s'.sec.pollAt = s.sec.pollAt →
      s'.ahead .sec s'.sec.pollAt := fun hpend hresp hpoll => by
    rw [hpend] at hp
    rw [hresp] at hr
    rw [hpoll]
    exact m.ahead (inv.poll hsp hp hr) fun hph => (m.sec_due hph).imp_right fun hw => (hw.2 hsp).1 hr hp
  cases step_secMove e with
  | pulseEnds poll _ hph _ _ _ hd h =>
    obtain ⟨-, -, htime, -, -, -, -, -, -, hphase, -⟩ := handler_step_frame hph e
    rw [h]
    exact State.ahead_of_le (by rw [hphase]) (by rw [htime]; exact hd)
  | polls _ _ _ _ _ h => rw [h] at hr; cases hr
  | stmt b p ht h => rw [h.free_of_idle hr] at hp; cases hp
  | host _ _ _ _ _ h => exact keeps h.mailbox.2 h.times.1 h.times.2.2.2.1
  | kept h | pads _ _ h | schedules _ _ _ _ _ _ h | defers _ _ _ _ _ h | ignores _ _ _ h | pulseStarts _ _ _ _ h =>
    exact keeps (by rw [h]) (by rw [h]) (by rw [h])

theorem TimeInv.step {s s' : State} (hlegal : s.par.Legal) (inv : TimeInv s) (e : step s = .next s') :
    TimeInv s' := by
  have hpar := step_par e
  constructor
  case sequencer => exact inv.sequencer_step e
  case priPad => exact inv.priPad_step hlegal e
  all_goals rw [hpar]
  case response => exact inv.response_step e
  case secPad => exact inv.secPad_step hlegal e
  case handler => exact inv.handler_step e
  case poll => exact inv.poll_step e

end Sys2Proof.Machine

namespace Sys2Proof.Proofs

open Sys2Proof Sys2Proof.Machine

/-- Settles O55: each clause by the inversion of a step for its unit and by where the step leaves the instant. -/
theorem noActionPassedBy : Obligations.NoActionPassedBy := fun _ _ hlegal inv e => inv.step hlegal e

end Sys2Proof.Proofs
end

section
/-! PROOFS. The pads: each unit has one effect outstanding at most, and its pad stands where the pseudocode has put it
(spec/10_state.md R58; spec/41_pri_controller.md R134; spec/43_sec_response.md R187). -/

namespace Sys2Proof.Machine

/-- The clauses of `PadInv` about the PRI unit. -/
structure PriPadOk (u : PriUnit) : Prop where
  outstanding : ∀ d, u.padDue = some d → ∃ c skip p, u.seq = .running c skip p d.due
  idle : u.seq = .idle → u.pad = .drivesHigh ∨ (u.ready = false ∧ u.pad = .released)
  start : ∀ c skip due, u.seq = .running c skip .start due →
    u.padDue = none ∧ (u.pad = .drivesHigh ∨ (c = .init ∧ u.pad = .released))
  running : ∀ c skip p due, u.seq = .running c skip p due → p ≠ .start → padSoon u.pad u.padDue = p.pad

/-- The clauses of `PadInv` about the SEC unit. -/
structure SecPadOk (u : SecUnit) : Prop where
  outstanding : ∀ d, u.padDue = some d → ∃ b p, u.resp = .responding b p d.due
  idle : u.resp = .idle → u.pad = .released ∧ u.padDue = none
  running : ∀ b p due, u.resp = .responding b p due → p.padOk (padSoon u.pad u.padDue)

theorem padInv_iff (s : State) : PadInv s ↔ PriPadOk s.pri ∧ SecPadOk s.sec :=
  ⟨fun h => ⟨⟨h.pri_outstanding, h.pri_idle, h.pri_start, h.pri_running⟩,
      ⟨h.sec_outstanding, h.sec_idle, h.sec_running⟩⟩,
    fun ⟨hp, hs⟩ => ⟨hp.outstanding, hs.outstanding, hp.idle, hp.start, hp.running, hs.idle, hs.running⟩⟩

/-- What a pad will be is not changed by the effect taking place. -/
theorem padSoon_padAfter (t : Nat) (p : Pad) (o : Option PadDue) :
    padSoon (padAfter t p o) (dueAfter t o) = padSoon p o := by
  cases o with
  | none => rfl
  | some d =>
    simp only [padAfter, dueAfter]
    split <;> rfl

/-! The PRI pad. -/

theorem PriPadOk.padDue_of_idle {u : PriUnit} (h : PriPadOk u) (hidle : u.seq = .idle) : u.padDue = none := by
  cases hd : u.padDue with
  | none => rfl
  | some d =>
    obtain ⟨c, sk, p, hrun⟩ := h.outstanding d hd
    rw [hidle] at hrun
    cases hrun

/-- At each point but the first the pad has to be the one of the point. -/
theorem PriPadOk.of_running {u : PriUnit} {c : PriCmd} {sk : Bool} {p : PriPoint} {due : Nat}
    (hseq : u.seq = .running c sk p due) (hne : p ≠ .start) (hdue : ∀ d, u.padDue = some d → d.due = due)
    (hpad : padSoon u.pad u.padDue = p.pad) : PriPadOk u where
  outstanding := fun d hd => ⟨c, sk, p, by rw [hseq, hdue d hd]⟩
  idle := fun h => by rw [hseq] at h; cases h
  start := fun c' sk' due' h => by rw [hseq] at h; cases h; exact absurd rfl hne
  running := fun c' sk' p' due' h _ => by rw [hseq] at h; cases h; exact hpad

/-- Between commands the pad drives HIGH. -/
theorem PriPadOk.of_idle {u : PriUnit} (hseq : u.seq = .idle) (hdue : u.padDue = none) (hpad : u.pad = .drivesHigh) :
    PriPadOk u where
  outstanding := fun d hd => by rw [hdue] at hd; cases hd
  idle := fun _ => .inl hpad
  start := fun _ _ _ h => by rw [hseq] at h; cases h
  running := fun _ _ _ _ h => by rw [hseq] at h; cases h

/-- Phase 1 keeps the clauses. -/
theorem PriPadOk.pads {u : PriUnit} (t : Nat) (h : PriPadOk u) :
    PriPadOk { u with pad := padAfter t u.pad u.padDue, padDue := dueAfter t u.padDue } where
  outstanding := fun d hd => h.outstanding d (dueAfter_eq_some hd).1
  idle := fun hseq => by simp only [h.padDue_of_idle hseq]; exact h.idle hseq
  start := fun c sk due hseq => by
    obtain ⟨hnone, hpad⟩ := h.start c sk due hseq
    simp only [hnone]
    exact ⟨rfl, hpad⟩
  running := fun c sk p due hseq hne => (padSoon_padAfter t u.pad u.padDue).trans (h.running c sk p due hseq hne)

/-- At the sequencer's turn no effect is outstanding: one due now has taken place in phase 1. -/
theorem PriTurn.padDue {s : State} {c : PriCmd} {sk : Bool} {p : PriPoint} (ht : PriTurn s c sk p)
    (htime : TimeInv s) (h : PriPadOk s.pri) : s.pri.padDue = none := by
  cases hd : s.pri.padDue with
  | none => rfl
  | some d =>
    obtain ⟨c', sk', p', hrun⟩ := h.outstanding d hd
    rw [ht.2, PriSeq.running.injEq] at hrun
    obtain ⟨-, -, -, hnow⟩ := hrun
    rcases htime.priPad d hd with hlt | ⟨-, hle⟩
    · exact absurd hnow (Nat.ne_of_lt hlt)
    · rw [ht.1] at hle
      exact absurd hle (by decide)

/-- A statement without an effect on the pad. -/
theorem PriPadOk.waits {s : State} {c : PriCmd} {sk : Bool} {p : PriPoint} {u : PriUnit} {due : Nat}
    (hnone : s.pri.padDue = none) (hseq : u.seq = .running c sk p due) (hne : p ≠ .start)
    (hpadSame : u.pad = s.pri.pad) (hdueSame : u.padDue = s.pri.padDue) (hpad : s.pri.pad = p.pad) :
    PriPadOk u :=
  .of_running hseq hne (fun d hd => by rw [hdueSame, hnone] at hd; cases hd)
    (by rw [hpadSame, hdueSame, hnone]; exact hpad)

/-- A statement that schedules an effect for the instant it leads to. -/
theorem PriPadOk.schedules {c : PriCmd} {sk : Bool} {p : PriPoint} {u : PriUnit} {due : Nat} {eff : PadEffect}
    (hseq : u.seq = .running c sk p due) (hne : p ≠ .start) (hdue : u.padDue = some ⟨eff, due⟩)
    (hpad : applyEffect eff u.pad = p.pad) : PriPadOk u :=
  .of_running hseq hne (fun d hd => by rw [hdue] at hd; cases hd; rfl) (by rw [hdue]; exact hpad)

/-- Every statement keeps the clauses. -/
theorem PriPadOk.stmt {s : State} {c : PriCmd} {sk : Bool} {p : PriPoint} {u : PriUnit} (hlegal : s.par.Legal)
    (hpri : PriInv s) (htime : TimeInv s) (hok : PriPadOk s.pri) (ht : PriTurn s c sk p) (h : PriStmt s c sk p u) :
    PriPadOk u := by
  have hnone := ht.padDue htime hok
  have hpad : p ≠ .start → s.pri.pad = p.pad := fun hne => by
    have hrun := hok.running _ _ _ _ ht.2 hne
    rw [hnone] at hrun
    exact hrun
  have hstart : c ≠ .init → p = .start → s.pri.pad = .drivesHigh := by
    rintro hc rfl
    rcases (hok.start _ _ _ ht.2).2 with h | ⟨h, -⟩
    · exact h
    · exact absurd h hc
  cases h with
  | startInit =>
    refine .schedules rfl (by simp) rfl ?_
    rcases (hok.start _ _ _ ht.2).2 with h | ⟨-, h⟩ <;> rw [h] <;> rfl
  | startReset | startWrite | startWriteSkip | startRead | startReadSkip =>
    exact .waits hnone rfl (by simp) rfl rfl (hstart (by simp) rfl)
  | calSwitch _ _ k =>
    refine .schedules rfl (by simp) rfl ?_
    rw [hpad (by simp)]
    simp only [PriPoint.pad]
    split <;> rfl
  | calSwitchWait _ _ k =>
    refine .waits hnone rfl (by simp) rfl rfl ((hpad (by simp)).trans ?_)
    simp only [PriPoint.pad]
    rcases Nat.mod_two_eq_zero_or_one k with hk | hk
    · rw [if_pos hk, if_neg (by omega)]
    · rw [if_neg (by omega), if_pos (by omega)]
  | calSwitchEnd _ _ k hk =>
    obtain ⟨-, -, -, -, -, -, -, heven, -⟩ := hlegal
    obtain ⟨-, hle⟩ := hpri.point_ok _ _ _ _ ht.2
    obtain rfl : k = s.par.calNSwitch := Nat.le_antisymm hle hk
    exact .waits hnone rfl (by simp) rfl rfl ((hpad (by simp)).trans (if_pos heven))
  | calFirstRead | calWriteWait | rstHold | rstWait | rstSample | rstSettle | rstThenWrite | rstThenRead | wrHold
  | wrPause | rdHold | rdWait | rdSample | rdSettle =>
    exact .waits hnone rfl (by simp) rfl rfl (hpad (by simp))
  | calWrite | rstLow | rstRelease | rstDrive | wrHead | wrHigh | rdHead | rdRelease | rdStore =>
    exact .schedules rfl (by simp) rfl (by rw [hpad (by simp)]; rfl)
  | calOk | calFails | rstEnds | rstSentinel | wrEnd | rdEnd => exact .of_idle rfl hnone (hpad (by simp))

/-- Every write of a register of bank P keeps the clauses: a command other than INIT starts from a READY unit. -/
theorem PriPadOk.write {s : State} {u : PriUnit} (hpri : PriInv s) (hok : PriPadOk s.pri)
    (h : PriWrite s.t s.pri u) : PriPadOk u := by
  have hidle : s.pri.busy = false → s.pri.seq = .idle := fun hb => by
    by_contra hn
    rw [hpri.busy_iff.mpr hn] at hb
    cases hb
  cases h with
  | registers => exact ⟨hok.outstanding, hok.idle, hok.start, hok.running⟩
  | cfg _ hb =>
    refine ⟨hok.outstanding, fun hseq => ?_, hok.start, hok.running⟩
    exact (hok.idle hseq).imp_right fun h => ⟨rfl, h.2⟩
  | accept c sk _ hb hr =>
    have hnone := hok.padDue_of_idle (hidle hb)
    refine ⟨fun d hd => ?_, fun h => (nomatch h), fun c' sk' due' h => ?_, fun c' sk' p' due' h hne => ?_⟩
    · rw [hnone] at hd
      cases hd
    · cases h
      refine ⟨hnone, (hok.idle (hidle hb)).imp_right fun ⟨hready, hpad⟩ => ⟨?_, hpad⟩⟩
      by_contra hc
      rw [hr hc] at hready
      cases hready
    · cases h
      exact absurd rfl hne

theorem PriPadOk.step {s s' : State} (hlegal : s.par.Legal) (hpri : PriInv s) (htime : TimeInv s)
    (hok : PriPadOk s.pri) (e : step s = .next s') : PriPadOk s'.pri := by
  cases step_priMove e with
  | kept h => rw [h]; exact hok
  | pads _ h => rw [h]; exact hok.pads s.t
  | stmt c sk p ht _ h => exact hok.stmt hlegal hpri htime ht h
  | host _ _ _ _ _ h => exact hok.write hpri h

/-! The SEC pad. -/

/-- At each point the pad has to be one of the point. -/
theorem SecPadOk.of_running {u : SecUnit} {b : EvtClass} {p : SecPoint} {due : Nat}
    (hresp : u.resp = .responding b p due) (hdue : ∀ d, u.padDue = some d → d.due = due)
    (hpad : p.padOk (padSoon u.pad u.padDue)) : SecPadOk u where
  outstanding := fun d hd => ⟨b, p, by rw [hresp, hdue d hd]⟩
  idle := fun h => by rw [hresp] at h; cases h
  running := fun b' p' due' h => by rw [hresp] at h; cases h; exact hpad

/-- Outside a branch the pad is released. -/
theorem SecPadOk.of_idle {u : SecUnit} (hresp : u.resp = .idle) (hdue : u.padDue = none) (hpad : u.pad = .released) :
    SecPadOk u where
  outstanding := fun d hd => by rw [hdue] at hd; cases hd
  idle := fun _ => ⟨hpad, hdue⟩
  running := fun _ _ _ h => by rw [hresp] at h; cases h

/-- The clauses read the response and the pad alone. -/
theorem SecPadOk.congr {u v : SecUnit} (h : SecPadOk u) (hresp : v.resp = u.resp) (hpad : v.pad = u.pad)
    (hdue : v.padDue = u.padDue) : SecPadOk v := by
  obtain ⟨hout, hidle, hrun⟩ := h
  constructor <;> rw [hresp]
  · rw [hdue]; exact hout
  · rw [hpad, hdue]; exact hidle
  · rw [hpad, hdue]; exact hrun

theorem SecPadOk.pads {u : SecUnit} (t : Nat) (h : SecPadOk u) :
    SecPadOk { u with pad := padAfter t u.pad u.padDue, padDue := dueAfter t u.padDue } where
  outstanding := fun d hd => h.outstanding d (dueAfter_eq_some hd).1
  idle := fun hresp => by
    obtain ⟨hpad, hnone⟩ := h.idle hresp
    simp only [hnone]
    exact ⟨hpad, rfl⟩
  running := fun b p due hresp => by
    rw [padSoon_padAfter]
    exact h.running b p due hresp

/-- At the SEC main loop's turn no effect is outstanding. -/
theorem SecTurn.padDue {s : State} {b : EvtClass} {p : SecPoint} (ht : SecTurn s b p) (htime : TimeInv s)
    (h : SecPadOk s.sec) : s.sec.padDue = none := by
  obtain ⟨hph, hsp, hresp⟩ := ht
  cases hd : s.sec.padDue with
  | none => rfl
  | some d =>
    obtain ⟨b', p', hrun⟩ := h.outstanding d hd
    rw [hresp, SecResp.responding.injEq] at hrun
    obtain ⟨-, -, hnow⟩ := hrun
    rcases htime.secPad hsp d hd with hlt | ⟨-, hle⟩
    · exact absurd hnow (Nat.ne_of_lt hlt)
    · rw [hph] at hle
      exact absurd hle (by decide)

/-- Every statement of a branch keeps the clauses. -/
theorem SecPadOk.stmt {s : State} {b : EvtClass} {p : SecPoint} {u : SecUnit} (htime : TimeInv s)
    (hok : SecPadOk s.sec) (ht : SecTurn s b p) (h : SecStmt s b p u) : SecPadOk u := by
  have hnone := ht.padDue htime hok
  have hpad : p.padOk s.sec.pad := by
    have hrun := hok.running _ _ _ ht.2.2
    rw [hnone] at hrun
    exact hrun
  cases h with
  | bitTaken | bitDelivered | bitOverflow | bitDropped | replyBeyond | finishBit | finishRead | finishReset =>
    exact .of_idle rfl hnone hpad
  | replyStarts | presenceStarts =>
    have hreleased : s.sec.pad = .released := hpad
    refine .of_running rfl (fun d hd => by cases hd; rfl) ?_
    show applyEffect (.setDirection .output) s.sec.pad = .drivesHigh
    rw [hreleased]
    rfl
  | drive _ v =>
    have hhigh : s.sec.pad = .drivesHigh := hpad
    refine .of_running rfl (fun d hd => by cases hd; rfl) ?_
    show (applyEffect (.writeLevel v) s.sec.pad).dir = .output
    rw [hhigh]
    rfl
  | hold =>
    refine .of_running rfl (fun d hd => by rw [hnone] at hd; cases hd) ?_
    simp only [hnone]
    exact hpad
  | release => exact .of_running rfl (fun d hd => by cases hd; rfl) rfl

theorem SecPadOk.step {s s' : State} (htime : TimeInv s) (hok : SecPadOk s.sec) (e : step s = .next s') :
    SecPadOk s'.sec := by
  cases step_secMove e with
  | pads _ _ h => rw [h]; exact hok.pads s.t
  | polls _ _ hr _ _ h =>
    obtain ⟨hpad, hnone⟩ := hok.idle hr
    rw [h]
    refine .of_running rfl (fun d hd => by rw [hnone] at hd; cases hd) ?_
    simp only [hnone]
    exact hpad
  | stmt b p ht h => exact hok.stmt htime ht h
  | host _ _ _ _ _ h =>
    obtain ⟨hresp, hpad, hdue, -⟩ := h.times
    exact hok.congr hresp hpad hdue
  | kept h | schedules _ _ _ _ _ _ h | defers _ _ _ _ _ h | ignores _ _ _ h | pulseStarts _ _ _ _ h
  | pulseEnds _ _ _ _ _ _ _ h => exact hok.congr (by rw [h]) (by rw [h]) (by rw [h])

end Sys2Proof.Machine

namespace Sys2Proof.Proofs

open Sys2Proof Sys2Proof.Machine

/-- Settles O56: a statement finds its unit's pad with no effect outstanding, where the point says, and leaves it where
the next point says. -/
theorem padInvKept : Obligations.PadInvKept := by
  intro s s' hlegal _ hpri htime hpad e
  obtain ⟨hp, hs⟩ := (padInv_iff s).mp hpad
  exact (padInv_iff s').mpr ⟨hp.step hlegal hpri htime e, hs.step htime e⟩

end Sys2Proof.Proofs
end

section
/-! PROOFS. The line and the instant: the arbiter, the order of the phases, the line's invariant and a quiescent link
(spec/44_gpio_line.md R210, R211, R220; spec/10_state.md R51; spec/70_reset_and_hazards.md R296). -/

namespace Sys2Proof.Machine

/-! The arbiter. -/

/-- Where the pads do not contend the arbiter gives the line their level and makes no draw. -/
theorem resolveLine_of_settled {s : State} {lv : Level} (h : settledLevel s = some lv) :
    resolveLine s = { s with line := lv } := by
  unfold settledLevel at h
  unfold resolveLine
  cases hp : s.pri.pad.drive with
  | none => cases hs : secDrive s <;> rw [hp, hs] at h <;> cases h <;> rfl
  | some a =>
    cases hs : secDrive s with
    | none => rw [hp, hs] at h; cases h; rfl
    | some b =>
      rw [hp, hs] at h
      dsimp only at h ⊢
      split at h
      · cases h; exact if_pos ‹_›
      · cases h

/-- Where they contend the level is drawn and the contention recorded. -/
theorem resolveLine_of_contention {s : State} {a b : Level} (hp : s.pri.pad.drive = some a)
    (hs : secDrive s = some b) (hne : a ≠ b) :
    resolveLine s = { s with line := Config.drawLevel s.draws, contended := true }.afterDraw := by
  unfold resolveLine
  rw [hp, hs]
  exact if_neg hne

theorem settledLevel_of_undriven {s : State} (hp : s.pri.pad.drive = none) (hs : secDrive s = none) :
    settledLevel s = some .high := by
  rw [settledLevel, hp, hs]

theorem settledLevel_of_pri {s : State} {a : Level} (hp : s.pri.pad.drive = some a) (hs : secDrive s = none) :
    settledLevel s = some a := by
  rw [settledLevel, hp, hs]

theorem settledLevel_of_sec {s : State} {a : Level} (hp : s.pri.pad.drive = none) (hs : secDrive s = some a) :
    settledLevel s = some a := by
  rw [settledLevel, hp, hs]

theorem settledLevel_of_agreement {s : State} {a : Level} (hp : s.pri.pad.drive = some a)
    (hs : secDrive s = some a) : settledLevel s = some a := by
  rw [settledLevel, hp, hs]
  exact if_pos rfl

/-- The level the pads give is a matter of the pads and of the presence of the SEC unit. -/
theorem settledLevel_congr {s r : State} (hpar : r.par = s.par) (hpri : r.pri.pad = s.pri.pad)
    (hsec : r.sec.pad = s.sec.pad) : settledLevel r = settledLevel s := by
  rw [settledLevel, settledLevel, secDrive, secDrive, hpar, hpri, hsec]

/-- The line phase on pads that do not contend. -/
theorem linePhase_of_settled {s : State} {lv : Level} (h : settledLevel s = some lv) :
    (linePhase s).line = lv ∧ (linePhase s).contended = s.contended := by
  obtain ⟨-, -, -, -, hline, -, hcon, -⟩ := linePhase_frame s
  rw [hline, hcon, resolveLine_of_settled h]
  exact ⟨rfl, rfl⟩

/-- A line at rest passes its phase unchanged: no draw, no edge. -/
theorem linePhase_of_rest {s : State} (h : LineAtRest s) : linePhase s = s.withPhase .handler := by
  obtain ⟨hlevel, hprev⟩ := h
  have hsame : resolveLine s = s := resolveLine_of_settled hlevel
  unfold linePhase
  simp only [hsame, State.withPhase, hprev, ne_eq, not_true_eq_false, and_false, if_false]

/-- A recorded contention stays. -/
theorem resolveLine_contended {s : State} (h : s.contended = true) : (resolveLine s).contended = true := by
  rcases resolveLine_cases s with ⟨lv, -, e⟩ | ⟨a, b, -, -, -, e⟩ <;> rw [e]
  · exact h
  · rfl

/-! The pads outside phase 1. -/

theorem PriStmt.pad {s : State} {c : PriCmd} {sk : Bool} {p : PriPoint} {u : PriUnit} (h : PriStmt s c sk p u) :
    u.pad = s.pri.pad := by
  cases h <;> rfl

theorem SecStmt.pad {s : State} {b : EvtClass} {p : SecPoint} {u : SecUnit} (h : SecStmt s b p u) :
    u.pad = s.sec.pad := by
  cases h <;> rfl

/-- R212, R213: pad effects take place in phase 1 alone. -/
theorem step_keeps_pads {s s' : State} (e : step s = .next s') (hph : s.phase ≠ .pads) :
    s'.pri.pad = s.pri.pad ∧ s'.sec.pad = s.sec.pad := by
  constructor
  · cases step_priMove e with
    | kept h => rw [h]
    | pads h => exact absurd h hph
    | stmt _ _ _ _ _ h => exact h.pad
    | host _ _ _ _ _ h => exact h.seq.2.1
  · cases step_secMove e with
    | pads _ h => exact absurd h hph
    | stmt _ _ _ h => exact h.pad
    | host _ _ _ _ _ h => exact h.times.2.1
    | kept h | schedules _ _ _ _ _ _ h | defers _ _ _ _ _ h | ignores _ _ _ h | pulseStarts _ _ _ _ h
    | pulseEnds _ _ _ _ _ _ _ h | polls _ _ _ _ _ h => rw [h]

/-- Only two phases come before the handler's. -/
theorem Phase.two_le_index {p : Phase} (hpads : p ≠ .pads) (hline : p ≠ .line) : 2 ≤ p.index := by
  cases p with
  | pads => exact absurd rfl hpads
  | line => exact absurd rfl hline
  | _ => decide

theorem LineInv.step {s s' : State} (inv : LineInv s) (e : step s = .next s') : LineInv s' := by
  obtain ⟨hpar, hline, hbus⟩ := step_frame e
  have m := step_phaseMove e
  constructor
  case prev_eq =>
    by_cases hph : s.phase = .line
    · rw [step_line hph] at e
      cases e
      obtain ⟨-, -, -, -, -, hprev, -⟩ := linePhase_frame s
      exact hprev
    · obtain ⟨hl, hp, -⟩ := hline hph
      rw [hl, hp]
      exact inv.prev_eq
  case settled =>
    intro hlate lv hlv
    by_cases hpads : s.phase = .pads
    · rcases m.time with ⟨-, hsame | hnext⟩ | ⟨-, hhost, -⟩
      · rw [hsame, hpads] at hlate; exact absurd hlate (by decide)
      · rw [hnext, hpads] at hlate; exact absurd hlate (by decide)
      · rw [hpads] at hhost; cases hhost
    · obtain ⟨hpri, hsec⟩ := step_keeps_pads e hpads
      rw [settledLevel_congr hpar hpri hsec] at hlv
      by_cases hph : s.phase = .line
      · rw [step_line hph] at e
        cases e
        exact (linePhase_of_settled hlv).1
      · rw [(hline hph).1]
        exact inv.settled (Phase.two_le_index hpads hph) lv hlv
  case bus_only_in_host =>
    intro hnot
    refine hbus hnot ?_
    by_cases hph : s.phase = .host
    · cases m with
      | instantEnds _ hb => exact hb
      | stays _ _ hph' => exact absurd (hph'.trans hph) hnot
      | secWaits hw => rw [hw.1] at hph; cases hph
      | priWaits hw => rw [hw.1] at hph; cases hph
      | pads hph' | line hph' | handler hph' => rw [hph'] at hph; cases hph
    · exact inv.bus_only_in_host hph

/-! A quiescent link. -/

/-- R220: with no access left the instant is over. -/
theorem step_instantEnds {s : State} (hph : s.phase = .host) (hb : s.bus = []) :
    Machine.step s = .next (nextInstant s) := by
  rw [step_host hph, hostPhase, hb]

theorem Quiescent.secWaits {s : State} (h : Quiescent s) (hph : s.phase = .sec) : SecWaits s := by
  refine ⟨hph, fun _ => ⟨fun _ hp => ?_, fun b p due hr => ?_⟩⟩
  · rw [h.mailbox] at hp; cases hp
  · rw [h.response] at hr; cases hr

theorem Quiescent.priWaits {s : State} (h : Quiescent s) (hph : s.phase = .pri) : PriWaits s :=
  ⟨hph, fun c sk p due hr => by rw [h.sequencer] at hr; cases hr⟩

/-- With no effect scheduled phase 1 changes the phase alone. -/
theorem Quiescent.padsPhase {s : State} (h : Quiescent s) : padsPhase s = s.withPhase .line := by
  obtain ⟨hp, hs⟩ := h.pads
  have hpri : { s.pri with pad := padAfter s.t s.pri.pad none, padDue := dueAfter s.t none } = s.pri := by
    simp only [padAfter, dueAfter, ← hp]
  have hsec : { s.sec with pad := padAfter s.t s.sec.pad none, padDue := dueAfter s.t none } = s.sec := by
    simp only [padAfter, dueAfter, ← hs]
  rw [padsPhase_eq]
  simp only [hp, hs, hpri, hsec, ite_self]
  rfl

/-- In a quiescent link at rest every step but a host access is the passage to the next phase or instant. -/
theorem Quiescent.step {s s' : State} (h : Quiescent s) (hrest : LineAtRest s) (hb : s.bus = [])
    (e : step s = .next s') :
    s' = nextInstant s ∨ s' = enterHost s ∨ ∃ ph, s' = s.withPhase ph := by
  cases hph : s.phase with
  | pads => rw [step_pads hph, h.padsPhase] at e; cases e; exact .inr (.inr ⟨_, rfl⟩)
  | line => rw [step_line hph, linePhase_of_rest hrest] at e; cases e; exact .inr (.inr ⟨_, rfl⟩)
  | handler =>
    rw [step_handler hph] at e
    rcases handlerPhase_cases s with ⟨-, e'⟩ | ⟨-, hdue, -⟩
    · rw [e'] at e; cases e; exact .inr (.inr ⟨_, rfl⟩)
    · rw [h.request.2] at hdue; cases hdue
  | sec => rw [(h.secWaits hph).step_eq] at e; cases e; exact .inr (.inr ⟨_, rfl⟩)
  | pri => rw [(h.priWaits hph).step_eq] at e; cases e; exact .inr (.inl rfl)
  | host => rw [step_instantEnds hph hb] at e; cases e; exact .inl rfl

/-- Quiescence and the rest of the line are matters of the units, the line and the parameters. -/
theorem Quiescent.congr {s r : State} (h : Quiescent s) (hpri : r.pri = s.pri) (hsec : r.sec = s.sec) :
    Quiescent r := by
  obtain ⟨hseq, hresp, hmail, hreq, hclass, hpads⟩ := h
  constructor
  · rw [hpri]; exact hseq
  all_goals rw [hsec]
  · exact hresp
  · exact hmail
  · exact hreq
  · exact hclass
  · rw [hpri]; exact hpads

end Sys2Proof.Machine

namespace Sys2Proof.Proofs

open Sys2Proof Sys2Proof.Machine

/-- Settles O31: four cases without contention, whose level the arbiter gives without a draw, and the contention. -/
theorem lineResolution : Obligations.LineResolution := by
  intro s s' hph e
  rw [step_line hph] at e
  cases e
  refine ⟨fun hp hs => linePhase_of_settled (settledLevel_of_undriven hp hs),
    fun a hp hs => linePhase_of_settled (settledLevel_of_pri hp hs),
    fun a hp hs => linePhase_of_settled (settledLevel_of_sec hp hs),
    fun a hp hs => linePhase_of_settled (settledLevel_of_agreement hp hs), fun a b hp hs hne => ?_⟩
  obtain ⟨-, -, -, -, hline, -, hcon, hdraws, -⟩ := linePhase_frame s
  rw [resolveLine_of_contention hp hs hne] at hline hcon hdraws
  exact ⟨hline, hdraws, hcon⟩

/-- Settles O57: phase 2 sets the line and its previous level, and after it no step touches the line or the pads. -/
theorem lineInvKept : Obligations.LineInvKept := fun _ _ inv e => inv.step e

/-- Settles O58: every such step is a passage to the next phase or instant. -/
theorem quiescentStaysQuiescent : Obligations.QuiescentStaysQuiescent := by
  intro s s' h hrest hb e
  rcases h.step hrest hb e with rfl | rfl | ⟨ph, rfl⟩ <;>
    exact ⟨rfl, rfl, rfl, rfl, rfl, rfl, h.congr rfl rfl, hrest⟩

/-- Settles O34: by where a step leaves the instant, and by what each phase does with nothing due. -/
theorem timerAndConstants : Obligations.TimerAndConstants := by
  refine ⟨fun s s' e => ?step, fun s h => ?early, fun s hph h => ?handler, fun s hw => hw.step_eq,
    fun s hw => ⟨_, _, hw.step_eq⟩, fun s hph hb => ?host⟩
  case step =>
    obtain ⟨hpar, hline, -⟩ := step_frame e
    have m := step_phaseMove e
    refine ⟨hpar, fun hc => ?contended, fun hne => ?timer, fun hph => ?padsPass, fun hph => ?linePasses,
      fun hph => ?handlerPasses, fun hph hn => sec_phase_of_action hph e hn, fun hph hn => ?priStays,
      fun hph hb => ?hostStays⟩
    case contended =>
      by_cases hph : s.phase = .line
      · rw [step_line hph] at e
        cases e
        obtain ⟨-, -, -, -, -, -, hcon, -⟩ := linePhase_frame s
        rw [hcon]
        exact resolveLine_contended hc
      · rw [(hline hph).2.2]
        exact hc
    case timer =>
      cases m with
      | instantEnds hph hb => exact ⟨hph, hb⟩
      | pads _ ht | line _ ht | handler _ ht | secWaits _ ht | priWaits _ ht | stays _ ht => exact absurd ht hne
    case padsPass =>
      rw [step_pads hph] at e
      cases e
      rfl
    case linePasses =>
      rw [step_line hph] at e
      cases e
      rfl
    case handlerPasses =>
      obtain ⟨-, -, -, -, -, -, -, -, -, hphase, -⟩ := handler_step_frame hph e
      exact hphase
    case priStays =>
      rcases pri_step_cases hph e with ⟨-, hw⟩ | ⟨c, sk, p, -, rfl⟩
      · exact absurd hw hn
      · rw [priAct_pri]
        exact hph
    case hostStays =>
      cases hbus : s.bus with
      | nil => exact absurd hbus hb
      | cons a rest =>
        obtain ⟨bank, off, ht⟩ := HostTurn.of_step hph hbus e
        obtain ⟨-, -, -, -, -, -, -, -, -, hphase, -⟩ := ht.frame e
        exact hphase
  case early =>
    rcases h with hph | hph
    · exact ⟨_, step_pads hph⟩
    · exact ⟨_, step_line hph⟩
  case handler =>
    rw [step_handler hph]
    rcases handlerPhase_cases s with ⟨-, e⟩ | ⟨hsp, hdue, -⟩
    · exact e
    · rcases h with hn | hn
      · rw [hsp] at hn; cases hn
      · exact absurd hdue hn
  case host => exact step_instantEnds hph hb

end Sys2Proof.Proofs
end

section
/-! PROOFS. The two units side by side: what each shares with the other, the order of their actions in phase 4, and a
link without a SEC unit (spec/44_gpio_line.md R210, R212, R213; spec/20_memory.md R71; spec/10_state.md R50). -/

namespace Sys2Proof.Machine

/-! Phase 1 on one unit's pad. -/

theorem padsPhase_unit_due {t : Nat} {pad : Pad} {o : Option PadDue} {d : PadDue} (hd : o = some d) (hdue : d.due = t) :
    padAfter t pad o = applyEffect d.effect pad ∧ dueAfter t o = none := by
  subst hd
  exact padAfter_due pad hdue

/-! The order of the two units within phase 4: the sequencer reads nothing of the SEC unit and of the draws, the SEC main
loop nothing of the PRI unit. -/

/-- `s` with the SEC unit and the draw count replaced, which is all the SEC main loop can change in its phase. -/
def State.withSecDraws (u : SecUnit) (n : Nat) (s : State) : State := { s with sec := u, draws := n }

theorem State.withSecDraws_withPri (u : SecUnit) (n : Nat) (p : PriUnit) (s : State) :
    (s.withPri p).withSecDraws u n = (s.withSecDraws u n).withPri p := rfl

theorem finishInit_withSecDraws (u : SecUnit) (n : Nat) (s : State) :
    finishInit (s.withSecDraws u n) = (finishInit s).withSecDraws u n := by
  unfold finishInit
  dsimp only [State.withSecDraws, State.withPri]
  split <;> rfl

theorem calAct_withSecDraws (c : PriCmd) (sk : Bool) (q : CalPoint) (u : SecUnit) (n : Nat) (s : State) :
    calAct c sk q (s.withSecDraws u n) = (calAct c sk q s).withSecDraws u n := by
  cases q with
  | switch k =>
    rcases Nat.lt_or_ge k s.par.calNSwitch with hk | hk
    · rw [calAct_switch_of_lt c sk hk]; exact calAct_switch_of_lt c sk hk
    · rw [calAct_switch_of_le c sk hk]; exact calAct_switch_of_le c sk hk
  | write k =>
    rcases Nat.lt_or_ge k s.par.calNWrite with hk | hk
    · rw [calAct_write_of_lt c sk hk]; exact calAct_write_of_lt c sk hk
    · rw [calAct_write_of_le c sk hk, ← finishInit_withSecDraws]; exact calAct_write_of_le c sk hk
  | _ => rfl

theorem afterReset_withSecDraws (c : PriCmd) (sk : Bool) (u : SecUnit) (n : Nat) (s : State) :
    afterReset c sk (s.withSecDraws u n) = (afterReset c sk s).withSecDraws u n := by
  cases c with
  | init | reset => rfl
  | write =>
    cases hp : s.pri.presence with
    | true => rw [afterReset_write_of_present sk hp]; exact afterReset_write_of_present sk hp
    | false => rw [afterReset_write_of_absent sk hp]; exact afterReset_write_of_absent sk hp
  | read =>
    cases hp : s.pri.presence with
    | true => rw [afterReset_read_of_present sk hp]; exact afterReset_read_of_present sk hp
    | false => rw [afterReset_read_of_absent sk hp]; exact afterReset_read_of_absent sk hp

theorem resetAct_withSecDraws (c : PriCmd) (sk : Bool) (q : ResetPoint) (u : SecUnit) (n : Nat) (s : State) :
    resetAct c sk q (s.withSecDraws u n) = (resetAct c sk q s).withSecDraws u n := by
  cases q with
  | finish => exact afterReset_withSecDraws c sk u n s
  | _ => rfl

theorem writeAct_withSecDraws (c : PriCmd) (sk : Bool) (i : Nat) (q : WritePoint) (u : SecUnit) (n : Nat) (s : State) :
    writeAct c sk i q (s.withSecDraws u n) = (writeAct c sk i q s).withSecDraws u n := by
  cases q with
  | head =>
    rcases Nat.lt_or_ge i s.pri.cfg.p2s with hi | hi
    · rw [writeAct_head_of_lt c sk hi]; exact writeAct_head_of_lt c sk hi
    · rw [writeAct_head_of_le c sk hi]; exact writeAct_head_of_le c sk hi
  | _ => rfl

theorem readAct_withSecDraws (c : PriCmd) (sk : Bool) (i : Nat) (q : ReadPoint) (u : SecUnit) (n : Nat) (s : State) :
    readAct c sk i q (s.withSecDraws u n) = (readAct c sk i q s).withSecDraws u n := by
  cases q with
  | head =>
    rcases Nat.lt_or_ge i s.pri.cfg.s2p with hi | hi
    · rw [readAct_head_of_lt c sk hi]; exact readAct_head_of_lt c sk hi
    · rw [readAct_head_of_le c sk hi]; exact readAct_head_of_le c sk hi
  | _ => rfl

/-- The sequencer reads nothing of the SEC unit and makes no draw. -/
theorem priAct_withSecDraws (c : PriCmd) (sk : Bool) (p : PriPoint) (u : SecUnit) (n : Nat) (s : State) :
    priAct c sk p (s.withSecDraws u n) = (priAct c sk p s).withSecDraws u n := by
  cases p with
  | start => cases c <;> rfl
  | cal q => exact calAct_withSecDraws c sk q u n s
  | rst q => exact resetAct_withSecDraws c sk q u n s
  | wr i q => exact writeAct_withSecDraws c sk i q u n s
  | rd i q => exact readAct_withSecDraws c sk i q u n s

/-- An action that changes the SEC unit and the draws alone, and reads nothing of the PRI unit. -/
def SecOnly (f : State → State) : Prop :=
  ∀ s, ∃ u n, f s = s.withSecDraws u n ∧ ∀ p, f (s.withPri p) = (s.withPri p).withSecDraws u n

/-- R210: such an action and one of the sequencer give the same state in either order. -/
theorem SecOnly.comm_priAct {f : State → State} (hf : SecOnly f) (c : PriCmd) (sk : Bool) (p : PriPoint) (s : State) :
    priAct c sk p (f s) = f (priAct c sk p s) := by
  obtain ⟨u, n, hfs, hfp⟩ := hf s
  calc priAct c sk p (f s)
      = (priAct c sk p s).withSecDraws u n := by rw [hfs, priAct_withSecDraws]
    _ = (s.withPri (priAct c sk p s).pri).withSecDraws u n := by rw [← priAct_pri]
    _ = f (priAct c sk p s) := by rw [← hfp, ← priAct_pri]

theorem secOnly_withSec (f : State → SecUnit) (hf : ∀ s p, f (s.withPri p) = f s) :
    SecOnly fun s => s.withSec (f s) :=
  fun s => ⟨f s, s.draws, rfl, fun p => by dsimp only; rw [hf]; rfl⟩

theorem SecOnly.comp {f g : State → State} (hf : SecOnly f) (hg : SecOnly g) : SecOnly fun s => f (g s) := by
  intro s
  obtain ⟨u, n, hgs, hgp⟩ := hg s
  obtain ⟨u', n', hfs, hfp⟩ := hf (s.withSecDraws u n)
  refine ⟨u', n', ?_, fun p => ?_⟩
  · dsimp only; rw [hgs, hfs]; rfl
  · dsimp only; rw [hgp, State.withSecDraws_withPri, hfp]; rfl

theorem SecOnly.ite {f g : State → State} {q : State → Prop} [DecidablePred q] (hf : SecOnly f) (hg : SecOnly g)
    (hq : ∀ s p, q (s.withPri p) ↔ q s) : SecOnly fun s => if q s then f s else g s := by
  intro s
  by_cases h : q s
  · obtain ⟨u, n, hfs, hfp⟩ := hf s
    refine ⟨u, n, by dsimp only; rw [if_pos h, hfs], fun p => ?_⟩
    dsimp only
    rw [if_pos ((hq s p).mpr h), hfp]
  · obtain ⟨u, n, hgs, hgp⟩ := hg s
    refine ⟨u, n, by dsimp only; rw [if_neg h, hgs], fun p => ?_⟩
    dsimp only
    rw [if_neg (fun h' => h ((hq s p).mp h')), hgp]

theorem secOnly_id : SecOnly fun s => s := fun s => ⟨s.sec, s.draws, rfl, fun _ => rfl⟩

theorem secOnly_clearPending : SecOnly clearPending := by
  refine .ite (q := fun s => s.par.guardMode = .sourceDisable ∧ s.sec.irqLatch = true) ?_ ?_ fun _ _ => Iff.rfl
  · exact fun s => ⟨_, s.draws + 1, rfl, fun _ => rfl⟩
  · exact secOnly_withSec _ fun _ _ => rfl

theorem secOnly_takeBit (b : Bool) : SecOnly (takeBit b) := secOnly_withSec _ fun _ _ => rfl

theorem secOnly_deliver : SecOnly deliver :=
  .ite (secOnly_withSec _ fun _ _ => rfl) (secOnly_withSec _ fun _ _ => rfl) fun _ _ => Iff.rfl

theorem secOnly_deliverIfComplete : SecOnly deliverIfComplete := .ite secOnly_deliver secOnly_id fun _ _ => Iff.rfl

theorem secOnly_receiveBit (b : Bool) : SecOnly (receiveBit b) :=
  secOnly_clearPending.comp
    (.ite (secOnly_deliverIfComplete.comp (secOnly_takeBit b)) secOnly_id fun _ _ => Iff.rfl)

theorem secOnly_snapshotSendBuf : SecOnly snapshotSendBuf :=
  .ite (secOnly_withSec _ fun _ _ => rfl) secOnly_id fun _ _ => Iff.rfl

theorem secOnly_startReply : SecOnly startReply :=
  SecOnly.comp
    (f := fun s =>
      if s.sec.bitIndex < s.sec.cfg.s2p then
        secSetDirection .output .read (.drive (packetLevel s.sec.sendBuf s.sec.bitIndex)) s
      else clearPending s)
    (.ite (secOnly_withSec _ fun _ _ => rfl) secOnly_clearPending fun _ _ => Iff.rfl) secOnly_snapshotSendBuf

theorem secOnly_pollEvent : SecOnly pollEvent := secOnly_withSec _ fun _ _ => rfl

theorem secOnly_finishBranch (b : EvtClass) : SecOnly (finishBranch b) := by
  cases b with
  | bit1 | bit0 => exact secOnly_clearPending
  | read | reset => exact secOnly_clearPending.comp (secOnly_withSec _ fun _ _ => rfl)

theorem secOnly_secAct (b : EvtClass) (p : SecPoint) : SecOnly (secAct b p) := by
  cases p with
  | start => exact secOnly_id
  | drive | hold | release => exact secOnly_withSec _ fun _ _ => rfl
  | finish => exact secOnly_finishBranch b

/-- The start of each branch as an action of the SEC main loop. -/
theorem exec_evt_secOnly (b : EvtClass) :
    ∃ f, SecOnly f ∧ ∀ s, exec (decodeEvt b.code) s = .next (f s) := by
  cases b with
  | bit1 => exact ⟨_, secOnly_receiveBit true, fun s => exec_evt .bit1 s⟩
  | bit0 => exact ⟨_, secOnly_receiveBit false, fun s => exec_evt .bit0 s⟩
  | read => exact ⟨_, secOnly_startReply, fun s => exec_evt .read s⟩
  | reset => exact ⟨_, secOnly_withSec _ fun _ _ => rfl, fun s => exec_evt .reset s⟩

/-- A step of the host's turn with an access left performs it. -/
theorem step_access {s : State} {a : Access} {rest : List Access} (hph : s.phase = .host) (hb : s.bus = a :: rest) :
    step s = performAccess a (s.withBus rest) := by
  rw [step_host hph, hostPhase, hb]

/-- R198: bank S is refused where there is none. -/
theorem performAccess_of_absent {s : State} {a : Access} {off : Nat} (hl : locate s.par a.target = some (.S, off))
    (hsp : s.par.secPresent = false) : performAccess a s = .refused .secAbsent := by
  unfold performAccess
  rw [hl]
  exact if_pos ⟨rfl, hsp⟩

/-- R50: whatever a step does to the SEC unit, there is one. -/
theorem SecMove.kept_of_absent {s s' : State} (hsp : s.par.secPresent = false) (h : SecMove s s') :
    s'.sec = s.sec := by
  have absurdly : s.par.secPresent = true → s'.sec = s.sec := fun h => by rw [hsp] at h; cases h
  cases h with
  | kept h => exact h
  | stmt _ _ ht => exact absurdly ht.2.1
  | host _ _ _ _ ht => exact absurdly (ht.present rfl)
  | pads h | schedules _ h | defers h | ignores h | pulseStarts h | pulseEnds _ h | polls h => exact absurdly h

end Sys2Proof.Machine

namespace Sys2Proof.Proofs

open Sys2Proof Sys2Proof.Machine

/-- Settles O32: the frame of each phase, and phase 1 as one update, split by whether an effect is due. -/
theorem unitsShareOnlyTheLine : Obligations.UnitsShareOnlyTheLine := by
  refine ⟨fun s s' hph e => ?pri, fun s s' hph e => ?sec, fun s s' a rest bank off ht e => ?host, fun s hph => ?pads,
    fun p => ⟨rfl, rfl, fun v => rfl⟩⟩
  case pri =>
    rcases pri_step_cases hph e with ⟨rfl, -⟩ | ⟨c, sk, p, -, rfl⟩
    · exact ⟨rfl, rfl, rfl, rfl, rfl⟩
    · rw [priAct_pri]
      exact ⟨rfl, rfl, rfl, rfl, rfl⟩
  case sec =>
    rcases hph with hph | hph
    · obtain ⟨hpri, -, ht, hline, hprev, hcon, -⟩ := handler_step_frame hph e
      exact ⟨hpri, hline, hprev, hcon, ht⟩
    · obtain ⟨-, ht, hline, hprev, hcon, hpri, -⟩ := sec_step_frame hph e
      exact ⟨hpri, hline, hprev, hcon, ht⟩
  case host =>
    obtain ⟨hsec, hpri, -, htime, hline, hprev, hcon, -, hbus, -⟩ := ht.frame e
    have hnot : s.phase ≠ .pads := by rw [ht.phase]; simp
    obtain ⟨hppad, hspad⟩ := step_keeps_pads e hnot
    have hpdue : s'.pri.padDue = s.pri.padDue := by
      cases ht.priMove e with
      | kept h => rw [h]
      | pads h => exact absurd h hnot
      | stmt _ _ _ h => exact absurd (ht.phase.symm.trans h.1) (by simp)
      | host _ _ _ _ _ h => exact h.seq.1
    have hsdue : s'.sec.padDue = s.sec.padDue := by
      rcases ht.keepsUnits_or_writes e with ⟨-, h⟩ | ⟨tgt, v, rfl, hw⟩
      · rw [h]
      · rcases regWrite_sec_cases hw with h | ⟨-, h⟩
        · rw [h]; rfl
        · exact h.times.2.2.1
    exact ⟨hsec, hpri, hppad, hpdue, hspad, hsdue, hline, hprev, hcon, htime, hbus⟩
  case pads =>
    refine ⟨_, _, (step_pads hph).trans (congrArg _ (padsPhase_eq s)), fun d hd hdue => ?_, fun hwait => ?_,
      fun d hsp hd hdue => ?_, fun hwait => ?_⟩
    · obtain ⟨hpad, hnone⟩ := padsPhase_unit_due (pad := s.pri.pad) hd hdue
      rw [hpad, hnone]
    · obtain ⟨hpad, hsame⟩ := padAfter_waits s.pri.pad hwait
      rw [hpad, hsame]
    · obtain ⟨hpad, hnone⟩ := padsPhase_unit_due (pad := s.sec.pad) hd hdue
      rw [if_pos hsp, hpad, hnone]
    · split
      · obtain ⟨hpad, hsame⟩ := padAfter_waits s.sec.pad (hwait ‹_›)
        rw [hpad, hsame]
      · rfl

/-- Settles O33: each action of the SEC main loop reads and writes the SEC unit and the draws alone, the sequencer
neither. -/
theorem unitOrderInPhase4 : Obligations.UnitOrderInPhase4 := by
  intro s c sk p
  refine ⟨fun b q => (secOnly_secAct b q).comm_priAct c sk p s, secOnly_pollEvent.comm_priAct c sk p s, fun b => ?_,
    fun b => (secOnly_receiveBit b).comm_priAct c sk p s, secOnly_startReply.comm_priAct c sk p s⟩
  obtain ⟨f, hf, hexec⟩ := exec_evt_secOnly b
  exact ⟨f s, hexec s, by rw [hexec, hf.comm_priAct]⟩

/-- Settles O51: an access to bank S is refused at once, and every move of a step on the SEC unit needs one. -/
theorem absentSec : Obligations.AbsentSec := by
  refine ⟨fun s a rest off hsp hph hb hl => ?_, fun s s' hsp e => (step_secMove e).kept_of_absent hsp,
    fun s hsp => ⟨?_, ?_⟩⟩
  · rw [step_access hph hb, performAccess_of_absent (s := s.withBus rest) hl hsp]
  · rw [secDrive, hsp]
    rfl
  · rw [secIrq, hsp, Bool.false_and]

/-- Settles O52: at the sample the PRI pad is released with no effect outstanding, so the line is undriven and HIGH. -/
theorem absentSecNoPresence : Obligations.AbsentSecNoPresence := by
  intro s s' c sk hsp htime hpads hline ht e
  obtain ⟨hpri, -⟩ := (padInv_iff s).mp hpads
  have hpad : s.pri.pad = .released := by
    have hrun := hpri.running _ _ _ _ ht.2 (by simp)
    rw [ht.padDue htime hpri] at hrun
    exact hrun
  have hlevel : settledLevel s = some .high :=
    settledLevel_of_undriven (by rw [hpad]; rfl) (by rw [secDrive, hsp]; rfl)
  have hhigh : s.line = .high := hline.settled (by rw [ht.1]; decide) _ hlevel
  rw [ht.step_eq] at e
  cases e
  show decide (s.line = .low) = false
  rw [hhigh]
  rfl

end Sys2Proof.Proofs
end

section
/-! PROOFS. Decode and encode agree: a word of each format is put together again from the fields its decoder reads
(spec/30_encoding.md R80 to R93). -/

namespace Sys2Proof

/-- R81: a PRI word without reserved bits is its bit 4 and its OP. -/
theorem word_of_priFields {w : Word} {op : Nat} {skip : Bool} (hr : w.extractLsb' 5 27 = 0#27)
    (hs : w.getLsbD 4 = skip) (ho : (opField w).toNat = op) : w = BitVec.ofNat 32 (16 * skip.toNat + op) := by
  have hlow : w.toNat / 2 ^ 5 % 2 ^ 27 = 0 := by
    simpa [BitVec.extractLsb'_toNat, Nat.shiftRight_eq_div_pow] using congrArg BitVec.toNat hr
  have hop : w.toNat % 2 ^ 4 = op := by
    simpa [opField, BitVec.extractLsb'_toNat] using ho
  have hskip : w.toNat / 2 ^ 4 % 2 = skip.toNat := by
    rw [← hs, BitVec.getLsbD, Nat.toNat_testBit]
  have hlt := w.isLt
  refine BitVec.eq_of_toNat_eq ?_
  rw [BitVec.toNat_ofNat]
  omega

/-- R82: a SEC word without reserved bits is its OP. -/
theorem word_of_secFields {w : Word} {op : Nat} (hr : w.extractLsb' 4 28 = 0#28) (ho : (opField w).toNat = op) :
    w = BitVec.ofNat 32 op := by
  have hlow : w.toNat / 2 ^ 4 % 2 ^ 28 = 0 := by
    simpa [BitVec.extractLsb'_toNat, Nat.shiftRight_eq_div_pow] using congrArg BitVec.toNat hr
  have hop : w.toNat % 2 ^ 4 = op := by
    simpa [opField, BitVec.extractLsb'_toNat] using ho
  have hlt := w.isLt
  refine BitVec.eq_of_toNat_eq ?_
  rw [BitVec.toNat_ofNat]
  omega

/-- R88: a SEC_EDGE word without reserved bits is its vector. -/
theorem word_of_edgeVector {w : Word} (hr : w.extractLsb' 3 29 = 0#29) : (w.extractLsb' 0 3).setWidth 32 = w := by
  have hlow : w.toNat / 2 ^ 3 % 2 ^ 29 = 0 := by
    simpa [BitVec.extractLsb'_toNat, Nat.shiftRight_eq_div_pow] using congrArg BitVec.toNat hr
  have hlt := w.isLt
  refine BitVec.eq_of_toNat_eq ?_
  rw [BitVec.toNat_setWidth, BitVec.extractLsb'_toNat]
  simp only [Nat.shiftRight_zero]
  omega

/-- R89: a SEC_EVT word without reserved bits is its class. -/
theorem word_of_evtClass {w : Word} (hr : w.extractLsb' 2 30 = 0#30) : (w.extractLsb' 0 2).setWidth 32 = w := by
  have hlow : w.toNat / 2 ^ 2 % 2 ^ 30 = 0 := by
    simpa [BitVec.extractLsb'_toNat, Nat.shiftRight_eq_div_pow] using congrArg BitVec.toNat hr
  have hlt := w.isLt
  refine BitVec.eq_of_toNat_eq ?_
  rw [BitVec.toNat_setWidth, BitVec.extractLsb'_toNat]
  simp only [Nat.shiftRight_zero]
  omega

/-- A vector is the one of the instruction it decodes to: eight vectors. -/
theorem encode_decodeEdge (v : BitVec 3) : encode (decodeEdge v) = ⟨.secEdge, v.setWidth 32⟩ := by
  revert v
  decide

/-- A class is the one of the instruction it decodes to: four classes. -/
theorem encode_decodeEvt (v : BitVec 2) : encode (decodeEvt v) = ⟨.secEvt, v.setWidth 32⟩ := by
  revert v
  decide

theorem encode_of_decodePri {w : Word} {i : Instr} (h : decodePri w = .ok i) : encode i = ⟨.priCmd, w⟩ := by
  unfold decodePri at h
  split at h
  · cases h
  · rename_i hr
    have hr := not_not.mp hr
    split at h
    case h_1 ho | h_2 ho =>
      split at h
      · cases h
      · cases h
        rw [word_of_priFields hr (Bool.eq_false_iff.mpr ‹_›) ho]
        rfl
    case h_3 ho | h_4 ho =>
      split at h
      · cases h
        rw [word_of_priFields hr ‹_› ho]
        rfl
      · cases h
        rw [word_of_priFields hr (Bool.eq_false_iff.mpr ‹_›) ho]
        rfl
    case h_5 => cases h

theorem encode_of_decodeSec {w : Word} {i : Instr} (h : decodeSec w = .ok i) : encode i = ⟨.secCmd, w⟩ := by
  unfold decodeSec at h
  split at h
  · cases h
  · rename_i hr
    have hr := not_not.mp hr
    split at h
    case h_1 ho | h_2 ho =>
      cases h
      rw [word_of_secFields hr ho]
      rfl
    case h_3 => cases h

/-- No other word than the encoder's is accepted. -/
theorem encode_of_decode {c : Code} {i : Instr} (h : decode c = .ok i) : encode i = c := by
  obtain ⟨fmt, w⟩ := c
  cases fmt with
  | priCmd => exact encode_of_decodePri h
  | secCmd => exact encode_of_decodeSec h
  | secEdge =>
    simp only [decode] at h
    split at h
    · cases h
    · cases h
      rw [encode_decodeEdge, word_of_edgeVector (not_not.mp ‹_›)]
  | secEvt =>
    simp only [decode] at h
    split at h
    · cases h
    · cases h
      rw [encode_decodeEvt, word_of_evtClass (not_not.mp ‹_›)]

/-- The encoder's word of an instruction decodes to it, ill-formed drops included. -/
theorem decode_encode (i : Instr) : decode (encode i) = .ok i := by
  cases i with
  | edgeDrop isr lv => cases isr <;> cases lv <;> rfl
  | edgeEnd lv => cases lv <;> rfl
  | _ => rfl

end Sys2Proof

namespace Sys2Proof.Proofs

open Sys2Proof Sys2Proof.Machine

/-- Settles O1: the decoders on the words of the tables. -/
theorem commandWordsDecode : Obligations.CommandWordsDecode :=
  ⟨⟨rfl, rfl, rfl, rfl, rfl, rfl⟩, ⟨rfl, rfl⟩, ⟨rfl, rfl, rfl, rfl, rfl, rfl, rfl, rfl⟩, rfl, rfl, rfl, rfl⟩

/-- Settles O2: a decoded word is rebuilt from its fields, and an encoded instruction decodes to itself. -/
theorem decodeEncodeAgree : Obligations.DecodeEncodeAgree := fun _ i =>
  ⟨encode_of_decode, fun h => h ▸ decode_encode i⟩

end Sys2Proof.Proofs
end

section
/-! PROOFS. The arithmetic of the profile and of the timing conditions (spec/40_timing_profile.md R101, R102;
spec/70_reset_and_hazards.md R281, R287). -/

namespace Sys2Proof.Machine

/-- R180: the class of a duration by the ceilings T, 2T and 3T. -/
theorem classify_profile (T : Nat) (d : Word) :
    classify (profile T) d =
      if d.toNat ≤ T then .bit1 else if d.toNat ≤ 2 * T then .bit0 else if d.toNat ≤ 3 * T then .read else .reset :=
  rfl

theorem classify_eq_bit1 {T : Nat} {d : Word} : classify (profile T) d = .bit1 ↔ d.toNat ≤ T := by
  rw [classify_profile]
  split_ifs <;> simp <;> omega

theorem classify_eq_bit0 {T : Nat} {d : Word} :
    classify (profile T) d = .bit0 ↔ T < d.toNat ∧ d.toNat ≤ 2 * T := by
  rw [classify_profile]
  split_ifs <;> simp <;> omega

theorem classify_eq_read {T : Nat} {d : Word} :
    classify (profile T) d = .read ↔ 2 * T < d.toNat ∧ d.toNat ≤ 3 * T := by
  rw [classify_profile]
  split_ifs <;> simp <;> omega

theorem classify_eq_reset {T : Nat} {d : Word} : classify (profile T) d = .reset ↔ 3 * T < d.toNat := by
  rw [classify_profile]
  split_ifs <;> simp <;> omega

/-- R123: the eight comparisons of the check come down to two. -/
theorem calOk_profile (T sw wr : Nat) : calOk (profile T) sw wr = true ↔ wr ≤ T / 2 ∧ sw ≤ T / 2 := by
  rw [calOk_iff]
  simp only [profile]
  omega

end Sys2Proof.Machine

namespace Sys2Proof.Proofs

open Sys2Proof Sys2Proof.Machine

/-- Settles O35: each clause by the profile's multiples of T. -/
theorem profileArithmetic : Obligations.ProfileArithmetic := by
  intro T
  refine ⟨?slots, ?ceilings,
    fun d => ⟨classify_eq_bit1, classify_eq_bit0, classify_eq_read, classify_eq_reset⟩, calOk_profile T⟩
  case slots => simp only [profile]; omega
  case ceilings => simp only [profile]; omega

/-- Settles O36: the measured duration differs from the pulse by at most the jitter, which R281's conditions allow. -/
theorem pulsesFallInTheirClasses : Obligations.PulsesFallInTheirClasses := by
  intro p T _ hclass first second d hf1 hf2 hs1 hs2
  obtain ⟨hwrite1, hwrite0, hwrite0', hread, hread', hreset, -⟩ := hclass
  refine ⟨fun h => classify_eq_bit1.mpr ?_, fun h => classify_eq_bit0.mpr ?_, fun h => classify_eq_read.mpr ?_,
    fun h => classify_eq_reset.mpr ?_⟩ <;> omega

/-- Settles O37: for each row the conditions of R281, R282 and R284 are linear in T and its halves. -/
theorem minimumSlot : Obligations.MinimumSlot := by
  refine ⟨fun T => ?_, fun T => ?_, fun T => ?_, fun T => ?_⟩
  all_goals
    simp only [timingOk, classifiesWell, mailboxFree, sampleWindowsOpen, pulses, Params.defaults]
    omega

end Sys2Proof.Proofs
end

section
/-! PROOFS. The host's side: what a step of the host's turn does with a command word, a register or a line of the
program (spec/20_memory.md R60 to R63; spec/30_encoding.md R83, R94; spec/10_state.md R21 to R44). -/

namespace Sys2Proof.Machine

/-! Command words. -/

theorem commandPri_of_ok {w : Word} {i : Instr} (h : decodePri w = .ok i) (s : State) :
    commandPri w s = exec i s := by
  rw [commandPri, h]

theorem commandSec_of_ok {w : Word} {i : Instr} (h : decodeSec w = .ok i) (s : State) :
    commandSec w s = exec i s := by
  rw [commandSec, h]

/-- R161: the entry that is due runs the case of its vector. -/
theorem handlerPhase_of_due {s : State} (hsp : s.par.secPresent = true) (hdue : s.sec.isrDueAt = some s.t) :
    handlerPhase s = exec (decodeEdge (vectorAtEntry s)) (handlerEntry s) := if_pos ⟨hsp, hdue⟩

/-- R180: the poll that is due classifies the event. -/
theorem secPhase_of_poll {s : State} (hsp : s.par.secPresent = true) (hr : s.sec.resp = .idle)
    (hp : s.sec.pending = true) (hpoll : s.sec.pollAt = s.t) : secPhase s = .next (pollEvent s) := by
  rcases secPhase_cases s with ⟨-, h⟩ | ⟨-, -, -, -, h⟩ | ⟨b, -, h, -⟩ | ⟨b, p, -, -, h, -⟩
  · rcases h hsp with ⟨-, hn⟩ | ⟨b, p, due, hrun, -⟩
    · exact absurd ⟨hp, hpoll⟩ hn
    · rw [hr] at hrun; cases hrun
  · exact h
  · rw [hr] at h; cases h
  · rw [hr] at h; cases h

/-! The checks of R120, one equation for each outcome. -/

theorem priCommand_of_busy (c : PriCmd) (sk : Bool) {s : State} (hb : s.pri.busy = true) :
    priCommand c sk s = raisePri .busy s := if_pos hb

theorem priCommand_of_notReady {c : PriCmd} (sk : Bool) {s : State} (hc : c ≠ .init) (hb : s.pri.busy = false)
    (hr : s.pri.ready = false) : priCommand c sk s = raisePri .notReady s :=
  (if_neg (Bool.eq_false_iff.mp hb)).trans (if_pos ⟨hc, hr⟩)

theorem priCommand_of_illegal (sk : Bool) {s : State} (hb : s.pri.busy = false) (hc : s.pri.cfg.legal = false) :
    priCommand .init sk s = raisePri .cfg s :=
  (if_neg (Bool.eq_false_iff.mp hb)).trans ((if_neg fun h => h.1 rfl).trans (if_pos ⟨rfl, hc⟩))

theorem priCommand_init_of_legal (sk : Bool) {s : State} (hb : s.pri.busy = false) (hc : s.pri.cfg.legal = true) :
    priCommand .init sk s = acceptPri .init sk s := by
  rcases priCommand_cases .init sk s with ⟨h, -⟩ | ⟨-, h, -⟩ | ⟨-, -, h, -⟩ | ⟨-, -, -, h⟩
  · rw [hb] at h; cases h
  · exact absurd rfl h
  · rw [hc] at h; cases h
  · exact h

theorem priCommand_of_ready {c : PriCmd} (sk : Bool) {s : State} (hc : c ≠ .init) (hb : s.pri.busy = false)
    (hr : s.pri.ready = true) : priCommand c sk s = acceptPri c sk s := by
  rcases priCommand_cases c sk s with ⟨h, -⟩ | ⟨-, -, h, -⟩ | ⟨-, h, -⟩ | ⟨-, -, -, h⟩
  · rw [hb] at h; cases h
  · rw [hr] at h; cases h
  · exact absurd h hc
  · exact h

/-! Registers. -/

/-- The step of an aligned word read: the bus answers with the register's word (R63). -/
theorem HostTurn.step_read {s : State} {tgt : Target} {rest : List Access} {bank : Bank} {off : Nat}
    (h : HostTurn s (.rd tgt .w32) rest bank off) (ha : off % 4 = 0) :
    step s = .next { s with bus := rest, reply := { data := regRead bank off s, error := false } } := by
  have hok : busOk (Access.rd tgt .w32).width off = true := by simp [busOk, Access.width, ha]
  rw [h.step_eq, if_pos hok]
  rfl

/-- The step of an aligned poll (R94). -/
theorem HostTurn.step_poll {s : State} {tgt : Target} {m v : Word} {rest : List Access} {bank : Bank} {off : Nat}
    (h : HostTurn s (.poll tgt m v) rest bank off) (ha : off % 4 = 0) :
    step s = .next (afterPoll tgt m v
      { s with bus := rest, reply := { data := regRead bank off s, error := false } }) := by
  have hok : busOk (Access.poll tgt m v).width off = true := by simp [busOk, Access.width, ha]
  rw [h.step_eq, if_pos hok]
  rfl

/-- The step of an access the bus does not carry (R62). -/
theorem HostTurn.step_busError {s : State} {a : Access} {rest : List Access} {bank : Bank} {off : Nat}
    (h : HostTurn s a rest bank off) (hbad : a.width ≠ .w32 ∨ off % 4 ≠ 0) :
    step s = .next (refuseAccess a (s.withBus rest)) := by
  have hok : ¬busOk a.width off = true := by
    simp only [busOk, Bool.and_eq_true, beq_iff_eq]
    rintro ⟨hw, ho⟩
    exact hbad.elim (fun h => h hw) fun h => h ho
  rw [h.step_eq, if_neg hok]

/-- R61: offsets from 0x20 up are reserved in bank P. -/
theorem priRegAt_reserved {off : Nat} (h : 0x20 ≤ off) : priRegAt off = .reserved := by
  unfold priRegAt
  split <;> first | rfl | omega

/-- R61: offsets from 0x2C up are reserved in bank S. -/
theorem secRegAt_reserved {off : Nat} (h : 0x2C ≤ off) : secRegAt off = .reserved := by
  unfold secRegAt
  split <;> first | rfl | omega

/-- R44: a write of a register of bank P that takes none leaves the unit as it is. -/
theorem HostTurn.step_writePri_ignored {s : State} {tgt : Target} {v : Word} {rest : List Access} {off : Nat}
    (h : HostTurn s (.wr tgt .w32 v) rest .P off) (ha : off % 4 = 0)
    (hr : priRegAt off = .rxData ∨ priRegAt off = .cal ∨ priRegAt off = .now ∨ priRegAt off = .reserved) :
    step s = .next { s with bus := rest, reply := { data := 0#32, error := false } } := by
  rw [h.step_writePri ha (by rcases hr with hr | hr | hr | hr <;> simp [hr])]
  rcases hr with hr | hr | hr | hr <;> rw [hr] <;> rfl

/-- R44: the registers of bank S from 0x1C up are read-only or reserved. -/
theorem secRegAt_ignores {off : Nat} (h : off = 0x10 ∨ off = 0x14 ∨ 0x1C ≤ off) :
    secRegAt off ≠ .cmd ∧ ∀ v s, writeSec (secRegAt off) v s = s := by
  rcases h with rfl | rfl | h
  · exact ⟨by decide, fun _ _ => rfl⟩
  · exact ⟨by decide, fun _ _ => rfl⟩
  · unfold secRegAt
    split <;> first | omega | exact ⟨by simp, fun _ _ => rfl⟩

/-- R61: the read-only and reserved registers of bank P. -/
theorem priRegAt_ignored {off : Nat} (h : off = 0x10 ∨ off = 0x14 ∨ off = 0x1C ∨ 0x20 ≤ off) :
    priRegAt off = .rxData ∨ priRegAt off = .cal ∨ priRegAt off = .now ∨ priRegAt off = .reserved := by
  rcases h with rfl | rfl | rfl | h
  · exact .inl rfl
  · exact .inr (.inl rfl)
  · exact .inr (.inr (.inl rfl))
  · exact .inr (.inr (.inr (priRegAt_reserved h)))

/-! Where fields stand in a word. -/

theorem fieldAt_getLsbD {n : Nat} (k : Nat) (v : BitVec n) (i : Nat) (hi : i < 32) :
    (fieldAt k v).getLsbD i = (decide (k ≤ i) && v.getLsbD (i - k)) := by
  rw [fieldAt, BitVec.getLsbD_shiftLeft, BitVec.getLsbD_setWidth]
  by_cases hk : k ≤ i
  · simp [hi, hk, show ¬i < k by omega, show i - k < 32 by omega]
  · simp [hk, show i < k by omega]

theorem flagAt_getLsbD (k : Nat) (b : Bool) (i : Nat) (hi : i < 32) :
    (flagAt k b).getLsbD i = (decide (i = k) && b) := by
  rw [flagAt, fieldAt_getLsbD k _ i hi, BitVec.getLsbD_ofBool]
  by_cases hik : i = k
  · simp [hik]
  · by_cases hk : k ≤ i
    · simp [hik, show ¬i - k = 0 by omega]
    · simp [hik, hk]

/-- A field that fits below bit 32 is its value times the weight of its lowest bit. -/
theorem fieldAt_toNat {n k : Nat} (v : BitVec n) (h : n + k ≤ 32) : (fieldAt k v).toNat = v.toNat * 2 ^ k := by
  have hv := v.isLt
  have hpow : 2 ^ n * 2 ^ k ≤ 2 ^ 32 := by rw [← pow_add]; exact Nat.pow_le_pow_right (by omega) h
  have hfit : v.toNat * 2 ^ k < 2 ^ 32 := Nat.lt_of_lt_of_le (Nat.mul_lt_mul_of_pos_right hv (by positivity)) hpow
  have hsmall : v.toNat < 2 ^ 32 := Nat.lt_of_le_of_lt (Nat.le_mul_of_pos_right _ (by positivity)) hfit
  rw [fieldAt, BitVec.toNat_shiftLeft, BitVec.toNat_setWidth, Nat.mod_eq_of_lt hsmall, Nat.shiftLeft_eq,
    Nat.mod_eq_of_lt hfit]

end Sys2Proof.Machine

namespace Sys2Proof.Proofs

open Sys2Proof Sys2Proof.Machine

/-- Settles O4: at each of the three fetch points the step is `exec` of what the decoder answers; the poll is a
step of its own. -/
theorem stepRunsDecodedInstruction : Obligations.StepRunsDecodedInstruction := by
  refine ⟨fun s tgt w rest i h hw => ?priWord, fun s tgt w rest i h hw => ?secWord, fun s hph hsp hdue => ?entry,
    fun s b h => h.step_start, fun s hph hsp hr hp hpoll => ?poll⟩
  case priWord => rw [h.step_commandPri, commandPri_of_ok hw]; rfl
  case secWord => rw [h.step_commandSec, commandSec_of_ok hw]; rfl
  case entry => rw [step_handler hph, handlerPhase_of_due hsp hdue]; rfl
  case poll => rw [step_sec hph, secPhase_of_poll hsp hr hp hpoll]; rfl

/-- Settles O5: with the checks passed, each command is its acceptance. -/
theorem priCommandsAccepted : Obligations.PriCommandsAccepted := by
  refine ⟨fun s hb hc => ?init, fun s hb hr => ?others⟩
  case init => exact congrArg _ (priCommand_init_of_legal false hb ((CfgReg.legal_iff _).mpr hc))
  case others =>
    have accepted (c : PriCmd) (sk : Bool) (hc : c ≠ .init) : priCommand c sk s = acceptPri c sk s :=
      priCommand_of_ready sk hc hb hr
    exact ⟨congrArg _ (accepted .reset false (by decide)), congrArg _ (accepted .write false (by decide)),
      congrArg _ (accepted .write true (by decide)), congrArg _ (accepted .read false (by decide)),
      congrArg _ (accepted .read true (by decide))⟩

/-- Settles O6: each failing check, met in R120's order, raises its code and nothing else. -/
theorem priCommandsRefused : Obligations.PriCommandsRefused := by
  refine ⟨fun s i hi hb => ?busy, fun s i hi hb hr => ?notReady, fun s hb hc => ?cfg⟩
  case busy =>
    have refused (c : PriCmd) (sk : Bool) : priCommand c sk s = raisePri .busy s := priCommand_of_busy c sk hb
    rcases hi with rfl | rfl | rfl | rfl | rfl | rfl <;> exact congrArg _ (refused _ _)
  case notReady =>
    have refused (c : PriCmd) (sk : Bool) (hc : c ≠ .init) : priCommand c sk s = raisePri .notReady s :=
      priCommand_of_notReady sk hc hb hr
    rcases hi with rfl | rfl | rfl | rfl | rfl <;> exact congrArg _ (refused _ _ (by decide))
  case cfg => exact congrArg _ (priCommand_of_illegal false hb ((CfgReg.legal_false _).mpr hc))

/-- Settles O39: each bank's write of CFG is refused by its one condition and else stores. -/
theorem cfgWrites : Obligations.CfgWrites := by
  refine ⟨fun s tgt v rest h => ?pri, fun s tgt v rest h => ?sec⟩
  case pri =>
    rw [h.step_writePri rfl (by decide)]
    exact ⟨fun hb => congrArg _ (writePriCfg_of_busy v hb), fun hb => congrArg _ (writePriCfg_of_free v hb)⟩
  case sec =>
    rw [h.step_writeSec rfl (by decide)]
    exact ⟨fun hp => congrArg _ (writeSecCfg_of_pending v hp), fun hp => congrArg _ (writeSecCfg_of_free v hp)⟩

/-- Settles O40: these four writes have no condition. -/
theorem dataAndEnableWrites : Obligations.DataAndEnableWrites :=
  ⟨fun _ _ _ _ h => h.step_writePri rfl (by decide), fun _ _ _ _ h => h.step_writePri rfl (by decide),
    fun _ _ _ _ h => h.step_writeSec rfl (by decide), fun _ _ _ _ h => h.step_writeSec rfl (by decide)⟩

/-- Settles O41: such a write leaves its bank as it is, and a reserved offset's word is 0. -/
theorem readOnlyAndReserved : Obligations.ReadOnlyAndReserved := by
  refine ⟨fun s tgt v rest off h ha _ ho => h.step_writePri_ignored ha (priRegAt_ignored ho),
    fun s tgt v rest off h ha _ ho => ?secWrite, fun s tgt rest off h ha ho _ => ?priRead,
    fun s tgt rest off h ha ho _ => ?secRead⟩
  case secWrite =>
    obtain ⟨hcmd, hsame⟩ := secRegAt_ignores ho
    rw [h.step_writeSec ha hcmd, hsame]
    rfl
  case priRead =>
    have hword : regRead .P off s = 0#32 := by rw [regRead, priRegAt_reserved ho]; rfl
    rw [h.step_read ha, hword]
  case secRead =>
    have hword : regRead .S off s = 0#32 := by rw [regRead, secRegAt_reserved ho]; rfl
    rw [h.step_read ha, hword]

/-- Settles O44: the banks' addresses are multiples of 64 apart, and an access outside them, or one that is no
aligned word, is turned away before it reaches a register. -/
theorem busError : Obligations.BusError := by
  refine ⟨fun p off hp ho => ?located, fun s a rest bank off h hpoll hbad => ?refused,
    fun s a rest hph hbus hl => ?outside⟩
  case located =>
    obtain ⟨-, -, -, -, -, -, -, -, -, -, -, -, hP, hS, hne⟩ := hp
    have inP : p.pBase ≤ p.pBase + off ∧ p.pBase + off < p.pBase + 64 := by omega
    have notP : ¬(p.pBase ≤ p.sBase + off ∧ p.sBase + off < p.pBase + 64) := by omega
    have inS : p.sBase ≤ p.sBase + off ∧ p.sBase + off < p.sBase + 64 := by omega
    simp only [locate, if_pos inP, if_neg notP, if_pos inS, Nat.add_sub_cancel_left, and_self]
  case refused =>
    rw [h.step_busError hbad]
    cases a with
    | rd tgt w => rfl
    | wr tgt w v => rfl
    | poll tgt m v => exact absurd rfl (hpoll tgt m v)
  case outside =>
    have hnone : locate (s.withBus rest).par a.target = none := hl
    rw [step_access hph hbus, performAccess, hnone]

/-- Settles O45: a poll goes on or puts its line back; a sequencer that waits fetches the next line, and `idle 0` is
no line. -/
theorem hostLines : Obligations.HostLines := by
  refine ⟨fun s bank off m v rest h ha => ?poll, fun s as rest hw hp => ?_, fun s tgt m v rest hw hp => ?_,
    fun s n rest hw hp => ?_, fun s rest hw hp => ?idleOver, fun s hw hp => ?_⟩
  case poll =>
    rw [h.step_poll ha]
    exact ⟨fun hv => congrArg _ (if_pos hv), fun hv => congrArg _ (if_neg hv)⟩
  case idleOver =>
    have hw' : PriWaits { s with prog := rest } := hw
    rw [hw.step_eq, hw'.step_eq, enterHost, enterHost, hp]
    rfl
  all_goals
    rw [hw.step_eq, enterHost, hp]
    rfl

end Sys2Proof.Proofs
end

section
/-! PROOFS. The words the registers show (spec/10_state.md R22, R27, R28, R35, R41; spec/30_encoding.md R83) and the
interrupt outputs read from them (spec/60_exceptions.md R244, R245). -/

namespace Sys2Proof.Machine

/-- R22. -/
theorem PriUnit.statusWord_getLsbD (p : PriUnit) (k : Nat) (hk : k < 32) : p.statusWord.getLsbD k =
    (if k = 0 then p.busy else if k = 1 then p.ready else if k = 2 then p.presence else if k = 3 then p.done
      else if k = 4 then p.err else if 8 ≤ k ∧ k < 12 then p.lastErr.code.getLsbD (k - 8) else false) := by
  simp only [PriUnit.statusWord, BitVec.getLsbD_or, flagAt_getLsbD _ _ k hk, fieldAt_getLsbD _ _ k hk]
  interval_cases k <;> simp

/-- R35. -/
theorem SecUnit.statusWord_getLsbD (u : SecUnit) (k : Nat) (hk : k < 32) : u.statusWord.getLsbD k =
    (if k = 0 then u.active else if k = 1 then u.pending else if k = 2 then decide (u.isrState = .timing)
      else if k = 3 then decide (u.rxFifo ≠ []) else if k = 4 then u.rxOvf else if k = 5 then u.err
      else if 8 ≤ k ∧ k < 12 then u.lastErr.code.getLsbD (k - 8)
      else if 16 ≤ k ∧ k < 22 then u.bitIndex.testBit (k - 16)
      else if 24 ≤ k ∧ k < 30 then u.rxFifo.length.testBit (k - 24) else false) := by
  have timing : u.isrState.toBool = decide (u.isrState = .timing) := by cases u.isrState <;> rfl
  have valid : (!u.rxFifo.isEmpty) = decide (u.rxFifo ≠ []) := by cases u.rxFifo <;> rfl
  simp only [SecUnit.statusWord, BitVec.getLsbD_or, flagAt_getLsbD _ _ k hk, fieldAt_getLsbD _ _ k hk, timing, valid,
    BitVec.getLsbD_ofNat]
  interval_cases k <;> simp

/-- R28. -/
theorem PriUnit.ieWord_getLsbD (p : PriUnit) (k : Nat) (hk : k < 32) :
    p.ieWord.getLsbD k = (if k = 0 then p.doneIe else if k = 1 then p.errIe else false) := by
  simp only [PriUnit.ieWord, BitVec.getLsbD_or, flagAt_getLsbD _ _ k hk]
  rcases k with _ | _ | k <;> simp

/-- R41. -/
theorem SecUnit.ieWord_getLsbD (u : SecUnit) (k : Nat) (hk : k < 32) :
    u.ieWord.getLsbD k =
      (if k = 0 then u.rxIe else if k = 1 then u.ovfIe else if k = 2 then u.errIe else false) := by
  simp only [SecUnit.ieWord, BitVec.getLsbD_or, flagAt_getLsbD _ _ k hk]
  rcases k with _ | _ | _ | k <;> simp

/-- R83: the mask keeps the three fields and clears the ignored bits. -/
theorem CfgReg.toWord_ofWord (w : Word) : (CfgReg.ofWord w).toWord = w &&& 0x3F3FFFFF#32 := by
  refine BitVec.eq_of_getLsbD_eq fun k hk => ?_
  simp only [CfgReg.toWord, CfgReg.ofWord, BitVec.getLsbD_or, fieldAt_getLsbD _ _ k hk, BitVec.getLsbD_extractLsb',
    BitVec.getLsbD_and]
  interval_cases k <;> simp

/-- Two words without a common bit add up in their disjunction. -/
theorem toNat_or_of_below {a b : Word} {n : Nat} (ha : a.toNat < 2 ^ n) (hb : 2 ^ n ∣ b.toNat) :
    (a ||| b).toNat = a.toNat + b.toNat := by
  obtain ⟨q, hq⟩ := hb
  rw [BitVec.toNat_or, hq, Nat.or_comm, ← Nat.two_pow_add_eq_or_of_lt ha, Nat.add_comm]

/-- R83. -/
theorem CfgReg.toWord_toNat (c : CfgReg) : c.toWord.toNat = c.s2p * 2 ^ 24 + c.p2s * 2 ^ 16 + c.slot := by
  have hT := c.T.isLt
  have hp := c.p2sBits.isLt
  have hs := c.s2pBits.isLt
  have low : (fieldAt 0 c.T).toNat = c.slot := by rw [fieldAt_toNat _ (by omega)]; simp [CfgReg.slot]
  have mid : (fieldAt 16 c.p2sBits).toNat = c.p2s * 2 ^ 16 := fieldAt_toNat _ (by omega)
  have high : (fieldAt 24 c.s2pBits).toNat = c.s2p * 2 ^ 24 := fieldAt_toNat _ (by omega)
  have lowMid : (fieldAt 0 c.T ||| fieldAt 16 c.p2sBits).toNat = c.slot + c.p2s * 2 ^ 16 := by
    rw [toNat_or_of_below (n := 16) (by rw [low]; exact hT) (by rw [mid]; exact Nat.dvd_mul_left _ _), low, mid]
  have hlow : c.slot + c.p2s * 2 ^ 16 < 2 ^ 24 := by simp only [CfgReg.slot, CfgReg.p2s]; omega
  rw [CfgReg.toWord, toNat_or_of_below (n := 24) (by rw [lowMid]; exact hlow)
    (by rw [high]; exact Nat.dvd_mul_left _ _), lowMid, high]
  omega

/-- R27: the two halves of `P.CAL`. -/
theorem PriUnit.calWord_toNat (p : PriUnit) :
    p.calWord.toNat = min p.swLat 0xFFFF + min p.wrLat 0xFFFF * 2 ^ 16 := by
  have half (n : Nat) : (BitVec.ofNat 16 (min n 0xFFFF)).toNat = min n 0xFFFF := by
    rw [BitVec.toNat_ofNat]; omega
  have low : (fieldAt 0 (BitVec.ofNat 16 (min p.swLat 0xFFFF))).toNat = min p.swLat 0xFFFF := by
    rw [fieldAt_toNat _ (by omega), half]; omega
  have high : (fieldAt 16 (BitVec.ofNat 16 (min p.wrLat 0xFFFF))).toNat = min p.wrLat 0xFFFF * 2 ^ 16 := by
    rw [fieldAt_toNat _ (by omega), half]
  rw [PriUnit.calWord, toNat_or_of_below (n := 16) (by rw [low]; omega)
    (by rw [high]; exact Nat.dvd_mul_left _ _), low, high]

end Sys2Proof.Machine

namespace Sys2Proof.Proofs

open Sys2Proof Sys2Proof.Machine

/-- Settles O42: the step of a read answers `regRead`, whose word each offset's register fixes. -/
theorem readsHaveNoSideEffect : Obligations.ReadsHaveNoSideEffect := by
  refine ⟨fun s tgt rest off h ha => ⟨_, h.step_read ha, ?pri⟩, fun s tgt rest off h ha => ⟨_, h.step_read ha, ?sec⟩⟩
  case pri =>
    refine ⟨?_, ?_, ?_, ?_, ?_, ?cal, ?_, ?_⟩
    case cal => rintro rfl; exact s.pri.calWord_toNat
    all_goals rintro rfl; rfl
  case sec =>
    refine ⟨?_, ?_, ?_, ?_, ?head, ?_, ?_, ?_, ?_, ?_, ?_⟩
    case head =>
      rintro rfl
      exact ⟨fun he => congrArg (List.headD · 0#32) he, fun p rest' he => congrArg (List.headD · 0#32) he⟩
    all_goals rintro rfl; rfl

/-- Settles O43: the layout of each word, bit by bit. -/
theorem registerLayouts : Obligations.RegisterLayouts :=
  ⟨PriUnit.statusWord_getLsbD, SecUnit.statusWord_getLsbD, PriUnit.ieWord_getLsbD, SecUnit.ieWord_getLsbD,
    CfgReg.toWord_ofWord, CfgReg.toWord_toNat⟩

/-- Settles O46: the bits of the two registers are the flags the outputs are made of. -/
theorem interruptOutputs : Obligations.InterruptOutputs := by
  intro s
  refine ⟨?pri, fun hsp => ?sec⟩
  case pri =>
    have done : (readPri .status s).getLsbD 3 = s.pri.done := s.pri.statusWord_getLsbD 3 (by decide)
    have err : (readPri .status s).getLsbD 4 = s.pri.err := s.pri.statusWord_getLsbD 4 (by decide)
    have doneIe : (readPri .ie s).getLsbD 0 = s.pri.doneIe := s.pri.ieWord_getLsbD 0 (by decide)
    have errIe : (readPri .ie s).getLsbD 1 = s.pri.errIe := s.pri.ieWord_getLsbD 1 (by decide)
    rw [done, err, doneIe, errIe]
    simp only [priIrq, Bool.or_eq_true, Bool.and_eq_true]
  case sec =>
    have valid : (readSec .status s).getLsbD 3 = decide (s.sec.rxFifo ≠ []) := s.sec.statusWord_getLsbD 3 (by decide)
    have ovf : (readSec .status s).getLsbD 4 = s.sec.rxOvf := s.sec.statusWord_getLsbD 4 (by decide)
    have err : (readSec .status s).getLsbD 5 = s.sec.err := s.sec.statusWord_getLsbD 5 (by decide)
    have rxIe : (readSec .ie s).getLsbD 0 = s.sec.rxIe := s.sec.ieWord_getLsbD 0 (by decide)
    have ovfIe : (readSec .ie s).getLsbD 1 = s.sec.ovfIe := s.sec.ieWord_getLsbD 1 (by decide)
    have errIe : (readSec .ie s).getLsbD 2 = s.sec.errIe := s.sec.ieWord_getLsbD 2 (by decide)
    rw [valid, ovf, err, rxIe, ovfIe, errIe]
    simp [secIrq, hsp, or_assoc]

end Sys2Proof.Proofs
end

section
/-! PROOFS. A packet arrives bit by bit (spec/43_sec_response.md R181, R182, R191), and every invariant holds right
after reset (spec/70_reset_and_hazards.md R271). -/

namespace Sys2Proof.Machine

/-! Reset. -/

theorem SecInv.reset : SecInv State.reset where
  pending_idle := nofun
  inactive_quiet _ := ⟨rfl, rfl, rfl⟩
  pending_active := nofun
  active_legal := nofun
  responding_pending h := absurd rfl h
  due_latched h := absurd rfl h
  source_disabled _ := nofun
  latched_due := nofun
  reply_in_width _ _ := nofun
  branch_drives _ _ _ := nofun
  bitIndex_le := Nat.zero_le _
  acc_above _ _ := BitVec.getLsbD_zero
  fifo_le := Nat.zero_le _
  prof_eq := rfl

theorem PriInv.reset : PriInv State.reset where
  busy_iff := ⟨nofun, fun h => absurd rfl h⟩
  prof_eq := rfl
  ready_ok := nofun
  running_ok _ _ _ _ := nofun
  point_ok _ _ _ _ := nofun
  slot_le := Nat.zero_le _
  rxAcc_above _ _ _ := nofun

theorem TimeInv.reset : TimeInv State.reset where
  sequencer _ _ _ _ := nofun
  priPad _ := nofun
  response _ _ _ _ := nofun
  secPad _ _ := nofun
  handler _ _ := nofun
  poll _ := nofun

theorem PadInv.reset : PadInv State.reset where
  pri_outstanding _ := nofun
  sec_outstanding _ := nofun
  pri_idle _ := .inr ⟨rfl, rfl⟩
  pri_start _ _ _ := nofun
  pri_running _ _ _ _ := nofun
  sec_idle _ := ⟨rfl, rfl⟩
  sec_running _ _ _ := nofun

theorem LineInv.reset : LineInv State.reset where
  prev_eq := rfl
  settled h := absurd h (by decide)
  bus_only_in_host _ := rfl

theorem CalInv.reset : CalInv State.reset where
  in_switch _ _ _ _ := nofun
  in_switchWait _ _ _ _ := nofun
  in_write _ _ _ _ := nofun
  in_writeWait _ _ _ _ := nofun
  measured := nofun

/-! Packets. -/

/-- The accumulator `acc` followed by the packet of `bits` from bit position `i` on. -/
def packetFrom (acc : Word) (i : Nat) (bits : List Bool) : Word := acc ||| BitVec.ofNat 32 (packetValue bits) <<< i

/-- A whole packet is the one taken from an empty accumulator. -/
theorem packetFrom_zero (bits : List Bool) : packetFrom 0#32 0 bits = BitVec.ofNat 32 (packetValue bits) := by
  simp [packetFrom]

theorem packetFrom_nil (acc : Word) (i : Nat) : packetFrom acc i [] = acc := by
  simp [packetFrom, packetValue]

/-- Bit `k` of a packet is the first bit of its list, or bit `k - 1` of the packet of the rest. -/
theorem packetValue_cons_testBit (b : Bool) (bits : List Bool) (k : Nat) :
    (packetValue (b :: bits)).testBit k = if k = 0 then b else (packetValue bits).testBit (k - 1) := by
  cases k with
  | zero => cases b <;> simp [packetValue, Nat.testBit_zero]
  | succ k =>
    have half : packetValue (b :: bits) / 2 = packetValue bits := by
      have := b.toNat_lt
      simp only [packetValue]
      omega
    rw [Nat.testBit_add_one, half]
    simp

/-- The accumulator with bit `b` taken at position `i` (R181), followed by the rest of the packet. -/
theorem packetFrom_cons (acc : Word) (i : Nat) (b : Bool) (bits : List Bool) :
    packetFrom (acc ||| (if b then (1#32) <<< i else 0#32)) (i + 1) bits = packetFrom acc i (b :: bits) := by
  have one : (if b then (1#32) <<< i else 0#32) = BitVec.ofNat 32 b.toNat <<< i := by cases b <;> simp
  have rest : BitVec.ofNat 32 (packetValue (b :: bits)) =
      BitVec.ofNat 32 b.toNat ||| BitVec.ofNat 32 (packetValue bits) <<< 1 := by
    refine BitVec.eq_of_getLsbD_eq fun k hk => ?_
    simp only [BitVec.getLsbD_or, BitVec.getLsbD_shiftLeft, BitVec.getLsbD_ofNat, packetValue_cons_testBit,
      Nat.testBit_bool_toNat]
    rcases k with _ | k
    · cases b <;> simp
    · cases b <;> simp [hk, show k < 32 by omega]
  rw [packetFrom, packetFrom, one, rest, BitVec.shiftLeft_or_distrib, ← BitVec.shiftLeft_add, Nat.add_comm 1 i,
    BitVec.or_assoc]

/-- What the events of `bits` make of `s` when they are what its packet still lacks (R181, R182). -/
structure CompletedBy (bits : List Bool) (s s' : State) : Prop where
  cfg_eq : s'.sec.cfg = s.sec.cfg
  bitIndex_eq : s'.sec.bitIndex = s.sec.cfg.p2s
  acc_eq : s'.sec.acc = packetFrom s.sec.acc s.sec.bitIndex bits
  delivered : s.sec.rxFifo.length < s.par.rxFifoDepth →
    s'.sec.rxFifo = s.sec.rxFifo ++ [packetFrom s.sec.acc s.sec.bitIndex bits] ∧ s'.sec.rxOvf = s.sec.rxOvf
  dropped : s.par.rxFifoDepth ≤ s.sec.rxFifo.length → s'.sec.rxFifo = s.sec.rxFifo ∧ s'.sec.rxOvf = true

/-- The last bit of a packet. -/
theorem receiveBit_completedBy (b : Bool) {s : State} (h : s.sec.bitIndex + 1 = s.sec.cfg.p2s) :
    CompletedBy [b] s (receiveBit b s) := by
  have hacc : (takeBit b s).sec.acc = packetFrom s.sec.acc s.sec.bitIndex [b] := by
    rw [← packetFrom_cons, packetFrom_nil]; rfl
  obtain ⟨o, -, hsec⟩ := clearPending_entry (deliver (takeBit b s))
  rw [← receiveBit_completes b h] at hsec
  rcases deliver_cases (takeBit b s) with ⟨hroom, e⟩ | ⟨hfull, e⟩ <;> rw [e] at hsec
  · exact { cfg_eq := by rw [hsec]; rfl, bitIndex_eq := by rw [hsec]; exact h, acc_eq := by rw [hsec]; exact hacc
            delivered := fun _ => by rw [hsec, ← hacc]; exact ⟨rfl, rfl⟩
            dropped := fun hf => absurd hroom (Nat.not_lt.mpr hf) }
  · exact { cfg_eq := by rw [hsec]; rfl, bitIndex_eq := by rw [hsec]; exact h, acc_eq := by rw [hsec]; exact hacc
            delivered := fun hr => absurd hr (Nat.not_lt.mpr hfull)
            dropped := fun _ => by rw [hsec]; exact ⟨rfl, rfl⟩ }

/-- A bit before the last one is taken into the accumulator; FIFO, overflow flag and configuration stay. -/
theorem CompletedBy.cons (b : Bool) {bits : List Bool} {s s' : State} (h : s.sec.bitIndex + 1 < s.sec.cfg.p2s)
    (hc : CompletedBy bits (receiveBit b s) s') : CompletedBy (b :: bits) s s' := by
  obtain ⟨o, -, hsec⟩ := clearPending_entry (takeBit b s)
  have hpar : (receiveBit b s).par = s.par := by rw [receiveBit_within b h]; exact (clearPending_frame _).1
  rw [← receiveBit_within b h] at hsec
  obtain ⟨hcfg, hi, hacc, hdel, hdrop⟩ := hc
  rw [hsec] at hcfg hi hacc hdel hdrop
  rw [hpar] at hdel hdrop
  have hpacket : packetFrom (takeBit b s).sec.acc (takeBit b s).sec.bitIndex bits =
      packetFrom s.sec.acc s.sec.bitIndex (b :: bits) := packetFrom_cons ..
  exact ⟨hcfg, hi, hacc.trans hpacket, fun hr => hpacket ▸ hdel hr, hdrop⟩

/-- R191: as many events as the packet lacks complete it. -/
theorem exists_completedBy {bits : List Bool} {s : State} (hne : bits ≠ [])
    (h : s.sec.bitIndex + bits.length = s.sec.cfg.p2s) : ∃ s', Feeds bits s s' ∧ CompletedBy bits s s' := by
  induction bits generalizing s with
  | nil => exact absurd rfl hne
  | cons b bits ih =>
    rw [List.length_cons] at h
    by_cases hlast : bits = []
    · subst hlast
      exact ⟨_, ⟨_, exec_bitEvent b s, rfl⟩, receiveBit_completedBy b h⟩
    · have hwithin : s.sec.bitIndex + 1 < s.sec.cfg.p2s := by
        have := List.length_pos_of_ne_nil hlast
        omega
      obtain ⟨o, -, hsec⟩ := clearPending_entry (takeBit b s)
      rw [← receiveBit_within b hwithin] at hsec
      have hlacks : (receiveBit b s).sec.bitIndex + bits.length = (receiveBit b s).sec.cfg.p2s := by
        rw [hsec]
        change s.sec.bitIndex + 1 + bits.length = s.sec.cfg.p2s
        omega
      obtain ⟨s', hfeeds, hdone⟩ := ih hlast hlacks
      exact ⟨s', ⟨_, exec_bitEvent b s, hfeeds⟩, hdone.cons b hwithin⟩

/-- Bits beyond the packet leave FIFO, overflow flag, accumulator and position as they are (R181). -/
theorem Feeds.beyond {more : List Bool} {s s' : State} (h : s.sec.cfg.p2s ≤ s.sec.bitIndex) (hf : Feeds more s s') :
    s'.sec.rxFifo = s.sec.rxFifo ∧ s'.sec.rxOvf = s.sec.rxOvf ∧ s'.sec.acc = s.sec.acc ∧
      s'.sec.bitIndex = s.sec.bitIndex := by
  induction more generalizing s with
  | nil => subst hf; exact ⟨rfl, rfl, rfl, rfl⟩
  | cons b more ih =>
    obtain ⟨m, hm, hrest⟩ := hf
    rw [exec_bitEvent, receiveBit_beyond b h] at hm
    obtain rfl := Host.Outcome.next.inj hm
    obtain ⟨o, -, hsec⟩ := clearPending_entry s
    have := ih (by rw [hsec]; exact h) hrest
    rwa [hsec] at this

end Sys2Proof.Machine

namespace Sys2Proof.Proofs

open Sys2Proof Sys2Proof.Machine

/-- Settles O59: at reset both units are idle, no effect, entry or event is outstanding, and the pads are released. -/
theorem invariantsAtReset : Obligations.InvariantsAtReset :=
  ⟨Config.params_legal, SecInv.reset, PriInv.reset, TimeInv.reset, PadInv.reset, LineInv.reset, CalInv.reset⟩

/-- Settles O29, by induction over the events: the accumulator with the rest of the packet behind it is the packet. -/
theorem packetCompleteness : Obligations.PacketCompleteness := by
  intro s bits hi hacc hlen hp _
  have hne : bits ≠ [] := by rintro rfl; rw [List.length_nil] at hlen; omega
  obtain ⟨s', hfeeds, hcfg, hindex, hacc', hdel, hdrop⟩ :=
    exists_completedBy (s := s) hne (by rw [hi, hlen, Nat.zero_add])
  have hpacket : packetFrom s.sec.acc s.sec.bitIndex bits = BitVec.ofNat 32 (packetValue bits) := by
    rw [hacc, hi, packetFrom_zero]
  rw [hpacket] at hacc' hdel
  exact ⟨s', hfeeds, hindex, hacc', hdel, hdrop, fun more s'' hmore =>
    Feeds.beyond (by rw [hcfg, hindex]) hmore⟩

end Sys2Proof.Proofs
end
